-- ==== Sys2Proof/Word.lean ====
section
/-! DEFINITION. The word types of the RBS block: 32-bit registers and addresses, 8-bit bytes (00 rules R6, R8). -/

namespace Sys2Proof

/-- A 32-bit register image, system address or bus word (00 rule R6: "All host-visible registers are 32 bits
wide. System addresses are 32 bits wide"). All arithmetic on it is modulo 2^32 (00 rule R8). -/
abbrev Word := BitVec 32

/-- One byte of system memory, of a ring's store or of the serial line. -/
abbrev Byte := BitVec 8

end Sys2Proof
end

