-- ==== Sys2Proof/Config.lean ====
section
/-! DEFINITION. What a build fixes (00 rules R6, R7), the names the other files share, and the free values: the
values spec/ leaves open, as constants with no body. -/

namespace Sys2Proof

/-- Which ring a command names (10 rule R32; RSEL of 30 rule R141). -/
inductive RingSel where
  | rx
  | tx
  deriving DecidableEq, Repr, Inhabited

/-- BPS, the bytes moved per DMA trigger: 1, 2 or 4 (00 rule R6). -/
inductive Bps where
  | one
  | two
  | four
  deriving DecidableEq, Repr, Inhabited

/-- The build parameters of 00 rule R6 that a rule of spec/ reads, or that PARAM shows. A build never changes
while the machine runs; a statement over every State is a statement over every build. -/
structure Build where
  /-- `K_RX`, log2 of the RX ring's capacity, 0..16 (00 rules R6, R7). -/
  kRx : Fin 17
  /-- `K_TX`, log2 of the TX ring's capacity, 0..16 (00 rules R6, R7). -/
  kTx : Fin 17
  /-- `BPS` (00 rule R6). -/
  bps : Bps
  /-- `DAC_ADDR`, the value `Start()` loads into DAR (43 rule R312). -/
  dacAddr : Word
  /-- `DAC_BITS`, the DAC's resolution: no rule of the block reads it (00 rule R6, 93 P3). -/
  dacBits : Nat
  /-- `TICK_SCALE`, the factor from ticks to `now()`'s unit (42 rule R281). -/
  tickScale : Word
  /-- `BASE`, the bus address of register offset 0, word-aligned (00 rule R6). -/
  base : Word
  /-- `mem_admits` (20 rule R104) as ranges (first, last) of addresses, both ends included: any predicate on the
  2^32 addresses is such a list. -/
  admitted : List (Nat × Nat)
  deriving DecidableEq, Repr

/-- BPS as a number (00 rule R6). -/
def Bps.toNat : Bps → Nat
  | .one => 1
  | .two => 2
  | .four => 4

/-- C_RX or C_TX, `2^K` (00 rule R6). -/
def Build.cap (b : Build) : RingSel → Nat
  | .rx => 2 ^ b.kRx.val
  | .tx => 2 ^ b.kTx.val

/-- Who takes the next step (00 rule R5, 30 rule R149, 60 rule R406). -/
inductive Turn where
  /-- HOST makes the next access of its program: a bus read or write, or an access to its memory. -/
  | host
  /-- The UART receives byte `b` from its line, flagged as a line error or not, and holds it (10 rule R61). -/
  | arrive (b : BitVec 8) (err : Bool)
  /-- The UART offers the block the oldest byte it holds: `rx(b, err)` (41 rules R250, R251). -/
  | rx
  /-- The UART can accept a byte: `tx_ready` (41 rule R252). -/
  | txReady
  /-- A pulse of the periodic tick source (42 rule R284). -/
  | tick
  /-- An overflow of the sample-rate timer (43 rule R320). -/
  | trig
  /-- BLOCK completes the held command (41 rules R242, R244). -/
  | complete
  /-- BLOCK runs the completion handler of a transfer (43 rule R322). -/
  | reload
  /-- BLOCK moves the sequencer to its next note (44 rule R362). -/
  | seqAdvance
  /-- BLOCK ends a session whose budget is used up (44 rule R363). -/
  | seqEnd
  /-- The reset input is asserted (70 rule R450). DESIGN CHOICE (log entry 16): one turn, where 10 rule R66 has a level
  input; a reset held for longer is several such turns. -/
  | reset
  deriving DecidableEq, Repr, Inhabited

namespace Config

/-- FREE VALUE (log entry 3). Which agent steps next, and what the UART receives, once the schedule held in State
is used up: 60 rule R408 admits every order, and 93 P8 and P9 leave the inputs to the environment. -/
opaque nextTurn : Nat → Turn

/-- FREE VALUE (log entry 8). What a bus read outside the block's window returns: not this block's to say. -/
opaque foreignRead : Nat → Word

/-- FREE VALUE (log entry 2). `DAC_ADDR` is OPEN (00 rule R6). -/
opaque dacAddr : Word

/-- FREE VALUE (log entry 2). `TICK_SCALE` is OPEN (00 rule R6). -/
opaque tickScale : Word

/-- FREE VALUE (log entry 2). `BASE` divided by 4: `BASE` is OPEN and word-aligned (00 rule R6). -/
opaque baseWords : BitVec 30

/-- FREE VALUE (log entry 2). `DAC_BITS - 1`: `DAC_BITS` is OPEN, 1..8·BPS, and BPS is 2 here (00 rule R6). -/
opaque dacBitsPred : Fin 16

/-- FREE VALUE (log entry 2). The ranges of `mem_admits`, which is OPEN (00 rule R6, D41). -/
opaque admitted : List (Nat × Nat)

/-- The build of `State.reset`: the default build of 00 rule R6 (K_RX = K_TX = 8, BPS = 2), each OPEN parameter a
free value. -/
def build : Build where
  kRx := 8
  kTx := 8
  bps := .two
  dacAddr := dacAddr
  dacBits := dacBitsPred.val + 1
  tickScale := tickScale
  base := baseWords ++ 0#2
  admitted := admitted

end Config

end Sys2Proof
end

