-- ==== Sys2Proof/Syntax.lean ====
section
/-! DEFINITION. The command set: one constructor per row of spec/opcode_table.json (30 rule R146), and format F1,
the raw fields of a command word (30 rule R141). -/

namespace Sys2Proof

/-- A command of 30 rule R146. Its only encoded operand is the ring RSEL names; the operands `a` and `n` come from
LATCH_ADDR and LATCH_N (30 rule R148). -/
inductive Instr where
  | rbInit (r : RingSel)
  | rbEnq (r : RingSel)
  | rbDeq (r : RingSel)
  | rbLen (r : RingSel)
  | rbEmpty (r : RingSel)
  | serInit
  | serWrite
  | serReadByte
  | tmrInit
  | tmrNow
  | tmrMark
  | tmrElapsed
  | pbLoad
  | pbStart
  | pbStop
  | seqPlay
  deriving DecidableEq, Repr, Inhabited

/-- Format F1, the one format of a command word (30 rule R141), as raw fields: any word has them, legal or not. -/
structure F1 where
  /-- OPC, bits 7:0. -/
  opc : BitVec 8
  /-- RSEL, bit 8. -/
  rsel : Bool
  /-- RSV, bits 31:9. -/
  rsv : BitVec 23
  deriving DecidableEq, Repr

/-- A command as 30 rule R160 writes it in a host program: `MNEMONIC[.rx|.tx]`. -/
structure CmdText where
  mnemonic : String
  suffix : Option RingSel
  deriving DecidableEq, Repr

end Sys2Proof
end

