-- ==== Sys2Proof/WellFormed.lean ====
section
/-! DEFINITION. The checks on what can be ill-formed: the raw fields of a command word (30 rules R141, R146), a
command as text (30 rule R160), a build (00 rules R6, R7). Instr itself has no ill-formed term: its one operand is a
RingSel, and either ring is legal. -/

namespace Sys2Proof

/-- The opcodes that take RSEL 0 or 1 (30 rule R146): the RB_* rows. -/
def ringOpcodes : List (BitVec 8) := [0x10, 0x11, 0x12, 0x13, 0x14]

/-- The opcodes that need RSEL = 0 (30 rule R146). -/
def plainOpcodes : List (BitVec 8) := [0x20, 0x21, 0x22, 0x30, 0x31, 0x32, 0x33, 0x40, 0x41, 0x42, 0x50]

/-- A word's fields are legal iff RSV = 0, OPC is assigned, and RSEL = 1 only with an RB_* opcode
(30 rule R146, "Decode"). -/
def F1.wellFormed (f : F1) : Bool :=
  f.rsv == 0 && (ringOpcodes.contains f.opc || (plainOpcodes.contains f.opc && !f.rsel))

/-- The mnemonics whose text needs `.rx` or `.tx` (30 rule R160). -/
def ringMnemonics : List String := ["RB_INIT", "RB_ENQ", "RB_DEQ", "RB_LEN", "RB_EMPTY"]

/-- The mnemonics whose text must have no suffix (30 rule R160). -/
def plainMnemonics : List String :=
  ["SER_INIT", "SER_WRITE", "SER_READ_BYTE", "TMR_INIT", "TMR_NOW", "TMR_MARK", "TMR_ELAPSED",
   "PB_LOAD", "PB_START", "PB_STOP", "SEQ_PLAY"]

/-- A suffix is required for RB_* and forbidden for the rest, and a mnemonic is matched exactly
(30 rule R160). -/
def CmdText.wellFormed (t : CmdText) : Bool :=
  match t.suffix with
  | some _ => ringMnemonics.contains t.mnemonic
  | none => plainMnemonics.contains t.mnemonic

/-- The legal values of 00 rule R6 that the types of Build leave open: BASE word-aligned, 1 ≤ DAC_BITS ≤ 8·BPS, and
every range of `mem_admits` inside the 32-bit address space. -/
def Build.wellFormed (b : Build) : Bool :=
  b.base.toNat % 4 == 0 && decide (1 ≤ b.dacBits) && decide (b.dacBits ≤ 8 * b.bps.toNat) &&
    b.admitted.all fun range => decide (range.1 ≤ range.2) && decide (range.2 < 2 ^ 32)

end Sys2Proof
end

