-- ==== Sys2Proof/Decode.lean ====
section
/-! DEFINITION. Decoding a command word and encoding a command (30 rules R141, R142, R146, R147), and the same for
the textual mnemonics of 30 rule R160. -/

namespace Sys2Proof

/-- Why a word is no command: the classes 30 rule R147 lists. Writing any of them to CMD raises ILLEGAL_CMD. -/
inductive DecodeError where
  /-- A bit of [31:9] is set. -/
  | reservedBitsSet
  /-- RSEL = 1 with an opcode outside RB_*. -/
  | ringSelectNotAllowed
  /-- OPC's unit code is 0x0 or 0x6 to 0xF (30 rule R142). -/
  | reservedUnit
  /-- OPC's unit exists, its operation does not. -/
  | reservedOperation
  deriving DecidableEq, Repr

/-- The fields of a word (30 rule R141). -/
def F1.ofWord (w : Word) : F1 where
  opc := w.extractLsb' 0 8
  rsel := w.getLsbD 8
  rsv := w.extractLsb' 9 23

/-- The word with given fields (30 rule R141). -/
def F1.toWord (f : F1) : Word :=
  f.opc.setWidth 32 ||| (BitVec.ofBool f.rsel).setWidth 32 <<< 8 ||| f.rsv.setWidth 32 <<< 9

/-- The ring RSEL names: RX when 0, TX when 1 (30 rule R148). -/
def RingSel.ofBit (rsel : Bool) : RingSel := if rsel then .tx else .rx

/-- RSEL of a ring (30 rule R148). -/
def RingSel.toBit : RingSel → Bool
  | .rx => false
  | .tx => true

/-- A command that has no ring operand: RSEL must be 0 (30 rule R141). -/
def decodePlain (rsel : Bool) (i : Instr) : Except DecodeError Instr :=
  if rsel then .error .ringSelectNotAllowed else .ok i

/-- The unit codes that exist are 0x1 to 0x5 (30 rule R142). -/
def unitExists (opc : BitVec 8) : Bool := decide (1 ≤ opc.toNat / 16) && decide (opc.toNat / 16 ≤ 5)

/-- Read a command from its fields (30 rule R146). -/
def decodeFields (f : F1) : Except DecodeError Instr :=
  if f.rsv ≠ 0 then .error .reservedBitsSet
  else match f.opc.toNat with
    | 0x10 => .ok (.rbInit (.ofBit f.rsel))
    | 0x11 => .ok (.rbEnq (.ofBit f.rsel))
    | 0x12 => .ok (.rbDeq (.ofBit f.rsel))
    | 0x13 => .ok (.rbLen (.ofBit f.rsel))
    | 0x14 => .ok (.rbEmpty (.ofBit f.rsel))
    | 0x20 => decodePlain f.rsel .serInit
    | 0x21 => decodePlain f.rsel .serWrite
    | 0x22 => decodePlain f.rsel .serReadByte
    | 0x30 => decodePlain f.rsel .tmrInit
    | 0x31 => decodePlain f.rsel .tmrNow
    | 0x32 => decodePlain f.rsel .tmrMark
    | 0x33 => decodePlain f.rsel .tmrElapsed
    | 0x40 => decodePlain f.rsel .pbLoad
    | 0x41 => decodePlain f.rsel .pbStart
    | 0x42 => decodePlain f.rsel .pbStop
    | 0x50 => decodePlain f.rsel .seqPlay
    | _ => .error (if unitExists f.opc then .reservedOperation else .reservedUnit)

/-- Read a command from a word written to CMD; every word not in 30 rule R146 is refused by name
(30 rule R147). -/
def decode (w : Word) : Except DecodeError Instr := decodeFields (F1.ofWord w)

/-- OPC of a command (30 rule R146). -/
def Instr.opc : Instr → BitVec 8
  | .rbInit _ => 0x10
  | .rbEnq _ => 0x11
  | .rbDeq _ => 0x12
  | .rbLen _ => 0x13
  | .rbEmpty _ => 0x14
  | .serInit => 0x20
  | .serWrite => 0x21
  | .serReadByte => 0x22
  | .tmrInit => 0x30
  | .tmrNow => 0x31
  | .tmrMark => 0x32
  | .tmrElapsed => 0x33
  | .pbLoad => 0x40
  | .pbStart => 0x41
  | .pbStop => 0x42
  | .seqPlay => 0x50

/-- RSEL of a command: the ring of an RB_* command, 0 for every other (30 rule R141). -/
def Instr.rsel : Instr → Bool
  | .rbInit r => r.toBit
  | .rbEnq r => r.toBit
  | .rbDeq r => r.toBit
  | .rbLen r => r.toBit
  | .rbEmpty r => r.toBit
  | .serInit => false
  | .serWrite => false
  | .serReadByte => false
  | .tmrInit => false
  | .tmrNow => false
  | .tmrMark => false
  | .tmrElapsed => false
  | .pbLoad => false
  | .pbStart => false
  | .pbStop => false
  | .seqPlay => false

/-- The fields of a command's word (30 rule R141). -/
def Instr.fields (i : Instr) : F1 where
  opc := i.opc
  rsel := i.rsel
  rsv := 0

/-- The word of a command (30 rules R141, R146). -/
def encode (i : Instr) : Word := i.fields.toWord

/-- What the decoder reads from an instruction whose bits are `w`: a command is one 32-bit word (30 rule R150), and
bits the instruction has above `nbits` are 0. -/
def decodeTableWord (nbits w : Nat) : Option Instr :=
  let v := w % 2 ^ nbits
  if v < 2 ^ 32 then (decode (BitVec.ofNat 32 v)).toOption else none

/-- The mnemonic of a command (30 rule R146). -/
def Instr.mnemonic : Instr → String
  | .rbInit _ => "RB_INIT"
  | .rbEnq _ => "RB_ENQ"
  | .rbDeq _ => "RB_DEQ"
  | .rbLen _ => "RB_LEN"
  | .rbEmpty _ => "RB_EMPTY"
  | .serInit => "SER_INIT"
  | .serWrite => "SER_WRITE"
  | .serReadByte => "SER_READ_BYTE"
  | .tmrInit => "TMR_INIT"
  | .tmrNow => "TMR_NOW"
  | .tmrMark => "TMR_MARK"
  | .tmrElapsed => "TMR_ELAPSED"
  | .pbLoad => "PB_LOAD"
  | .pbStart => "PB_START"
  | .pbStop => "PB_STOP"
  | .seqPlay => "SEQ_PLAY"

/-- The suffix a command's text carries: the ring of an RB_* command (30 rule R160). -/
def Instr.suffix : Instr → Option RingSel
  | .rbInit r => some r
  | .rbEnq r => some r
  | .rbDeq r => some r
  | .rbLen r => some r
  | .rbEmpty r => some r
  | .serInit => none
  | .serWrite => none
  | .serReadByte => none
  | .tmrInit => none
  | .tmrNow => none
  | .tmrMark => none
  | .tmrElapsed => none
  | .pbLoad => none
  | .pbStart => none
  | .pbStop => none
  | .seqPlay => none

/-- A command as text (30 rule R160). -/
def Instr.text (i : Instr) : CmdText where
  mnemonic := i.mnemonic
  suffix := i.suffix

/-- Every command, in the table's order (30 rule R146). -/
def allInstrs : List Instr :=
  [.rbInit .rx, .rbInit .tx, .rbEnq .rx, .rbEnq .tx, .rbDeq .rx, .rbDeq .tx, .rbLen .rx, .rbLen .tx,
   .rbEmpty .rx, .rbEmpty .tx, .serInit, .serWrite, .serReadByte, .tmrInit, .tmrNow, .tmrMark,
   .tmrElapsed, .pbLoad, .pbStart, .pbStop, .seqPlay]

/-- The command a text names, if it names one: mnemonic and suffix match exactly (30 rule R160). -/
def CmdText.command (t : CmdText) : Option Instr := allInstrs.find? fun i => decide (i.text = t)

end Sys2Proof
end

