-- ==== Sys2Proof/Machine/State.lean ====
section
/-! DEFINITION. The state of the RBS block and of what its steps read or write (10 rules R30 to R43), its reset value
(10 rule R70), and the reasons an instruction's meaning can stop. Plain data throughout. -/

namespace Sys2Proof.Machine

/-- Why a meaning has no step. -/
inductive Fault where
  /-- Raised by the meanings of RB_ENQ and RB_DEQ when a byte they need has `mem_admits` false: 20 rule R104 says
  the step does not exist and its agent is stuck, so no next state is named. Safe: `step` leaves the HOST at that
  access, changes nothing else, and the other agents go on. -/
  | memNotAdmitted
  deriving DecidableEq, Repr

/-- Why an instruction has no meaning. -/
inductive Refusal where
  /-- Raised by no arm of `exec`: it stands for a row of the opcode table that would still lack its meaning.
  Safe: nothing is claimed of such an instruction. -/
  | notModelled (mnemonic : String)
  deriving DecidableEq, Repr

/-- The operations whose completion is a later step (10 rule R35). -/
inductive HeldOp where
  | none
  | serWrite
  | serReadByte
  deriving DecidableEq, Repr, Inhabited

/-- The playback states (10 rule R39). -/
inductive PbState where
  | idle
  | armed
  | streaming
  | reload
  deriving DecidableEq, Repr, Inhabited

/-- The causes `raise Fault(c)` records (60 rule R402). -/
inductive Cause where
  | illegalCmd
  | cmdWhileBusy
  | badReg
  | pbBadBuffer
  | seqBadDesc
  deriving DecidableEq, Repr, Inhabited

/-- The registers of the bus map, in offset order (10 rule R50). -/
inductive Reg where
  | cmd | argAddr | argN | result | status | ctrl | err | param
  | rxLen | rxWidx | rxRidx | txLen | txWidx | txRidx
  | tick | tickRef | now | elapsed
  | pbSrc | pbCnt | dmaSar | dmaDar | dmaBcr
  | seqNoteTicks | seqBudget | seqT0
  | seqAddr0 | seqCnt0 | seqAddr1 | seqCnt1 | seqAddr2 | seqCnt2
  deriving DecidableEq, Repr, Inhabited

/-- The host command port (10 rules R30, R35). -/
structure Port where
  argAddr : Word
  argN : Word
  result : Word
  /-- Hidden copy of ARG_ADDR taken when CMD was written. -/
  latchAddr : Word
  /-- Hidden copy of ARG_N taken when CMD was written. -/
  latchN : Word
  busy : Bool
  heldOp : HeldOp
  deriving DecidableEq, Repr

/-- One FIFO ring (10 rule R32). Its capacity is a build parameter, so the indices are counts, bounded by
the invariant of 10 rule R33. -/
structure Ring where
  store : List Byte
  widx : Nat
  ridx : Nat
  len : Nat
  deriving DecidableEq, Repr

/-- The serial adapter (10 rule R36). -/
structure Serial where
  txie : Bool
  serEn : Bool
  /-- CTRL.ECHO. -/
  echo : Bool
  deriving DecidableEq, Repr

/-- The tick timer (10 rule R37). -/
structure Timer where
  tick : Word
  tickRef : Word
  tickEn : Bool
  deriving DecidableEq, Repr

/-- The playback DMA: pending buffer, active channel, state (10 rule R38). -/
structure Playback where
  pbSrc : Word
  pbCnt : Word
  sar : Word
  dar : Word
  bcr : Word
  chEn : Bool
  done : Bool
  pbst : PbState
  /-- CTRL.SRT_EN. -/
  srtEn : Bool
  deriving DecidableEq, Repr

/-- One (SEQ_ADDRk, SEQ_CNTk) pair (10 rule R40). -/
structure Desc where
  addr : Word
  cnt : Word
  deriving DecidableEq, Repr

/-- The note sequencer (10 rule R40). SEQ_IDX is a 2-bit register with values 0..2. -/
structure Sequencer where
  active : Bool
  idx : Fin 3
  t0 : Word
  noteTicks : Word
  budget : Word
  desc0 : Desc
  desc1 : Desc
  desc2 : Desc
  deriving DecidableEq, Repr

/-- The fault register ERR (10 rule R41). -/
structure Err where
  fault : Bool
  cause : BitVec 8
  deriving DecidableEq, Repr

/-- System memory: the bytes that differ from what an unlisted address reads as, by rising address. -/
abbrev Memory := List Host.Cell

/-- What an address of system memory that nothing has written reads as. DESIGN CHOICE (unsafe, log entry 1): spec/
gives memory no contents (93 P15). -/
def Memory.unlisted : Byte := 0

/-- The canonical form of `Memory` from the address `lo` up: addresses strictly rising and below 2^32, no entry equal
to what an unlisted address reads as. -/
def Memory.wfFrom : Nat → Memory → Bool
  | _, [] => true
  | lo, (a, b) :: rest =>
    decide (lo ≤ a) && decide (a < 2 ^ 32) && decide (b ≠ Memory.unlisted) && Memory.wfFrom (a + 1) rest

/-- The canonical form of `Memory`. -/
def Memory.wf (m : Memory) : Bool := Memory.wfFrom 0 m

/-- A received byte the UART holds, and its line-error flag (10 rules R60, R61). -/
structure RxByte where
  byte : Byte
  err : Bool
  deriving DecidableEq, Repr

/-- Where a bus access goes: a byte offset in the block's 256-byte window, or a bus address (20 rule R100). -/
inductive BusTarget where
  | offset (off : BitVec 8)
  | address (addr : Word)
  deriving DecidableEq, Repr

/-- One access of the HOST's program (10 rules R80 to R82; 20 rule R111; 30 rule R160). -/
inductive HostOp where
  /-- A bus read `bits` bits wide. -/
  | read (target : BusTarget) (bits : Nat)
  /-- A bus write `bits` bits wide of the word `w`. -/
  | write (target : BusTarget) (bits : Nat) (w : Word)
  /-- The HOST reads `n` bytes of its system memory (any `n`: log entry 15). -/
  | memRead (addr : Word) (n : Nat)
  /-- The HOST writes the `n` low bytes of `v` to its system memory (any `n`: log entry 15). -/
  | memWrite (addr : Word) (n : Nat) (v : Word)
  /-- Repeat `rd STATUS` until BUSY = 0 (30 rule R160). -/
  | waitnb
  deriving DecidableEq, Repr

/-- What stands outside the block, beside memory and the two traces: the agents' own state (00 rule R5). -/
structure Env where
  /-- The bytes the UART holds, oldest first (10 rule R61). -/
  uartHeld : List RxByte
  /-- MODEL'S OWN FIELD (log entry 4): the accesses the HOST is still to make, oldest first. -/
  host : List HostOp
  /-- MODEL'S OWN FIELD (log entry 6): the words the HOST's reads returned, oldest first. -/
  hostReads : List Word
  /-- MODEL'S OWN FIELD (log entry 3): who takes the next steps, soonest first. -/
  sched : List Turn
  /-- MODEL'S OWN FIELD (log entry 3): how many free values have been drawn. -/
  draws : Nat
  deriving DecidableEq, Repr

/-- The whole machine: the build, the block's state (10 rules R30 to R41), and the state its steps read or write
(10 rule R42). -/
structure State where
  build : Build
  port : Port
  rx : Ring
  tx : Ring
  ser : Serial
  tmr : Timer
  pb : Playback
  seq : Sequencer
  err : Err
  mem : Memory
  /-- The UART transmit trace `uart_tx`, oldest first. -/
  uartTx : List Byte
  /-- The DAC trace, oldest first: BPS-byte values, zero-extended. -/
  dac : List Word
  env : Env
  deriving DecidableEq, Repr

/-- A ring just created: "zero-fills the store, sets indices to an empty-sentinel state, length 0" (10 rule R70). -/
def Ring.fresh (cap : Nat) : Ring where
  store := List.replicate cap 0
  widx := 0
  ridx := 0
  len := 0

/-- The reset state of every element of the block (10 rule R70), for a given build, with what reset does not touch:
system memory and the agents' own state (70 rule R450). -/
def State.resetWith (b : Build) (mem : Memory) (env : Env) : State where
  build := b
  port := { argAddr := 0, argN := 0, result := 0, latchAddr := 0, latchN := 0, busy := false, heldOp := .none }
  rx := Ring.fresh (b.cap .rx)
  tx := Ring.fresh (b.cap .tx)
  ser := { txie := false, serEn := false, echo := false }
  tmr := { tick := 0, tickRef := 0, tickEn := false }
  pb := { pbSrc := 0, pbCnt := 0, sar := 0, dar := 0, bcr := 0, chEn := false, done := false, pbst := .idle,
          srtEn := false }
  seq := { active := false, idx := 0, t0 := 0, noteTicks := 0, budget := 0,
           desc0 := ⟨0, 0⟩, desc1 := ⟨0, 0⟩, desc2 := ⟨0, 0⟩ }
  err := { fault := false, cause := 0 }
  mem := mem
  uartTx := []
  dac := []
  env := env

/-- The agents' own state at power-on: nothing held, no program, no schedule (log entries 3 to 6). -/
def Env.initial : Env where
  uartHeld := []
  host := []
  hostReads := []
  sched := []
  draws := 0

/-- The machine right after reset at power-on: 10 rule R70 for the default build of 00 rule R6, memory with nothing
listed. -/
def State.reset : State := State.resetWith Config.build [] Env.initial

end Sys2Proof.Machine
end

