-- ==== Sys2Proof/Machine/Operands.lean ====
section
/-! DEFINITION. Operand forms: the latched operands of a command (30 rule R148), the addresses of a transfer
(20 rule R108), the error value (40 rule R211), the buffer check (43 rule R310), and `mem_admits` (20 rule R104). -/

namespace Sys2Proof.Machine

/-- `a = LATCH_ADDR` (30 rule R148). -/
def State.opA (s : State) : Word := s.port.latchAddr

/-- `n = LATCH_N` (30 rule R148). -/
def State.opN (s : State) : Word := s.port.latchN

/-- `r = RSEL`: the ring a command names (30 rule R148). -/
def State.ring (s : State) : RingSel → Ring
  | .rx => s.rx
  | .tx => s.tx

/-- C_r, the capacity of ring `r` (00 rule R6). -/
def State.cap (s : State) (r : RingSel) : Nat := s.build.cap r

/-- ERR_VALUE, what RB_ENQ and SER_WRITE return for a null source (40 rule R211). -/
def errValue : Word := 0xFFFFFFFF

/-- The `k` addresses of a transfer from `a` up, modulo 2^32 (20 rule R108). -/
def span (a : Word) : Nat → List Word
  | 0 => []
  | k + 1 => a :: span (a + 1) k

/-- `mem_admits(a)` (20 rule R104). -/
def memAdmits (b : Build) (a : Word) : Bool :=
  b.admitted.any fun range => decide (range.1 ≤ a.toNat) && decide (a.toNat ≤ range.2)

/-- `mem_admits` holds for each of the `k` bytes from `a` up (20 rule R104). -/
def State.admitsSpan (s : State) (a : Word) (k : Nat) : Bool := (span a k).all fun x => memAdmits s.build x

/-- `valid(a, n)`, the buffer check, in unbounded integers (43 rule R310). -/
def validBuffer (b : Build) (a n : Word) : Bool :=
  decide (n ≠ 0) && decide (a.toNat % b.bps.toNat = 0) && decide (n.toNat * b.bps.toNat ≤ 0xFFFFFFFF) &&
    decide (a.toNat + n.toNat * b.bps.toNat ≤ 2 ^ 32)

/-- Descriptor k of the sequencer (10 rule R40). -/
def Sequencer.desc (q : Sequencer) (k : Fin 3) : Desc :=
  match k with
  | 0 => q.desc0
  | 1 => q.desc1
  | 2 => q.desc2

/-- The descriptor's pair passes the buffer check (44 rules R360, R362). -/
def validDesc (b : Build) (d : Desc) : Bool := validBuffer b d.addr d.cnt

end Sys2Proof.Machine
end

