-- ==== Sys2Proof/Machine/Flags.lean ====
section
/-! DEFINITION. Every flag and every computed register image: EMPTY and FULL (10 rule R34), NOW and ELAPSED
(10 rule R59), STATUS, CTRL, ERR and PARAM (10 rules R54, R55, R56, R58). -/

namespace Sys2Proof.Machine

/-- `EMPTY_r = (LEN_r == 0)` (10 rule R34). -/
def State.empty (s : State) (r : RingSel) : Bool := decide ((s.ring r).len = 0)

/-- `FULL_r = (LEN_r == C_r)` (10 rule R34). -/
def State.full (s : State) (r : RingSel) : Bool := decide ((s.ring r).len = s.cap r)

/-- `NOW = (TICK * TICK_SCALE) mod 2^32` (10 rule R59, 42 rule R281). -/
def State.now (s : State) : Word := s.tmr.tick * s.build.tickScale

/-- `ELAPSED = (TICK - TICK_REF) mod 2^32` (10 rule R59, 42 rule R283). -/
def State.elapsed (s : State) : Word := s.tmr.tick - s.tmr.tickRef

/-- The 2-bit code of a playback state (10 rule R39). -/
def PbState.code : PbState → BitVec 2
  | .idle => 0
  | .armed => 1
  | .streaming => 2
  | .reload => 3

/-- The code of a fault cause (60 rule R402). -/
def Cause.code : Cause → BitVec 8
  | .illegalCmd => 0x01
  | .cmdWhileBusy => 0x02
  | .badReg => 0x03
  | .pbBadBuffer => 0x04
  | .seqBadDesc => 0x05

/-- A value placed with its least significant bit at bit `lo` of a register, zeros elsewhere (00 rule R8). -/
def field {n : Nat} (v : BitVec n) (lo : Nat) : Word := v.setWidth 32 <<< lo

/-- A one-bit field. -/
def flag (b : Bool) (lo : Nat) : Word := field (BitVec.ofBool b) lo

/-- The STATUS register, a live view of state (10 rule R54). -/
def State.status (s : State) : Word :=
  flag s.port.busy 0 ||| flag (s.empty .rx) 1 ||| flag (s.full .rx) 2 ||| flag (s.empty .tx) 3 |||
    flag (s.full .tx) 4 ||| flag s.ser.txie 5 ||| flag s.ser.serEn 6 ||| flag s.tmr.tickEn 7 |||
    field s.pb.pbst.code 8 ||| flag s.pb.chEn 10 ||| flag s.pb.done 11 ||| flag s.seq.active 12 |||
    field (BitVec.ofNat 2 s.seq.idx.val) 13 ||| flag s.err.fault 15

/-- The CTRL register (10 rule R55). -/
def State.ctrl (s : State) : Word := flag s.ser.echo 0 ||| flag s.pb.srtEn 1

/-- The ERR register (10 rule R56). -/
def State.errWord (s : State) : Word := flag s.err.fault 0 ||| field s.err.cause 8

/-- VERSION, the command set's version (10 rule R58, 30 rule R143). -/
def version : BitVec 8 := 0x01

/-- The PARAM register of a build (10 rule R58). -/
def paramWord (b : Build) : Word :=
  field (BitVec.ofNat 5 b.kRx.val) 0 ||| field (BitVec.ofNat 5 b.kTx.val) 8 |||
    field (BitVec.ofNat 3 b.bps.toNat) 16 ||| field version 24

end Sys2Proof.Machine
end

