-- ==== Sys2Proof/Machine/Ops.lean ====
section
/-! DEFINITION. The named operations the meanings share: system memory (20 rules R101, R108), the rings
(40 rules R201 to R203), the command port (30 rule R140), taking a fault (60 rule R403), `Start()` (43 rule R312).
There is no return from a fault (60 rule R405). -/

namespace Sys2Proof.Machine

/-! ### System memory -/

/-- The byte at a memory cell's key. -/
def Memory.lookup : Memory → Nat → Byte
  | [], _ => Memory.unlisted
  | (k, b) :: rest, a => if k = a then b else Memory.lookup rest a

/-- Put a byte at a memory cell's key, keeping the canonical form: a byte equal to what an unlisted address reads as
is not listed. -/
def Memory.put : Memory → Nat → Byte → Memory
  | [], a, b => if b = Memory.unlisted then [] else [(a, b)]
  | (k, c) :: rest, a, b =>
    if a < k then (if b = Memory.unlisted then (k, c) :: rest else (a, b) :: (k, c) :: rest)
    else if a = k then (if b = Memory.unlisted then rest else (a, b) :: rest)
    else (k, c) :: Memory.put rest a b

/-- The byte of system memory at address `a`. -/
def Memory.read (m : Memory) (a : Word) : Byte := Memory.lookup m a.toNat

/-- Write one byte of system memory. -/
def Memory.write (m : Memory) (a : Word) (b : Byte) : Memory := Memory.put m a.toNat b

/-- The `k` bytes from `a` up (20 rules R105, R108). -/
def Memory.readSpan (m : Memory) (a : Word) (k : Nat) : List Byte := (span a k).map fun x => Memory.read m x

/-- Write bytes at `a`, `a+1`, ... in that order, modulo 2^32 (20 rules R105, R108). -/
def Memory.writeSpan : Memory → Word → List Byte → Memory
  | m, _, [] => m
  | m, a, b :: rest => Memory.writeSpan (Memory.write m a b) (a + 1) rest

/-- The little-endian value of a list of bytes (20 rule R101). -/
def leValue : List Byte → Nat
  | [] => 0
  | b :: rest => b.toNat + 256 * leValue rest

/-- The `n` low bytes of a value, least significant first (20 rule R101). -/
def leBytes : Nat → Nat → List Byte
  | 0, _ => []
  | n + 1, v => BitVec.ofNat 8 v :: leBytes n (v / 256)

/-- `MemRead(a, n)` (00 rule R9, 20 rule R101). -/
def Memory.memRead (m : Memory) (a : Word) (n : Nat) : Word := BitVec.ofNat 32 (leValue (Memory.readSpan m a n))

/-- `MemWrite(a, n, v)` (00 rule R9, 20 rule R101). -/
def Memory.memWrite (m : Memory) (a : Word) (n : Nat) (v : Word) : Memory :=
  Memory.writeSpan m a (leBytes n v.toNat)

/-! ### Rings -/

/-- The create state of a ring (40 rule R200): store zeroed, indices and length 0. -/
def Ring.create (cap : Nat) : Ring where
  store := List.replicate cap 0
  widx := 0
  ridx := 0
  len := 0

/-- `idx <- (idx + 1) & M`, M = C - 1 (40 rule R201). -/
def nextIndex (cap idx : Nat) : Nat := (idx + 1) &&& (cap - 1)

/-- `Push(r, b)` (40 rule R202). -/
def Ring.push (cap : Nat) (r : Ring) (b : Byte) : Ring :=
  { r with store := r.store.set r.widx b, widx := nextIndex cap r.widx, len := r.len + 1 }

/-- The byte `Pop(r)` returns (40 rule R203). -/
def Ring.head (r : Ring) : Byte := r.store.getD r.ridx 0

/-- The ring after `Pop(r)`: the store byte is left in place (40 rule R203). -/
def Ring.drop (cap : Nat) (r : Ring) : Ring :=
  { r with ridx := nextIndex cap r.ridx, len := r.len - 1 }

/-- `Push` each byte in turn. -/
def Ring.pushAll (cap : Nat) : Ring → List Byte → Ring
  | r, [] => r
  | r, b :: rest => Ring.pushAll cap (Ring.push cap r b) rest

/-- The bytes `k` Pops return, first first. -/
def Ring.takeN (cap : Nat) : Nat → Ring → List Byte
  | 0, _ => []
  | k + 1, r => r.head :: Ring.takeN cap k (Ring.drop cap r)

/-- The ring after `k` Pops. -/
def Ring.dropN (cap : Nat) : Nat → Ring → Ring
  | 0, r => r
  | k + 1, r => Ring.dropN cap k (Ring.drop cap r)

/-! ### Named updates of the state -/

/-- Replace ring `r`. -/
def State.setRing (s : State) (r : RingSel) (x : Ring) : State :=
  match r with
  | .rx => { s with rx := x }
  | .tx => { s with tx := x }

/-- `RESULT <- v` (30 rule R145). -/
def State.setResult (s : State) (v : Word) : State := { s with port := { s.port with result := v } }

/-- `LATCH_ADDR <- ARG_ADDR; LATCH_N <- ARG_N` (30 rule R140). -/
def State.latch (s : State) : State :=
  { s with port := { s.port with latchAddr := s.port.argAddr, latchN := s.port.argN } }

/-- `BUSY <- 1; HELD_OP <- op` (30 rule R140). -/
def State.hold (s : State) (op : HeldOp) : State := { s with port := { s.port with busy := true, heldOp := op } }

/-- `BUSY <- 0; HELD_OP <- NONE` (41 rules R242, R244). -/
def State.release (s : State) : State := { s with port := { s.port with busy := false, heldOp := .none } }

/-- `TXIE <- v` (10 rule R36). -/
def State.setTxie (s : State) (v : Bool) : State := { s with ser := { s.ser with txie := v } }

/-- `TICK_REF <- TICK` (42 rule R282; 44 rules R360, R362). -/
def State.markTick (s : State) : State := { s with tmr := { s.tmr with tickRef := s.tmr.tick } }

/-- `MemWrite` of bytes in increasing address order (20 rule R105). -/
def State.storeBytes (s : State) (a : Word) (bytes : List Byte) : State :=
  { s with mem := Memory.writeSpan s.mem a bytes }

/-- Taking a fault, `raise Fault(c)` (60 rule R403): the first cause is kept, FAULT is sticky, nothing else
changes and control goes nowhere. -/
def State.raise (s : State) (c : Cause) : State :=
  { s with err := { fault := true, cause := if s.err.fault then s.err.cause else c.code } }

/-- `PB_SRC <- a; PB_CNT <- n` (43 rule R311; 44 rules R360, R362). -/
def State.loadBuffer (s : State) (a n : Word) : State := { s with pb := { s.pb with pbSrc := a, pbCnt := n } }

/-- The channel registers `Start()` writes (43 rule R312). -/
def Playback.start (b : Build) (p : Playback) : Playback :=
  { p with
    sar := p.pbSrc
    dar := b.dacAddr
    bcr := p.pbCnt * BitVec.ofNat 32 b.bps.toNat
    done := false
    chEn := true
    pbst := .armed }

/-- `Start()` (43 rule R312). -/
def State.start (s : State) : State := { s with pb := Playback.start s.build s.pb }

/-! ### Issuing a command -/

/-- The part every command shares (30 rule R140): the busy check, then the latches, then the command's own rule. -/
def State.issue (s : State) (body : State → Host.Outcome State Fault Refusal) : Host.Outcome State Fault Refusal :=
  if s.port.busy then .next (s.raise .cmdWhileBusy) else body s.latch

/-- An operation that has no step when `mem_admits` fails (20 rule R104). -/
def orStuck : Option State → Host.Outcome State Fault Refusal
  | some s => .next s
  | none => .fault .memNotAdmitted

end Sys2Proof.Machine
end

