-- ==== Sys2Proof/Machine/Playback.lean ====
section
/-! DEFINITION. The playback engine: PB_LOAD, PB_START, PB_STOP, the sample-rate trigger and the completion handler
(43 rules R310 to R322). -/

namespace Sys2Proof.Machine

/-- PB_LOAD (43 rule R311). -/
def execPbLoad (s : State) : Host.Outcome State Fault Refusal :=
  s.issue fun s =>
    .next (if validBuffer s.build s.opA s.opN then s.loadBuffer s.opA s.opN else s.raise .pbBadBuffer)

/-- PB_START (43 rule R313). -/
def execPbStart (s : State) : Host.Outcome State Fault Refusal :=
  s.issue fun s => .next (if s.pb.pbCnt = 0 then s.raise .pbBadBuffer else s.start)

/-- PB_STOP (43 rule R316). -/
def execPbStop (s : State) : Host.Outcome State Fault Refusal :=
  s.issue fun s =>
    .next { s with
      pb := { s.pb with chEn := false, done := false, pbst := .idle }
      seq := { s.seq with active := false } }

/-- The channel after one trigger: SAR and BCR move by BPS, and the transfer completes when BCR reaches 0
(43 rule R320). -/
def Playback.advance (b : Build) (p : Playback) : Playback :=
  let q := { p with sar := p.sar + BitVec.ofNat 32 b.bps.toNat, bcr := p.bcr - BitVec.ofNat 32 b.bps.toNat }
  if q.bcr = 0 then { q with chEn := false, done := true, pbst := .reload } else { q with pbst := .streaming }

/-- The sample at SAR, little-endian (43 rule R320, 20 rule R101). -/
def State.sample (s : State) : Word := Memory.memRead s.mem s.pb.sar s.build.bps.toNat

/-- The trigger event, taken only while CTRL.SRT_EN = 1 and CH_EN = 1 (43 rule R320), and only if the sample's bytes
are admitted (20 rule R104): `DacWrite` of the sample, then the channel advances. -/
def State.trigStep (s : State) : Option State :=
  if s.pb.srtEn && s.pb.chEn && s.admitsSpan s.pb.sar s.build.bps.toNat then
    some { s with dac := s.dac ++ [s.sample], pb := Playback.advance s.build s.pb }
  else none

/-- The completion handler, enabled when PBST = Reload: `DONE <- 0; Start()` (43 rule R322). -/
def State.reloadStep (s : State) : Option State :=
  if s.pb.pbst = .reload then some s.start else none

end Sys2Proof.Machine
end

