-- ==== Sys2Proof/Machine/RingBuffer.lean ====
section
/-! DEFINITION. The ring-buffer commands RB_INIT, RB_ENQ, RB_DEQ, RB_LEN, RB_EMPTY (40 rules R200, R205 to R208). -/

namespace Sys2Proof.Machine

/-- The RB_INIT pseudocode on ring `r` (40 rule R200; used by SER_INIT, 41 rule R240). -/
def State.createRing (s : State) (r : RingSel) : State := s.setRing r (Ring.create (s.cap r))

/-- How many bytes RB_ENQ accepts: `min(n, C - LEN)` (40 rule R205). -/
def State.acceptCount (s : State) (r : RingSel) (n : Word) : Nat := min n.toNat (s.cap r - (s.ring r).len)

/-- How many bytes RB_DEQ removes: `min(n, LEN)` (40 rule R206). -/
def State.removeCount (s : State) (r : RingSel) (n : Word) : Nat := min n.toNat (s.ring r).len

/-- The RB_ENQ pseudocode on ring `r` with (a, n), RESULT included (40 rule R205; used by the completion of
SER_WRITE, 41 rule R242). No step when a source byte it needs is not admitted (20 rule R104). -/
def State.enqueue (s : State) (r : RingSel) (a n : Word) : Option State :=
  if a = 0 then some (s.setResult errValue)
  else if n = 0 ∨ (s.ring r).len = s.cap r then some (s.setResult 0)
  else if s.admitsSpan a (s.acceptCount r n) then
    some ((s.setRing r (Ring.pushAll (s.cap r) (s.ring r) (Memory.readSpan s.mem a (s.acceptCount r n)))).setResult
      (BitVec.ofNat 32 (s.acceptCount r n)))
  else none

/-- The RB_DEQ pseudocode on ring `r` with (a, n), RESULT included (40 rule R206). No step when a destination byte
it needs is not admitted (20 rule R104). -/
def State.dequeue (s : State) (r : RingSel) (a n : Word) : Option State :=
  if (s.ring r).len = 0 ∨ a = 0 ∨ n = 0 then some (s.setResult 0)
  else if s.admitsSpan a (s.removeCount r n) then
    some (((s.storeBytes a (Ring.takeN (s.cap r) (s.removeCount r n) (s.ring r))).setRing r
      (Ring.dropN (s.cap r) (s.removeCount r n) (s.ring r))).setResult (BitVec.ofNat 32 (s.removeCount r n)))
  else none

/-- RB_INIT (40 rule R200). -/
def execRbInit (r : RingSel) (s : State) : Host.Outcome State Fault Refusal :=
  s.issue fun s => .next (s.createRing r)

/-- RB_ENQ (40 rule R205). -/
def execRbEnq (r : RingSel) (s : State) : Host.Outcome State Fault Refusal :=
  s.issue fun s => orStuck (s.enqueue r s.opA s.opN)

/-- RB_DEQ (40 rule R206). -/
def execRbDeq (r : RingSel) (s : State) : Host.Outcome State Fault Refusal :=
  s.issue fun s => orStuck (s.dequeue r s.opA s.opN)

/-- RB_LEN (40 rule R207). -/
def execRbLen (r : RingSel) (s : State) : Host.Outcome State Fault Refusal :=
  s.issue fun s => .next (s.setResult (BitVec.ofNat 32 (s.ring r).len))

/-- RB_EMPTY (40 rule R208). -/
def execRbEmpty (r : RingSel) (s : State) : Host.Outcome State Fault Refusal :=
  s.issue fun s => .next (s.setResult (if s.empty r then 1 else 0))

end Sys2Proof.Machine
end

