-- ==== Sys2Proof/Machine/Sequencer.lean ====
section
/-! DEFINITION. The note sequencer: SEQ_PLAY, seq_advance, seq_end (44 rules R360 to R363). -/

namespace Sys2Proof.Machine

/-- Load descriptor `k` as the pending buffer and restart the transfer: `SEQ_IDX <- k; PB_SRC <- SEQ_ADDRk;
PB_CNT <- SEQ_CNTk; Start(); TICK_REF <- TICK` (44 rules R360, R362). -/
def State.playNote (s : State) (k : Fin 3) : State :=
  let t := ((s.loadBuffer (s.seq.desc k).addr (s.seq.desc k).cnt).start).markTick
  { t with seq := { t.seq with idx := k } }

/-- All three descriptors pass the buffer check (44 rule R360). -/
def State.descsValid (s : State) : Bool :=
  validDesc s.build s.seq.desc0 && validDesc s.build s.seq.desc1 && validDesc s.build s.seq.desc2

/-- SEQ_PLAY (44 rule R360). -/
def execSeqPlay (s : State) : Host.Outcome State Fault Refusal :=
  s.issue fun s =>
    .next (if s.descsValid then
        let t := s.playNote 0
        { t with seq := { t.seq with t0 := t.tmr.tick, active := true } }
      else s.raise .seqBadDesc)

/-- `TICK - SEQ_T0`, the ticks of the session so far (44 rules R361, R363). -/
def State.sessionTicks (s : State) : Word := s.tmr.tick - s.seq.t0

/-- The advance condition `adv_en` (44 rule R361): unsigned comparisons, strictly greater than the threshold. -/
def State.advanceEnabled (s : State) : Bool :=
  s.seq.active && decide (s.sessionTicks.toNat < s.seq.budget.toNat) &&
    decide (s.seq.noteTicks.toNat < s.elapsed.toNat)

/-- `(SEQ_IDX + 1) mod 3` (44 rule R362). -/
def nextNote (k : Fin 3) : Fin 3 :=
  match k with
  | 0 => 1
  | 1 => 2
  | 2 => 0

/-- seq_advance (44 rule R362): an invalid next descriptor ends the session with SEQ_BAD_DESC and leaves playback
unchanged. -/
def State.seqAdvanceStep (s : State) : Option State :=
  if s.advanceEnabled then
    some (if validDesc s.build (s.seq.desc (nextNote s.seq.idx)) then s.playNote (nextNote s.seq.idx)
      else State.raise { s with seq := { s.seq with active := false } } .seqBadDesc)
  else none

/-- seq_end (44 rule R363): the budget is used up; playback is not stopped. -/
def State.seqEndStep (s : State) : Option State :=
  if s.seq.active && decide (s.seq.budget.toNat ≤ s.sessionTicks.toNat) then
    some { s with seq := { s.seq with active := false } }
  else none

end Sys2Proof.Machine
end

