-- ==== Sys2Proof/Machine/Serial.lean ====
section
/-! DEFINITION. The serial adapter: SER_INIT, SER_WRITE, SER_READ_BYTE, the completions of the two held commands, and
the UART's events (41 rules R240 to R252). A step is an Option: none where the step is not enabled. -/

namespace Sys2Proof.Machine

/-- SER_INIT (41 rule R240). -/
def execSerInit (s : State) : Host.Outcome State Fault Refusal :=
  s.issue fun s =>
    let t := (s.createRing .rx).createRing .tx
    .next { t with ser := { t.ser with txie := false, serEn := true } }

/-- SER_WRITE, issue step (41 rule R241). -/
def execSerWrite (s : State) : Host.Outcome State Fault Refusal :=
  s.issue fun s => .next (s.hold .serWrite)

/-- SER_READ_BYTE, issue step (41 rule R243). -/
def execSerReadByte (s : State) : Host.Outcome State Fault Refusal :=
  s.issue fun s => .next (s.hold .serReadByte)

/-- SER_WRITE completion (41 rule R242): enabled when the TX ring has LATCH_N bytes free, and then RB_ENQ on TX,
`TXIE <- 1`, BUSY cleared. -/
def State.completeWrite (s : State) : Option State :=
  if s.opN.toNat ≤ s.cap .tx - s.tx.len then
    (s.enqueue .tx s.opA s.opN).map fun t => (t.setTxie true).release
  else none

/-- SER_READ_BYTE completion (41 rule R244): enabled when the RX ring is not empty. -/
def State.completeRead (s : State) : Option State :=
  if 0 < s.rx.len then
    some (((s.setRing .rx (Ring.drop (s.cap .rx) s.rx)).setResult (s.rx.head.setWidth 32)).release)
  else none

/-- The completion step of the held command, whichever is held (30 rule R144). -/
def State.completeStep (s : State) : Option State :=
  match s.port.heldOp with
  | .none => none
  | .serWrite => s.completeWrite
  | .serReadByte => s.completeRead

/-- Push onto a ring unless it is full: then the byte is dropped (41 rule R251). -/
def State.pushOrDrop (s : State) (r : RingSel) (b : Byte) : State :=
  if (s.ring r).len < s.cap r then s.setRing r (Ring.push (s.cap r) (s.ring r) b) else s

/-- The echo of a received byte, when CTRL.ECHO = 1 (41 rule R251). -/
def State.echoByte (s : State) (b : Byte) : State :=
  if s.ser.echo then (s.pushOrDrop .tx b).setTxie true else s

/-- `rx(b, err)`: a line-error byte is read and discarded (41 rule R250); a good byte is echoed first, then offered
to the RX ring (41 rule R251). -/
def State.receive (s : State) (x : RxByte) : State :=
  if x.err then s else (s.echoByte x.byte).pushOrDrop .rx x.byte

/-- The UART received a byte from its line and holds it (10 rule R61). -/
def State.arriveStep (s : State) (b : Byte) (err : Bool) : State :=
  { s with env := { s.env with uartHeld := s.env.uartHeld ++ [⟨b, err⟩] } }

/-- The block takes the `rx` event of the oldest byte the UART holds: only while SER_EN = 1 (41 rules R250, R251). -/
def State.rxStep (s : State) : Option State :=
  match s.ser.serEn, s.env.uartHeld with
  | true, x :: rest => some (State.receive { s with env := { s.env with uartHeld := rest } } x)
  | _, _ => none

/-- `tx_ready`, taken only while TXIE = 1: send one byte, or clear TXIE on an empty ring (41 rule R252). -/
def State.txReadyStep (s : State) : Option State :=
  if s.ser.txie then
    if 0 < s.tx.len then
      some { s.setRing .tx (Ring.drop (s.cap .tx) s.tx) with uartTx := s.uartTx ++ [s.tx.head] }
    else some (s.setTxie false)
  else none

end Sys2Proof.Machine
end

