-- ==== Sys2Proof/Machine/Timer.lean ====
section
/-! DEFINITION. The tick timer: TMR_INIT, TMR_NOW, TMR_MARK, TMR_ELAPSED and the tick event (42 rules R280 to
R284). -/

namespace Sys2Proof.Machine

/-- TMR_INIT: `TICK_EN <- 1` (42 rule R280). -/
def execTmrInit (s : State) : Host.Outcome State Fault Refusal :=
  s.issue fun s => .next { s with tmr := { s.tmr with tickEn := true } }

/-- TMR_NOW: `RESULT <- (TICK * TICK_SCALE) mod 2^32` (42 rule R281). -/
def execTmrNow (s : State) : Host.Outcome State Fault Refusal :=
  s.issue fun s => .next (s.setResult s.now)

/-- TMR_MARK: `TICK_REF <- TICK` (42 rule R282). -/
def execTmrMark (s : State) : Host.Outcome State Fault Refusal :=
  s.issue fun s => .next s.markTick

/-- TMR_ELAPSED: `RESULT <- (TICK - TICK_REF) mod 2^32` (42 rule R283). -/
def execTmrElapsed (s : State) : Host.Outcome State Fault Refusal :=
  s.issue fun s => .next (s.setResult s.elapsed)

/-- The tick event: `TICK <- (TICK + 1) mod 2^32`, only while TICK_EN = 1; a pulse at any other time is lost
(42 rule R284). -/
def State.tickStep (s : State) : Option State :=
  if s.tmr.tickEn then some { s with tmr := { s.tmr with tick := s.tmr.tick + 1 } } else none

end Sys2Proof.Machine
end

