-- ==== Sys2Proof/Machine/Dispatch.lean ====
section
/-! DEFINITION. One arm per command (30 rule R146). -/

namespace Sys2Proof.Machine

def exec (i : Instr) (s : State) : Host.Outcome State Fault Refusal :=
  match i with
  | .rbInit r => Sys2Proof.Machine.execRbInit r s
  | .rbEnq r => Sys2Proof.Machine.execRbEnq r s
  | .rbDeq r => Sys2Proof.Machine.execRbDeq r s
  | .rbLen r => Sys2Proof.Machine.execRbLen r s
  | .rbEmpty r => Sys2Proof.Machine.execRbEmpty r s
  | .serInit => Sys2Proof.Machine.execSerInit s
  | .serWrite => Sys2Proof.Machine.execSerWrite s
  | .serReadByte => Sys2Proof.Machine.execSerReadByte s
  | .tmrInit => Sys2Proof.Machine.execTmrInit s
  | .tmrNow => Sys2Proof.Machine.execTmrNow s
  | .tmrMark => Sys2Proof.Machine.execTmrMark s
  | .tmrElapsed => Sys2Proof.Machine.execTmrElapsed s
  | .pbLoad => Sys2Proof.Machine.execPbLoad s
  | .pbStart => Sys2Proof.Machine.execPbStart s
  | .pbStop => Sys2Proof.Machine.execPbStop s
  | .seqPlay => Sys2Proof.Machine.execSeqPlay s

end Sys2Proof.Machine
end

