-- ==== Sys2Proof/Machine/Bus.lean ====
section
/-! DEFINITION. The register map and bus accesses (10 rules R50 to R59, R67, R68, R80 to R82), and writing a command
word to CMD (30 rule R140). -/

namespace Sys2Proof.Machine

/-- The byte offset of a register (10 rule R50). -/
def Reg.offset : Reg → BitVec 8
  | .cmd => 0x00
  | .argAddr => 0x04
  | .argN => 0x08
  | .result => 0x0C
  | .status => 0x10
  | .ctrl => 0x14
  | .err => 0x18
  | .param => 0x1C
  | .rxLen => 0x20
  | .rxWidx => 0x24
  | .rxRidx => 0x28
  | .txLen => 0x2C
  | .txWidx => 0x30
  | .txRidx => 0x34
  | .tick => 0x38
  | .tickRef => 0x3C
  | .now => 0x40
  | .elapsed => 0x44
  | .pbSrc => 0x48
  | .pbCnt => 0x4C
  | .dmaSar => 0x50
  | .dmaDar => 0x54
  | .dmaBcr => 0x58
  | .seqNoteTicks => 0x5C
  | .seqBudget => 0x60
  | .seqT0 => 0x64
  | .seqAddr0 => 0x68
  | .seqCnt0 => 0x6C
  | .seqAddr1 => 0x70
  | .seqCnt1 => 0x74
  | .seqAddr2 => 0x78
  | .seqCnt2 => 0x7C

/-- Every register, in offset order (10 rule R50). -/
def allRegs : List Reg :=
  [.cmd, .argAddr, .argN, .result, .status, .ctrl, .err, .param,
   .rxLen, .rxWidx, .rxRidx, .txLen, .txWidx, .txRidx, .tick, .tickRef, .now, .elapsed,
   .pbSrc, .pbCnt, .dmaSar, .dmaDar, .dmaBcr, .seqNoteTicks, .seqBudget, .seqT0,
   .seqAddr0, .seqCnt0, .seqAddr1, .seqCnt1, .seqAddr2, .seqCnt2]

/-- The register at an offset, if one is assigned there: 0x80 to 0xFF and misaligned offsets have none
(10 rules R50, R82). -/
def Reg.ofOffset (off : BitVec 8) : Option Reg := allRegs.find? fun r => decide (r.offset = off)

/-- What a register reads as, for a readable one: CMD is write-only (10 rules R51 to R59, R67, R68). -/
def State.readReg (s : State) : Reg → Option Word
  | .cmd => none
  | .argAddr => some s.port.argAddr
  | .argN => some s.port.argN
  | .result => some s.port.result
  | .status => some s.status
  | .ctrl => some s.ctrl
  | .err => some s.errWord
  | .param => some (paramWord s.build)
  | .rxLen => some (BitVec.ofNat 32 s.rx.len)
  | .rxWidx => some (BitVec.ofNat 32 s.rx.widx)
  | .rxRidx => some (BitVec.ofNat 32 s.rx.ridx)
  | .txLen => some (BitVec.ofNat 32 s.tx.len)
  | .txWidx => some (BitVec.ofNat 32 s.tx.widx)
  | .txRidx => some (BitVec.ofNat 32 s.tx.ridx)
  | .tick => some s.tmr.tick
  | .tickRef => some s.tmr.tickRef
  | .now => some s.now
  | .elapsed => some s.elapsed
  | .pbSrc => some s.pb.pbSrc
  | .pbCnt => some s.pb.pbCnt
  | .dmaSar => some s.pb.sar
  | .dmaDar => some s.pb.dar
  | .dmaBcr => some s.pb.bcr
  | .seqNoteTicks => some s.seq.noteTicks
  | .seqBudget => some s.seq.budget
  | .seqT0 => some s.seq.t0
  | .seqAddr0 => some s.seq.desc0.addr
  | .seqCnt0 => some s.seq.desc0.cnt
  | .seqAddr1 => some s.seq.desc1.addr
  | .seqCnt1 => some s.seq.desc1.cnt
  | .seqAddr2 => some s.seq.desc2.addr
  | .seqCnt2 => some s.seq.desc2.cnt

/-- A write of CTRL: one that sets a reserved bit is refused (10 rule R55). -/
def State.writeCtrl (s : State) (w : Word) : Option State :=
  if w.extractLsb' 2 30 = 0 then
    some { s with ser := { s.ser with echo := w.getLsbD 0 }, pb := { s.pb with srtEn := w.getLsbD 1 } }
  else none

/-- A write of a register other than CMD, for a writable one and a legal word (10 rules R52, R55, R68, R81). -/
def State.writeReg (s : State) (r : Reg) (w : Word) : Option State :=
  match r with
  | .argAddr => some { s with port := { s.port with argAddr := w } }
  | .argN => some { s with port := { s.port with argN := w } }
  | .ctrl => s.writeCtrl w
  | .seqNoteTicks => some { s with seq := { s.seq with noteTicks := w } }
  | .seqBudget => some { s with seq := { s.seq with budget := w } }
  | .seqAddr0 => some { s with seq := { s.seq with desc0 := { s.seq.desc0 with addr := w } } }
  | .seqCnt0 => some { s with seq := { s.seq with desc0 := { s.seq.desc0 with cnt := w } } }
  | .seqAddr1 => some { s with seq := { s.seq with desc1 := { s.seq.desc1 with addr := w } } }
  | .seqCnt1 => some { s with seq := { s.seq with desc1 := { s.seq.desc1 with cnt := w } } }
  | .seqAddr2 => some { s with seq := { s.seq with desc2 := { s.seq.desc2 with addr := w } } }
  | .seqCnt2 => some { s with seq := { s.seq with desc2 := { s.seq.desc2 with cnt := w } } }
  | .cmd => none
  | .result => none
  | .status => none
  | .err => none
  | .param => none
  | .rxLen => none
  | .rxWidx => none
  | .rxRidx => none
  | .txLen => none
  | .txWidx => none
  | .txRidx => none
  | .tick => none
  | .tickRef => none
  | .now => none
  | .elapsed => none
  | .pbSrc => none
  | .pbCnt => none
  | .dmaSar => none
  | .dmaDar => none
  | .dmaBcr => none
  | .seqT0 => none

/-- The register a 32-bit access at an offset reaches, if any (10 rule R82: other widths and misaligned offsets
reach none). -/
def reachedReg (off : BitVec 8) (bits : Nat) : Option Reg := if bits = 32 then Reg.ofOffset off else none

/-- A bus read: the word returned, and the state after it (10 rules R80, R82). -/
def State.busRead (s : State) (off : BitVec 8) (bits : Nat) : Word × State :=
  match (reachedReg off bits).bind s.readReg with
  | some v => (v, s)
  | none => (0, s.raise .badReg)

/-- A write of word `w` to CMD (30 rule R140). The busy check comes first, for a legal word inside its meaning
(`State.issue`), for an illegal one here (60 rule R409). -/
def State.writeCmd (s : State) (w : Word) : Host.Outcome State Fault Refusal :=
  match decode w with
  | .ok i => exec i s
  | .error _ => .next (s.raise (if s.port.busy then .cmdWhileBusy else .illegalCmd))

/-- A bus write (10 rules R81, R82). -/
def State.busWrite (s : State) (off : BitVec 8) (bits : Nat) (w : Word) : Host.Outcome State Fault Refusal :=
  match reachedReg off bits with
  | some .cmd => s.writeCmd w
  | some r => .next ((s.writeReg r w).getD (s.raise .badReg))
  | none => .next (s.raise .badReg)

/-- Where a bus access falls in the block's window, BASE to BASE + 0xFF, if it does (20 rule R100). DESIGN CHOICE (log
entry 8): for BASE > 0xFFFFFF00 the window wraps modulo 2^32; spec/ does not say where it then lies. -/
def windowOffset (b : Build) : BusTarget → Option (BitVec 8)
  | .offset off => some off
  | .address a => if (a - b.base).toNat < 256 then some ((a - b.base).setWidth 8) else none

end Sys2Proof.Machine
end

