-- ==== Sys2Proof/Machine/Agents.lean ====
section
/-! DEFINITION. The agents and their steps (00 rule R5, 30 rule R149, 60 rule R406): the HOST's accesses, the UART's,
tick and trigger events, BLOCK's internal steps, reset. Each turn is one atomic step (20 rule R106). -/

namespace Sys2Proof.Machine

/-- The HOST's program moves past an access. -/
def State.setHost (s : State) (ops : List HostOp) : State := { s with env := { s.env with host := ops } }

/-- The HOST gets a word back. -/
def State.recordRead (s : State) (v : Word) : State :=
  { s with env := { s.env with hostReads := s.env.hostReads ++ [v] } }

/-- One free value has been drawn. -/
def State.countDraw (s : State) : State := { s with env := { s.env with draws := s.env.draws + 1 } }

/-- A HOST bus read: of the block, or of an address that is not the block's (free value, log entry 8). -/
def State.hostRead (s : State) (target : BusTarget) (bits : Nat) : State :=
  match windowOffset s.build target with
  | some off => (s.busRead off bits).2.recordRead (s.busRead off bits).1
  | none => s.countDraw.recordRead (Config.foreignRead s.env.draws)

/-- A HOST bus write: of the block, or of an address that is not the block's, which the block does not see. -/
def State.hostWrite (s : State) (target : BusTarget) (bits : Nat) (w : Word) : Host.Outcome State Fault Refusal :=
  match windowOffset s.build target with
  | some off => s.busWrite off bits w
  | none => .next s

/-- One access of the HOST, made in a state whose program has moved past it (10 rules R80 to R82, 20 rule R111,
30 rule R160). DESIGN CHOICE (log entry 15): an access to memory moves any number n of bytes in one step; past 4 bytes a
read keeps the low 32 bits of the value and a write stores zeros above its word. DEDUCED (log entry 13): `mem_admits`
does not limit it, and its addresses wrap modulo 2^32. -/
def State.hostAccess (s : State) : HostOp → Host.Outcome State Fault Refusal
  | .read target bits => .next (s.hostRead target bits)
  | .write target bits w => s.hostWrite target bits w
  | .memRead a n => .next (s.recordRead (Memory.memRead s.mem a n))
  | .memWrite a n v => .next { s with mem := Memory.memWrite s.mem a n v }
  | .waitnb =>
    .next (if s.port.busy then (s.recordRead s.status).setHost (.waitnb :: s.env.host) else s.recordRead s.status)

/-- The HOST's turn. An access that has no step (20 rule R104) leaves the HOST stuck at it, and no state changes. -/
def State.hostTurn (s : State) : Host.Outcome State Fault Refusal :=
  match s.env.host with
  | [] => .next s
  | op :: rest =>
    match State.hostAccess (s.setHost rest) op with
    | .next t => .next t
    | .fault _ => .next s
    | .refused r => .refused r

/-- Reset: every block element to its reset value, both traces emptied; system memory, the UART and the build are
untouched (70 rule R450). DESIGN CHOICE (log entry 16): State holds no level of the reset input (10 rule R66), so any
other turn may come next. -/
def State.resetStep (s : State) : State := State.resetWith s.build s.mem s.env

/-- The step an agent other than HOST takes, if it is enabled (30 rule R149). -/
def State.agentStep (s : State) : Turn → Option State
  | .host => none
  | .arrive b err => some (s.arriveStep b err)
  | .rx => s.rxStep
  | .txReady => s.txReadyStep
  | .tick => s.tickStep
  | .trig => s.trigStep
  | .complete => s.completeStep
  | .reload => s.reloadStep
  | .seqAdvance => s.seqAdvanceStep
  | .seqEnd => s.seqEndStep
  | .reset => some s.resetStep

/-- Whether an agent's step is enabled (30 rule R149); the HOST's always is. -/
def State.enabled (s : State) (a : Turn) : Bool := a = .host ∨ (s.agentStep a).isSome

/-- One turn. A turn whose step is not enabled is not taken: nothing changes (43 rule R320, 42 rule R284,
20 rule R104). -/
def State.takeTurn (s : State) (a : Turn) : Host.Outcome State Fault Refusal :=
  match a with
  | .host => s.hostTurn
  | a => .next ((s.agentStep a).getD s)

/-- Whose turn is next: the schedule's head, or a free value when it is used up (60 rule R408, log entry 3). -/
def State.nextTurn (s : State) : Turn :=
  match s.env.sched with
  | a :: _ => a
  | [] => Config.nextTurn s.env.draws

/-- The state once the next turn has been chosen. -/
def State.afterChoice (s : State) : State :=
  match s.env.sched with
  | _ :: rest => { s with env := { s.env with sched := rest } }
  | [] => s.countDraw

end Sys2Proof.Machine
end

