-- ==== Sys2Proof/Machine/Step.lean ====
section
/-! DEFINITION. One step of the machine: choose who moves, and let it move (00 rule R5, 60 rule R408). -/

namespace Sys2Proof.Machine

/-- One atomic step of one agent (20 rule R106). -/
def step (s : State) : Host.Outcome State Fault Refusal := s.afterChoice.takeTurn s.nextTurn

/-- The state whose next step is the HOST writing the command word `w` to CMD: commands arrive as bus writes to CMD
(10 rule R31, 30 rule R140; log entry 4). -/
def State.withFetchWord (s : State) (nbits w : Nat) : State :=
  { s with env := { s.env with
      sched := .host :: s.env.sched
      host := .write (.offset 0x00) 32 (BitVec.ofNat 32 (w % 2 ^ nbits)) :: s.env.host } }

end Sys2Proof.Machine
end

