-- ==== Sys2Proof/Machine/Program.lean ====
section
/-! DEFINITION. Host programs as spec/ writes them: the items of 30 rule R160, the pseudo-instructions of
30 rule R161, and how a program comes to stand in State (log entry 4). -/

namespace Sys2Proof.Machine

/-- One line of a host program (30 rule R160). A comment is no item. -/
inductive Item where
  /-- `wr REG, v`. -/
  | wr (r : Reg) (v : Word)
  /-- `rd REG`. -/
  | rd (r : Reg)
  /-- `cmd MNEMONIC[.rx|.tx]`. -/
  | cmd (t : CmdText)
  /-- `waitnb`. -/
  | waitnb
  /-- `@rx b`. -/
  | rx (b : Byte)
  /-- `@rxerr b`. -/
  | rxerr (b : Byte)
  /-- `@txrdy`. -/
  | txrdy
  /-- `@tick`. -/
  | tick
  /-- `@trig`. -/
  | trig
  /-- `@cmpl`. -/
  | cmpl
  /-- `@reload`. -/
  | reload
  /-- `@seq`. -/
  | seq
  /-- `@seqend`. -/
  | seqend
  deriving DecidableEq, Repr

/-- The HOST's accesses of an item; none for a `cmd` whose text is no command (30 rule R160). -/
def Item.accesses : Item → Option (List HostOp)
  | .wr r v => some [.write (.offset r.offset) 32 v]
  | .rd r => some [.read (.offset r.offset) 32]
  | .cmd t => t.command.map fun i => [.write (.offset Reg.cmd.offset) 32 (encode i)]
  | .waitnb => some [.waitnb]
  | .rx _ => some []
  | .rxerr _ => some []
  | .txrdy => some []
  | .tick => some []
  | .trig => some []
  | .cmpl => some []
  | .reload => some []
  | .seq => some []
  | .seqend => some []

/-- The turns an item takes, `waitnb` on its last poll (30 rules R149, R160). -/
def Item.turns : Item → List Turn
  | .wr _ _ => [.host]
  | .rd _ => [.host]
  | .cmd _ => [.host]
  | .waitnb => [.host]
  | .rx b => [.arrive b false, .rx]
  | .rxerr b => [.arrive b true, .rx]
  | .txrdy => [.txReady]
  | .tick => [.tick]
  | .trig => [.trig]
  | .cmpl => [.complete]
  | .reload => [.reload]
  | .seq => [.seqAdvance]
  | .seqend => [.seqEnd]

/-- The accesses of a whole program. -/
def programAccesses : List Item → Option (List HostOp)
  | [] => some []
  | i :: rest =>
    match i.accesses, programAccesses rest with
    | some ops, some more => some (ops ++ more)
    | _, _ => none

/-- The turns of a whole program. -/
def programTurns (items : List Item) : List Turn := items.flatMap Item.turns

/-- Place a program before whatever the HOST and the schedule already hold. -/
def State.loadProgram (s : State) (items : List Item) : Option State :=
  (programAccesses items).map fun ops =>
    { s with env := { s.env with host := ops ++ s.env.host, sched := programTurns items ++ s.env.sched } }

/-- The pseudo-instructions (30 rule R161). -/
inductive Pseudo where
  /-- `rb.enq.R a, n`. -/
  | rbEnq (r : RingSel) (a n : Word)
  /-- `rb.deq.R a, n`. -/
  | rbDeq (r : RingSel) (a n : Word)
  /-- `ser.write a, n`. -/
  | serWrite (a n : Word)
  /-- `ser.getc`. -/
  | serGetc
  /-- `pb.load a, n`. -/
  | pbLoad (a n : Word)
  /-- `seq.desc k, a, n`. -/
  | seqDesc (k : Fin 3) (a n : Word)
  deriving DecidableEq, Repr

/-- SEQ_ADDRk (10 rule R50). -/
def seqAddrReg (k : Fin 3) : Reg :=
  match k with
  | 0 => .seqAddr0
  | 1 => .seqAddr1
  | 2 => .seqAddr2

/-- SEQ_CNTk (10 rule R50). -/
def seqCntReg (k : Fin 3) : Reg :=
  match k with
  | 0 => .seqCnt0
  | 1 => .seqCnt1
  | 2 => .seqCnt2

/-- The expansion of a pseudo-instruction; nothing is atomic across its lines (30 rule R161). -/
def Pseudo.expand : Pseudo → List Item
  | .rbEnq r a n => [.wr .argAddr a, .wr .argN n, .cmd ⟨"RB_ENQ", some r⟩]
  | .rbDeq r a n => [.wr .argAddr a, .wr .argN n, .cmd ⟨"RB_DEQ", some r⟩]
  | .serWrite a n => [.wr .argAddr a, .wr .argN n, .cmd ⟨"SER_WRITE", none⟩, .waitnb]
  | .serGetc => [.cmd ⟨"SER_READ_BYTE", none⟩, .waitnb, .rd .result]
  | .pbLoad a n => [.wr .argAddr a, .wr .argN n, .cmd ⟨"PB_LOAD", none⟩]
  | .seqDesc k a n => [.wr (seqAddrReg k) a, .wr (seqCntReg k) n]

end Sys2Proof.Machine
end

