-- ==== Sys2Proof/Safety.lean ====
section
/-! DEFINITION. What claims speak of: a ring's contents, the invariant of the machine's state (10 rules R33, R35, R39,
R67; 43 rule R323), which register images and faults a claim may assume, and weak fairness (60 rule R417). -/

namespace Sys2Proof.Machine

/-- The FIFO's contents, oldest first: `store[(RIDX + j) mod C]` for 0 ≤ j < LEN (10 rule R33). -/
def Ring.contents (cap : Nat) (r : Ring) : List Byte :=
  (List.range r.len).map fun j => r.store.getD ((r.ridx + j) % cap) 0

/-- The contents of ring `r` of a state. -/
def State.contents (s : State) (r : RingSel) : List Byte := Ring.contents (s.cap r) (s.ring r)

/-- The invariant of a ring (10 rules R32, R33). -/
abbrev Ring.Wf (cap : Nat) (r : Ring) : Prop :=
  r.store.length = cap ∧ r.ridx < cap ∧ r.len ≤ cap ∧ r.widx = (r.ridx + r.len) % cap

/-- BUSY = 1 exactly while a command is held (10 rule R35). -/
abbrev Port.Wf (p : Port) : Prop := p.busy = true ↔ p.heldOp ≠ .none

/-- The relations of 10 rule R39 between PBST and CH_EN, DONE, BCR. -/
abbrev Playback.StateWf (p : Playback) : Prop :=
  (p.pbst = .idle → p.chEn = false ∧ p.done = false) ∧
  (p.pbst = .armed → p.chEn = true ∧ p.done = false ∧ 0 < p.bcr.toNat) ∧
  (p.pbst = .streaming → p.chEn = true ∧ p.done = false ∧ 0 < p.bcr.toNat) ∧
  (p.pbst = .reload → p.chEn = false ∧ p.done = true ∧ p.bcr = 0)

/-- The pending buffer is valid unless none was ever loaded (43 rule R323). -/
abbrev Playback.PendingWf (b : Build) (p : Playback) : Prop :=
  (p.pbCnt ≠ 0 → validBuffer b p.pbSrc p.pbCnt = true) ∧ (p.pbst ≠ .idle → p.pbCnt ≠ 0)

/-- The active transfer is aligned, a whole number of samples, and inside the address space (20 rule R103 (c),
43 rule R320). -/
abbrev Playback.ActiveWf (b : Build) (p : Playback) : Prop :=
  p.chEn = true → p.sar.toNat % b.bps.toNat = 0 ∧ p.bcr.toNat % b.bps.toNat = 0 ∧
    p.sar.toNat + p.bcr.toNat ≤ 2 ^ 32

/-- DAR is 0 until the first start, and DAC_ADDR after it (10 rule R67). -/
abbrev Playback.DarWf (b : Build) (p : Playback) : Prop :=
  (p.dar = 0 ∨ p.dar = b.dacAddr) ∧ (p.pbst ≠ .idle → p.dar = b.dacAddr)

/-- CAUSE is 0 while FAULT = 0, and one of the five assigned codes after a fault (10 rule R56, 60 rule R402). -/
abbrev Err.Wf (e : Err) : Prop :=
  (e.fault = false → e.cause = 0) ∧ (e.fault = true → 1 ≤ e.cause.toNat ∧ e.cause.toNat ≤ 5)

/-- Every value of the dac trace is a BPS-byte value (10 rule R42). -/
abbrev State.DacWf (s : State) : Prop := ∀ v ∈ s.dac, v.toNat < 256 ^ s.build.bps.toNat

/-- The invariant of the machine's state: it holds at reset and every step keeps it. -/
structure State.Inv (s : State) : Prop where
  rx : Ring.Wf (s.cap .rx) s.rx
  tx : Ring.Wf (s.cap .tx) s.tx
  port : Port.Wf s.port
  pbState : Playback.StateWf s.pb
  pbPending : Playback.PendingWf s.build s.pb
  pbActive : Playback.ActiveWf s.build s.pb
  pbDar : Playback.DarWf s.build s.pb
  seqPlaying : s.seq.active = true → s.pb.pbst ≠ .idle
  err : Err.Wf s.err
  mem : Memory.wf s.mem = true
  dac : State.DacWf s

/-- No fault since reset: a state with ERR.FAULT = 1 is faulted (60 rule R405). -/
abbrev State.Unfaulted (s : State) : Prop := s.err.fault = false

/-- A claim in the sense of 60 rule R405: it takes ERR.FAULT = 0 as a premise. A property of every state is a claim
too, and the stronger one (log entry 17; `Claim.of_forall`). -/
def Claim (P : State → Prop) : Prop := ∀ s, s.Unfaulted → P s

/-- Every value the DAC was given lies in its range [0, 2^DAC_BITS - 1] (00 rule R6, 93 I9): the block does not
check it. -/
abbrev State.DacInRange (s : State) : Prop := ∀ v ∈ s.dac, v.toNat < 2 ^ s.build.dacBits

/-- BLOCK's own steps, the ones fairness speaks of (60 rule R417). -/
abbrev IsBlockTurn (a : Turn) : Prop := a = .complete ∨ a = .reload ∨ a = .seqAdvance ∨ a = .seqEnd

/-- An infinite run of the machine. -/
def IsRun (run : Nat → State) : Prop := ∀ k, step (run k) = .next (run (k + 1))

/-- Weak fairness for BLOCK steps (60 rule R417): one that stays enabled from some point on is taken at or after
it. The turn taken at `run k` is its `nextTurn`. -/
def WeaklyFair (run : Nat → State) : Prop :=
  ∀ a : Turn, IsBlockTurn a → ∀ k, (∀ m, k ≤ m → (run m).enabled a = true) → ∃ m, k ≤ m ∧ (run m).nextTurn = a

/-- The states a sequence of turns of agents other than HOST goes through: the last one. -/
def State.takeTurns : State → List Turn → State
  | s, [] => s
  | s, a :: rest => State.takeTurns ((s.agentStep a).getD s) rest

/-- A word is a legal command word (30 rule R146, "Decode"). -/
abbrev LegalWord (w : Word) : Prop :=
  w.extractLsb' 9 23 = 0 ∧
    (w.extractLsb' 0 8 ∈ [0x10#8, 0x11#8, 0x12#8, 0x13#8, 0x14#8] ∨
      (w.extractLsb' 0 8 ∈ [0x20#8, 0x21#8, 0x22#8, 0x30#8, 0x31#8, 0x32#8, 0x33#8, 0x40#8, 0x41#8, 0x42#8, 0x50#8] ∧
        w.getLsbD 8 = false))

/-- The port once a command has been issued: both latches taken (30 rule R140). -/
abbrev State.latchedPort (s : State) : Port :=
  { s.port with latchAddr := s.port.argAddr, latchN := s.port.argN }

/-- ERR once a fault of the given code has been taken (60 rule R403). -/
abbrev Err.record (e : Err) (code : BitVec 8) : Err :=
  { fault := true, cause := if e.fault then e.cause else code }

/-- The HOST's next access writes the word of command `i` to CMD. -/
def State.Issues (s : State) (i : Instr) : Prop :=
  ∃ target w rest, s.env.host = .write target 32 w :: rest ∧ windowOffset s.build target = some 0 ∧ decode w = .ok i

/-- The next step is one that may write TICK_REF (42 rule R282; 44 rules R360, R362; 10 rule R70): reset, an enabled
seq_advance, or a TMR_MARK or SEQ_PLAY that the busy check lets through. -/
def State.Marks (s : State) : Prop :=
  s.nextTurn = .reset ∨ (s.nextTurn = .seqAdvance ∧ s.enabled .seqAdvance = true) ∨
    (s.nextTurn = .host ∧ s.port.busy = false ∧ (s.Issues .tmrMark ∨ s.Issues .seqPlay))

/-- Change the state a step answers. -/
def mapNext (f : State → State) : Host.Outcome State Fault Refusal → Host.Outcome State Fault Refusal
  | .next t => .next (f t)
  | .fault r => .fault r
  | .refused r => .refused r

end Sys2Proof.Machine
end

