-- ==== Sys2Proof/Certificates/Slice0/Obligations.lean ====
section
/-! DEFINITION. The statements about the RBS block, from the numbered rules of spec/, for the provers. -/

open Sys2Proof Sys2Proof.Machine

/-! ### Command words (30_encoding.md) -/

/-- 30 rules R143, R146: "A decoder for this spec accepts exactly the words of rule R146", each as the command it
encodes. -/
def Obligations.DecodeAcceptsExactlyEncodings : Prop :=
  ∀ (w : Word) (i : Instr), decode w = .ok i ↔ w = encode i

/-- 30 rule R146, "Decode": which words are legal. -/
def Obligations.LegalWordsAreThoseOfRuleR146 : Prop :=
  ∀ w : Word, (∃ i, decode w = .ok i) ↔ LegalWord w

/-- 30 rule R162: the encoding examples. -/
def Obligations.EncodingExamples : Prop :=
  encode (.rbEnq .tx) = 0x00000111 ∧ decode 0x00000111 = .ok (.rbEnq .tx) ∧
  encode (.rbDeq .rx) = 0x00000012 ∧ decode 0x00000012 = .ok (.rbDeq .rx) ∧
  encode .serWrite = 0x00000021 ∧ decode 0x00000021 = .ok .serWrite ∧
  decode 0x00000121 = .error .ringSelectNotAllowed ∧
  decode 0x00010011 = .error .reservedBitsSet ∧
  decode 0x00000000 = .error .reservedUnit

/-- 30 rule R147: every unlisted word raises ILLEGAL_CMD (code 0x01) and has no other effect. -/
def Obligations.IllegalWordRaisesIllegalCmd : Prop :=
  ∀ (s : State) (w : Word), ¬ LegalWord w → s.port.busy = false →
    s.busWrite 0x00 32 w = .next { s with err := s.err.record 0x01 }

/-- 30 rule R140, 60 rule R409: with BUSY = 1 any word written to CMD, legal or not, raises CMD_WHILE_BUSY
(code 0x02) and has no other effect. -/
def Obligations.CommandWhileBusyFaults : Prop :=
  ∀ (s : State) (w : Word), s.port.busy = true →
    s.busWrite 0x00 32 w = .next { s with err := s.err.record 0x02 }

/-! ### The step and the bus (10_state.md) -/

/-- When the HOST is next and its next access writes a legal word to CMD, the step runs that word's command in the
state whose schedule and program have moved past it; a command that has no step leaves the HOST at its access
(10 rule R81, 20 rule R104). The model's own choices: whose turn comes (log entry 3), where the window lies for BASE >
0xFFFFFF00 (log entry 8), and that the stuck HOST tries its access again (log entry 10). -/
def Obligations.StepRunsDecodedCommand : Prop :=
  ∀ (s : State) (target : BusTarget) (w : Word) (ops : List HostOp) (i : Instr),
    s.nextTurn = .host → s.env.host = .write target 32 w :: ops →
    windowOffset s.build target = some 0 → decode w = .ok i →
    step s = (match exec i (s.afterChoice.setHost ops) with
      | .next t => .next t
      | .fault _ => .next s.afterChoice
      | .refused r => .refused r)

/-- Whose turn comes (log entry 3), and what a step does with it: a turn of an agent other than HOST is that agent's
step, or nothing where it is not enabled; a HOST bus access in the block's window is that read or write; a HOST with no
access left does nothing (10 rules R80, R81; 30 rule R149; 60 rule R408). The model's own choices besides: the word a
read returns is recorded (log entry 6); the window wraps modulo 2^32 for BASE > 0xFFFFFF00 (log entry 8); a write whose
command has no step leaves the HOST at that access (20 rule R104, log entry 10). -/
def Obligations.StepTakesOneTurn : Prop :=
  ∀ s : State,
    (∀ a turns, s.env.sched = a :: turns →
      s.nextTurn = a ∧ s.afterChoice = { s with env := { s.env with sched := turns } }) ∧
    (s.env.sched = [] →
      s.nextTurn = Config.nextTurn s.env.draws ∧
        s.afterChoice = { s with env := { s.env with draws := s.env.draws + 1 } }) ∧
    (s.nextTurn ≠ .host → step s = .next ((s.afterChoice.agentStep s.nextTurn).getD s.afterChoice)) ∧
    (s.nextTurn = .host → s.env.host = [] → step s = .next s.afterChoice) ∧
    (∀ target off bits ops, s.nextTurn = .host → s.env.host = .read target bits :: ops →
      windowOffset s.build target = some off →
      step s = .next (((s.afterChoice.setHost ops).busRead off bits).2.recordRead
        ((s.afterChoice.setHost ops).busRead off bits).1)) ∧
    (∀ target off bits w ops, s.nextTurn = .host → s.env.host = .write target bits w :: ops →
      windowOffset s.build target = some off →
      step s = (match (s.afterChoice.setHost ops).busWrite off bits w with
        | .next t => .next t
        | .fault _ => .next s.afterChoice
        | .refused r => .refused r))

/-- 20 rules R101, R111: the HOST's accesses to its memory between the block's steps are little-endian; a write changes
those bytes only, a read changes nothing. The model's own choices: `mem_admits` does not limit these accesses and their
addresses wrap modulo 2^32 (log entry 13); one access moves n bytes, here n ≤ 4 (log entry 15); what a read returns is
recorded (log entry 6); whose turn comes is log entry 3. -/
def Obligations.HostMemoryAccesses : Prop :=
  ∀ (s : State) (a : Word) (n : Nat) (ops : List HostOp), s.nextTurn = .host → n ≤ 4 →
    (∀ v : Word, s.env.host = .memWrite a n v :: ops → s.mem.wf = true →
      ∃ m : Memory, step s = .next { s.afterChoice.setHost ops with mem := m } ∧ m.wf = true ∧
        (∀ j, j < n → Memory.read m (a + BitVec.ofNat 32 j) = v.extractLsb' (8 * j) 8) ∧
        (∀ x : Word, (∀ j, j < n → x ≠ a + BitVec.ofNat 32 j) → Memory.read m x = Memory.read s.mem x)) ∧
    (s.env.host = .memRead a n :: ops →
      ∃ v : Word, step s = .next ((s.afterChoice.setHost ops).recordRead v) ∧
        v.toNat = ((Finset.range n).sum fun j => (Memory.read s.mem (a + BitVec.ofNat 32 j)).toNat * 2 ^ (8 * j)))

/-- 10 rules R52, R53, R57, R59, R67, R68, R80: what each readable register returns, at its offset, with no state
change; STATUS, CTRL, ERR and PARAM are in StatusShowsLiveState, CtrlAndErrShowTheirFields and ParamShowsTheBuild. -/
def Obligations.RegisterReads : Prop :=
  ∀ s : State,
    s.busRead 0x04 32 = (s.port.argAddr, s) ∧ s.busRead 0x08 32 = (s.port.argN, s) ∧
    s.busRead 0x0C 32 = (s.port.result, s) ∧
    s.busRead 0x20 32 = (BitVec.ofNat 32 s.rx.len, s) ∧ s.busRead 0x24 32 = (BitVec.ofNat 32 s.rx.widx, s) ∧
    s.busRead 0x28 32 = (BitVec.ofNat 32 s.rx.ridx, s) ∧ s.busRead 0x2C 32 = (BitVec.ofNat 32 s.tx.len, s) ∧
    s.busRead 0x30 32 = (BitVec.ofNat 32 s.tx.widx, s) ∧ s.busRead 0x34 32 = (BitVec.ofNat 32 s.tx.ridx, s) ∧
    s.busRead 0x38 32 = (s.tmr.tick, s) ∧ s.busRead 0x3C 32 = (s.tmr.tickRef, s) ∧
    s.busRead 0x40 32 = (s.tmr.tick * s.build.tickScale, s) ∧
    s.busRead 0x44 32 = (s.tmr.tick - s.tmr.tickRef, s) ∧
    s.busRead 0x48 32 = (s.pb.pbSrc, s) ∧ s.busRead 0x4C 32 = (s.pb.pbCnt, s) ∧
    s.busRead 0x50 32 = (s.pb.sar, s) ∧ s.busRead 0x54 32 = (s.pb.dar, s) ∧ s.busRead 0x58 32 = (s.pb.bcr, s) ∧
    s.busRead 0x5C 32 = (s.seq.noteTicks, s) ∧ s.busRead 0x60 32 = (s.seq.budget, s) ∧
    s.busRead 0x64 32 = (s.seq.t0, s) ∧
    s.busRead 0x68 32 = (s.seq.desc0.addr, s) ∧ s.busRead 0x6C 32 = (s.seq.desc0.cnt, s) ∧
    s.busRead 0x70 32 = (s.seq.desc1.addr, s) ∧ s.busRead 0x74 32 = (s.seq.desc1.cnt, s) ∧
    s.busRead 0x78 32 = (s.seq.desc2.addr, s) ∧ s.busRead 0x7C 32 = (s.seq.desc2.cnt, s)

/-- 10 rule R81, with the CTRL rule of R55: what each writable register takes. -/
def Obligations.RegisterWrites : Prop :=
  ∀ (s : State) (w : Word),
    s.busWrite 0x00 32 w = s.writeCmd w ∧
    s.busWrite 0x04 32 w = .next { s with port := { s.port with argAddr := w } } ∧
    s.busWrite 0x08 32 w = .next { s with port := { s.port with argN := w } } ∧
    (w.toNat < 4 → s.busWrite 0x14 32 w = .next { s with
      ser := { s.ser with echo := w.getLsbD 0 }, pb := { s.pb with srtEn := w.getLsbD 1 } }) ∧
    (4 ≤ w.toNat → s.busWrite 0x14 32 w = .next { s with err := s.err.record 0x03 }) ∧
    s.busWrite 0x5C 32 w = .next { s with seq := { s.seq with noteTicks := w } } ∧
    s.busWrite 0x60 32 w = .next { s with seq := { s.seq with budget := w } } ∧
    s.busWrite 0x68 32 w = .next { s with seq := { s.seq with desc0 := { s.seq.desc0 with addr := w } } } ∧
    s.busWrite 0x6C 32 w = .next { s with seq := { s.seq with desc0 := { s.seq.desc0 with cnt := w } } } ∧
    s.busWrite 0x70 32 w = .next { s with seq := { s.seq with desc1 := { s.seq.desc1 with addr := w } } } ∧
    s.busWrite 0x74 32 w = .next { s with seq := { s.seq with desc1 := { s.seq.desc1 with cnt := w } } } ∧
    s.busWrite 0x78 32 w = .next { s with seq := { s.seq with desc2 := { s.seq.desc2 with addr := w } } } ∧
    s.busWrite 0x7C 32 w = .next { s with seq := { s.seq with desc2 := { s.seq.desc2 with cnt := w } } }

/-- 10 rule R82: the five classes of access that raise BAD_REG (code 0x03); a faulting read returns 0 and a faulting
write changes no register. -/
def Obligations.BadAccessesRaiseBadReg : Prop :=
  ∀ (s : State) (off : BitVec 8) (bits : Nat) (w : Word),
    (0x80 ≤ off.toNat ∨ off.toNat % 4 ≠ 0 ∨ bits ≠ 32 →
      s.busRead off bits = (0, { s with err := s.err.record 0x03 }) ∧
      s.busWrite off bits w = .next { s with err := s.err.record 0x03 }) ∧
    (off ∈ [0x0C#8, 0x10#8, 0x18#8, 0x1C#8, 0x20#8, 0x24#8, 0x28#8, 0x2C#8, 0x30#8, 0x34#8, 0x38#8, 0x3C#8, 0x40#8,
        0x44#8, 0x48#8, 0x4C#8, 0x50#8, 0x54#8, 0x58#8, 0x64#8] →
      s.busWrite off bits w = .next { s with err := s.err.record 0x03 }) ∧
    s.busRead 0x00 bits = (0, { s with err := s.err.record 0x03 }) ∧
    (w.extractLsb' 2 30 ≠ 0 → s.busWrite 0x14 bits w = .next { s with err := s.err.record 0x03 })

/-- 10 rule R54: the STATUS register, field by field; its reset image; EMPTY and FULL of one ring are never
both 1. -/
def Obligations.StatusShowsLiveState : Prop :=
  (∀ s : State, ∃ v, s.busRead 0x10 32 = (v, s) ∧
    v.getLsbD 0 = s.port.busy ∧
    v.getLsbD 1 = decide (s.rx.len = 0) ∧ v.getLsbD 2 = decide (s.rx.len = s.cap .rx) ∧
    v.getLsbD 3 = decide (s.tx.len = 0) ∧ v.getLsbD 4 = decide (s.tx.len = s.cap .tx) ∧
    v.getLsbD 5 = s.ser.txie ∧ v.getLsbD 6 = s.ser.serEn ∧ v.getLsbD 7 = s.tmr.tickEn ∧
    v.extractLsb' 8 2 = (match s.pb.pbst with
      | .idle => 0#2
      | .armed => 1#2
      | .streaming => 2#2
      | .reload => 3#2) ∧
    v.getLsbD 10 = s.pb.chEn ∧ v.getLsbD 11 = s.pb.done ∧ v.getLsbD 12 = s.seq.active ∧
    v.extractLsb' 13 2 = BitVec.ofNat 2 s.seq.idx.val ∧ v.getLsbD 15 = s.err.fault ∧ v.extractLsb' 16 16 = 0) ∧
  (∀ (b : Build) (m : Memory) (e : Env), ((State.resetWith b m e).busRead 0x10 32).1 = 0x0000000A) ∧
  (∀ (s : State) (r : RingSel), Ring.Wf (s.cap r) (s.ring r) → ¬ ((s.ring r).len = 0 ∧ (s.ring r).len = s.cap r))

/-- 10 rules R55, R56: what CTRL and ERR read as, and that CAUSE reads 0 while FAULT = 0 (under the invariant). -/
def Obligations.CtrlAndErrShowTheirFields : Prop :=
  ∀ s : State, ∃ c e, s.busRead 0x14 32 = (c, s) ∧ s.busRead 0x18 32 = (e, s) ∧
    c.getLsbD 0 = s.ser.echo ∧ c.getLsbD 1 = s.pb.srtEn ∧ c.extractLsb' 2 30 = 0 ∧
    e.getLsbD 0 = s.err.fault ∧ e.extractLsb' 1 7 = 0 ∧ e.extractLsb' 8 8 = s.err.cause ∧ e.extractLsb' 16 16 = 0 ∧
    (s.Inv → s.err.fault = false → e = 0)

/-- 10 rule R58: the PARAM register, field by field; its image for the default build; it depends on the build alone,
which no step changes. -/
def Obligations.ParamShowsTheBuild : Prop :=
  (∀ s : State, ∃ v, s.busRead 0x1C 32 = (v, s) ∧
    (v.extractLsb' 0 5).toNat = s.build.kRx.val ∧ v.extractLsb' 5 3 = 0 ∧
    (v.extractLsb' 8 5).toNat = s.build.kTx.val ∧ v.extractLsb' 13 3 = 0 ∧
    (v.extractLsb' 16 3).toNat = s.build.bps.toNat ∧ v.extractLsb' 19 5 = 0 ∧ v.extractLsb' 24 8 = 0x01 ∧
    (∀ t : State, t.build = s.build → t.busRead 0x1C 32 = (v, t))) ∧
  (∀ s : State, s.build.kRx = 8 → s.build.kTx = 8 → s.build.bps = .two → (s.busRead 0x1C 32).1 = 0x01020808) ∧
  (∀ s t : State, step s = .next t → t.build = s.build)

/-! ### Faults (60_exceptions.md) -/

/-- 60 rules R403, R405: the first CAUSE is kept and FAULT is sticky: only reset clears ERR. So a run without reset
whose last state has ERR.FAULT = 0 had it in every state: the premise that R405 asks of a claim reaches back over the
run. -/
def Obligations.FirstFaultIsKeptUntilReset : Prop :=
  (∀ s t : State, step s = .next t → s.nextTurn ≠ .reset → s.err.fault = true → t.err = s.err) ∧
  (∀ (run : Nat → State) (n : Nat), (∀ k, k < n → step (run k) = .next (run (k + 1)) ∧ (run k).nextTurn ≠ .reset) →
    (run n).Unfaulted → ∀ k, k ≤ n → (run k).Unfaulted)

/-- 60 rule R404: a faulting command or sequencer advance changes nothing but ERR, the hidden latches (log entry 7)
and, for the advance, SEQ_ACTIVE. -/
def Obligations.FaultsArePrecise : Prop :=
  ∀ s t : State, s.Unfaulted → t.err.fault = true →
    (∀ i : Instr, exec i s = .next t →
      t = { s with
        port := { s.port with latchAddr := t.port.latchAddr, latchN := t.port.latchN }
        err := t.err }) ∧
    (s.agentStep .seqAdvance = some t →
      t = { s with seq := { s.seq with active := false }, err := { fault := true, cause := 0x05 } })

/-! ### Ring buffers (40_ringbuffer.md) -/

/-- 40 rule R200: RB_INIT zero-fills the store of its ring and sets its indices and length to 0; nothing else
changes but the latches. -/
def Obligations.RbInitCreatesItsRing : Prop :=
  ∀ s : State, s.port.busy = false →
    exec (.rbInit .rx) s = .next { s with
      port := s.latchedPort
      rx := { store := List.replicate (2 ^ s.build.kRx.val) 0, widx := 0, ridx := 0, len := 0 } } ∧
    exec (.rbInit .tx) s = .next { s with
      port := s.latchedPort
      tx := { store := List.replicate (2 ^ s.build.kTx.val) 0, widx := 0, ridx := 0, len := 0 } }

/-- 40 rule R205: RB_ENQ accepts k = min(n, C - LEN) bytes from a, a+1, ... (modulo 2^32), appends them to the ring's
contents in order, and returns k. Nothing else changes but the latches. -/
def Obligations.RbEnqAppendsWhatFits : Prop :=
  ∀ (s : State) (r : RingSel) (k : Nat),
    s.port.busy = false → Ring.Wf (s.cap r) (s.ring r) → s.port.argAddr ≠ 0 → s.port.argN ≠ 0 →
    (s.ring r).len ≠ s.cap r → k = min s.port.argN.toNat (s.cap r - (s.ring r).len) →
    (∀ j, j < k → memAdmits s.build (s.port.argAddr + BitVec.ofNat 32 j) = true) →
    ∃ x : Ring,
      exec (.rbEnq r) s = .next { s.setRing r x with
        port := { s.latchedPort with result := BitVec.ofNat 32 k } } ∧
      Ring.Wf (s.cap r) x ∧ x.len = (s.ring r).len + k ∧ x.ridx = (s.ring r).ridx ∧
      x.widx = ((s.ring r).widx + k) % s.cap r ∧
      Ring.contents (s.cap r) x = Ring.contents (s.cap r) (s.ring r) ++
        (List.range k).map fun j => Memory.read s.mem (s.port.argAddr + BitVec.ofNat 32 j)

/-- 40 rules R205, R211: a null source returns ERR_VALUE even with n = 0 or a full ring; otherwise n = 0 or a full
ring returns 0; nothing else changes but the latches. -/
def Obligations.RbEnqWithNothingAccepted : Prop :=
  ∀ (s : State) (r : RingSel), s.port.busy = false →
    (s.port.argAddr = 0 →
      exec (.rbEnq r) s = .next { s with port := { s.latchedPort with result := 0xFFFFFFFF } }) ∧
    (s.port.argAddr ≠ 0 → (s.port.argN = 0 ∨ (s.ring r).len = s.cap r) →
      exec (.rbEnq r) s = .next { s with port := { s.latchedPort with result := 0 } })

/-- 40 rule R206: RB_DEQ removes k = min(n, LEN) bytes, oldest first, writes them at a, a+1, ... (modulo 2^32), and
returns k. Every other byte of memory reads as before, and nothing else changes but the latches. -/
def Obligations.RbDeqDeliversTheOldest : Prop :=
  ∀ (s : State) (r : RingSel) (k : Nat),
    s.port.busy = false → Ring.Wf (s.cap r) (s.ring r) → s.mem.wf = true →
    (s.ring r).len ≠ 0 → s.port.argAddr ≠ 0 → s.port.argN ≠ 0 → k = min s.port.argN.toNat (s.ring r).len →
    (∀ j, j < k → memAdmits s.build (s.port.argAddr + BitVec.ofNat 32 j) = true) →
    ∃ (x : Ring) (m : Memory),
      exec (.rbDeq r) s = .next { s.setRing r x with
        port := { s.latchedPort with result := BitVec.ofNat 32 k }
        mem := m } ∧
      Ring.Wf (s.cap r) x ∧ x.store = (s.ring r).store ∧ x.len = (s.ring r).len - k ∧ x.widx = (s.ring r).widx ∧
      x.ridx = ((s.ring r).ridx + k) % s.cap r ∧
      Ring.contents (s.cap r) x = (Ring.contents (s.cap r) (s.ring r)).drop k ∧
      (∀ j, j < k → (Ring.contents (s.cap r) (s.ring r))[j]? =
        some (Memory.read m (s.port.argAddr + BitVec.ofNat 32 j))) ∧
      (∀ a : Word, (∀ j, j < k → a ≠ s.port.argAddr + BitVec.ofNat 32 j) → Memory.read m a = Memory.read s.mem a) ∧
      m.wf = true

/-- 40 rules R206, R212 (c): an empty ring, a null destination or n = 0 returns 0; nothing else changes but the
latches. -/
def Obligations.RbDeqWithNothingRemoved : Prop :=
  ∀ (s : State) (r : RingSel), s.port.busy = false →
    ((s.ring r).len = 0 ∨ s.port.argAddr = 0 ∨ s.port.argN = 0) →
    exec (.rbDeq r) s = .next { s with port := { s.latchedPort with result := 0 } }

/-- 20 rule R104: RB_ENQ and RB_DEQ have no step when a byte they need is not admitted. -/
def Obligations.TransfersStuckOnUnadmittedBytes : Prop :=
  ∀ (s : State) (r : RingSel) (j : Nat), s.port.busy = false → s.port.argAddr ≠ 0 → j < s.port.argN.toNat →
    memAdmits s.build (s.port.argAddr + BitVec.ofNat 32 j) = false →
    ((s.ring r).len + j < s.cap r → exec (.rbEnq r) s = .fault .memNotAdmitted) ∧
    (j < (s.ring r).len → exec (.rbDeq r) s = .fault .memNotAdmitted)

/-- 40 rules R207, R208: RB_LEN and RB_EMPTY write RESULT only (and the latches), with the value that a read of the LEN
register and of the ring's EMPTY bit of STATUS shows in the same state. -/
def Obligations.RbLenAndRbEmptyReport : Prop :=
  ∀ (s : State) (r : RingSel), s.port.busy = false →
    exec (.rbLen r) s = .next { s with
      port := { s.latchedPort with result := BitVec.ofNat 32 (s.ring r).len } } ∧
    exec (.rbEmpty r) s = .next { s with
      port := { s.latchedPort with result := if (s.ring r).len = 0 then 1 else 0 } } ∧
    BitVec.ofNat 32 (s.ring r).len = (s.busRead (match r with | .rx => 0x20 | .tx => 0x2C) 32).1 ∧
    ((s.busRead 0x10 32).1.getLsbD (match r with | .rx => 1 | .tx => 3) = true ↔ (s.ring r).len = 0)

/-- 40 rule R212 (b): from an empty ring, RB_ENQ of N ≤ C bytes and then RB_DEQ of N bytes writes the same N bytes in
the same order and leaves LEN = 0. -/
def Obligations.RingRoundTrip : Prop :=
  ∀ (s : State) (r : RingSel) (dest : Word), s.port.busy = false → Ring.Wf (s.cap r) (s.ring r) → s.mem.wf = true →
    (s.ring r).len = 0 → s.port.argN.toNat ≤ s.cap r → s.port.argAddr ≠ 0 → dest ≠ 0 →
    (∀ j, j < s.port.argN.toNat → memAdmits s.build (s.port.argAddr + BitVec.ofNat 32 j) = true ∧
      memAdmits s.build (dest + BitVec.ofNat 32 j) = true) →
    ∃ t u : State, exec (.rbEnq r) s = .next t ∧
      exec (.rbDeq r) { t with port := { t.port with argAddr := dest } } = .next u ∧
      t.port.result = s.port.argN ∧ u.port.result = s.port.argN ∧ (u.ring r).len = 0 ∧
      ∀ j, j < s.port.argN.toNat →
        Memory.read u.mem (dest + BitVec.ofNat 32 j) = Memory.read s.mem (s.port.argAddr + BitVec.ofNat 32 j)

/-- 40 rule R212 (d): from an empty ring, RB_ENQ of C + k bytes accepts the first C and returns C. -/
def Obligations.EnqueueStopsAtCapacity : Prop :=
  ∀ (s : State) (r : RingSel), s.port.busy = false → Ring.Wf (s.cap r) (s.ring r) → (s.ring r).len = 0 →
    s.port.argAddr ≠ 0 → s.cap r ≤ s.port.argN.toNat →
    (∀ j, j < s.cap r → memAdmits s.build (s.port.argAddr + BitVec.ofNat 32 j) = true) →
    ∃ t : State, exec (.rbEnq r) s = .next t ∧ t.port.result = BitVec.ofNat 32 (s.cap r) ∧
      t.full r = true ∧ t.contents r =
        (List.range (s.cap r)).map fun j => Memory.read s.mem (s.port.argAddr + BitVec.ofNat 32 j)

/-! ### Serial adapter (41_serial.md) -/

/-- 41 rule R240: SER_INIT creates both rings, clears TXIE and sets SER_EN; CTRL.ECHO and all else is unchanged but
the latches. -/
def Obligations.SerInitStartsTheTransport : Prop :=
  ∀ s : State, s.port.busy = false →
    exec .serInit s = .next { s with
      port := s.latchedPort
      rx := { store := List.replicate (2 ^ s.build.kRx.val) 0, widx := 0, ridx := 0, len := 0 }
      tx := { store := List.replicate (2 ^ s.build.kTx.val) 0, widx := 0, ridx := 0, len := 0 }
      ser := { s.ser with txie := false, serEn := true } }

/-- 41 rules R241, R243 and 30 rule R144: issuing a held command takes the latches, sets BUSY and HELD_OP, and does
nothing else. -/
def Obligations.HeldCommandsAreIssued : Prop :=
  ∀ s : State, s.port.busy = false →
    exec .serWrite s = .next { s with port := { s.latchedPort with busy := true, heldOp := .serWrite } } ∧
    exec .serReadByte s = .next { s with port := { s.latchedPort with busy := true, heldOp := .serReadByte } }

/-- 41 rule R242: the completion of a SER_WRITE of n ≥ 1 bytes from a non-null source, once C_TX - LEN_TX ≥ n: all n
bytes join the TX ring's contents in order, WIDX moves by n (40 rules R201, R202), RESULT = n, TXIE = 1, BUSY = 0;
nothing else changes. -/
def Obligations.SerWriteCompletes : Prop :=
  ∀ s : State, s.port.heldOp = .serWrite → Ring.Wf (s.cap .tx) s.tx → s.port.latchAddr ≠ 0 → s.port.latchN ≠ 0 →
    s.port.latchN.toNat ≤ s.cap .tx - s.tx.len →
    (∀ j, j < s.port.latchN.toNat → memAdmits s.build (s.port.latchAddr + BitVec.ofNat 32 j) = true) →
    ∃ x : Ring, s.agentStep .complete = some { s with
        tx := x
        ser := { s.ser with txie := true }
        port := { s.port with result := s.port.latchN, busy := false, heldOp := .none } } ∧
      Ring.Wf (s.cap .tx) x ∧ x.len = s.tx.len + s.port.latchN.toNat ∧ x.ridx = s.tx.ridx ∧
      x.widx = (s.tx.widx + s.port.latchN.toNat) % s.cap .tx ∧
      Ring.contents (s.cap .tx) x = Ring.contents (s.cap .tx) s.tx ++
        (List.range s.port.latchN.toNat).map fun j => Memory.read s.mem (s.port.latchAddr + BitVec.ofNat 32 j)

/-- 41 rule R242 and 20 rule R104: when the completion of a SER_WRITE is not enabled, and what n = 0 and a null source
do. -/
def Obligations.SerWriteCompletionCorners : Prop :=
  ∀ s : State, s.port.heldOp = .serWrite →
    (s.cap .tx - s.tx.len < s.port.latchN.toNat → s.enabled .complete = false) ∧
    (s.port.latchAddr ≠ 0 → s.port.latchN.toNat ≤ s.cap .tx - s.tx.len →
      (∃ j, j < s.port.latchN.toNat ∧ memAdmits s.build (s.port.latchAddr + BitVec.ofNat 32 j) = false) →
      s.enabled .complete = false) ∧
    (s.port.latchAddr ≠ 0 → s.port.latchN = 0 →
      s.agentStep .complete = some { s with
        ser := { s.ser with txie := true }
        port := { s.port with result := 0, busy := false, heldOp := .none } }) ∧
    (s.port.latchAddr = 0 → s.port.latchN.toNat ≤ s.cap .tx - s.tx.len →
      s.agentStep .complete = some { s with
        ser := { s.ser with txie := true }
        port := { s.port with result := 0xFFFFFFFF, busy := false, heldOp := .none } })

/-- 41 rule R244: the completion of SER_READ_BYTE, enabled only while the RX ring is not empty: RESULT is the oldest
byte zero-extended, which leaves the ring by a Pop: RIDX moves by 1, LEN falls by 1, the store is left in place (40 rules
R201, R203); BUSY = 0; nothing else changes. -/
def Obligations.SerReadByteCompletes : Prop :=
  ∀ s : State, s.port.heldOp = .serReadByte → Ring.Wf (s.cap .rx) s.rx →
    (s.rx.len = 0 → s.enabled .complete = false) ∧
    (∀ (b : Byte) (rest : List Byte), Ring.contents (s.cap .rx) s.rx = b :: rest →
      ∃ x : Ring, s.agentStep .complete = some { s with
          rx := x
          port := { s.port with result := b.setWidth 32, busy := false, heldOp := .none } } ∧
        Ring.Wf (s.cap .rx) x ∧ Ring.contents (s.cap .rx) x = rest ∧
        x = { s.rx with ridx := (s.rx.ridx + 1) % s.cap .rx, len := s.rx.len - 1 })

/-- 41 rules R250, R251: what an rx event does, and that none is taken while SER_EN = 0 or the UART holds no byte. A byte
that fits is pushed (WIDX moves by 1, LEN grows by 1: 40 rules R201, R202); one that meets a full ring leaves that ring
as it was. That the event takes the oldest byte the UART holds is the model's choice (log entry 5). -/
def Obligations.ReceiveEvents : Prop :=
  ∀ s : State, Ring.Wf (s.cap .rx) s.rx → Ring.Wf (s.cap .tx) s.tx →
    (s.ser.serEn = false ∨ s.env.uartHeld = [] → s.enabled .rx = false) ∧
    (∀ (b : Byte) (held : List RxByte), s.ser.serEn = true →
      (s.env.uartHeld = ⟨b, true⟩ :: held →
        s.agentStep .rx = some { s with env := { s.env with uartHeld := held } }) ∧
      (s.env.uartHeld = ⟨b, false⟩ :: held →
        ∃ x y : Ring,
          s.agentStep .rx = some { s with
            rx := x
            tx := y
            ser := { s.ser with txie := s.ser.txie || s.ser.echo }
            env := { s.env with uartHeld := held } } ∧
          Ring.contents (s.cap .rx) x =
            (if s.rx.len < s.cap .rx then Ring.contents (s.cap .rx) s.rx ++ [b]
              else Ring.contents (s.cap .rx) s.rx) ∧
          Ring.contents (s.cap .tx) y =
            (if s.ser.echo = true ∧ s.tx.len < s.cap .tx then Ring.contents (s.cap .tx) s.tx ++ [b]
              else Ring.contents (s.cap .tx) s.tx) ∧
          Ring.Wf (s.cap .rx) x ∧ Ring.Wf (s.cap .tx) y ∧
          (s.rx.len < s.cap .rx → x = {
            store := s.rx.store.set s.rx.widx b, widx := (s.rx.widx + 1) % s.cap .rx, ridx := s.rx.ridx,
            len := s.rx.len + 1 }) ∧
          (s.rx.len = s.cap .rx → x = s.rx) ∧
          (s.ser.echo = true → s.tx.len < s.cap .tx → y = {
            store := s.tx.store.set s.tx.widx b, widx := (s.tx.widx + 1) % s.cap .tx, ridx := s.tx.ridx,
            len := s.tx.len + 1 }) ∧
          (s.ser.echo = false ∨ s.tx.len = s.cap .tx → y = s.tx)))

/-- 41 rule R252: tx_ready is taken only while TXIE = 1; it sends the oldest byte of the TX ring, which leaves the ring
by a Pop (RIDX moves by 1, LEN falls by 1, the store is left in place: 40 rules R201, R203), or clears TXIE on an empty
ring; nothing else changes. -/
def Obligations.TransmitReadyEvent : Prop :=
  ∀ s : State, Ring.Wf (s.cap .tx) s.tx →
    (s.ser.txie = false → s.enabled .txReady = false) ∧
    (s.ser.txie = true → s.tx.len = 0 →
      s.agentStep .txReady = some { s with ser := { s.ser with txie := false } }) ∧
    (∀ (b : Byte) (rest : List Byte), s.ser.txie = true → Ring.contents (s.cap .tx) s.tx = b :: rest →
      ∃ x : Ring, s.agentStep .txReady = some { s with tx := x, uartTx := s.uartTx ++ [b] } ∧
        Ring.Wf (s.cap .tx) x ∧ Ring.contents (s.cap .tx) x = rest ∧
        x = { s.tx with ridx := (s.tx.ridx + 1) % s.cap .tx, len := s.tx.len - 1 })

/-- 41 rule R254: from TX empty and TXIE = 0, a SER_WRITE completion of n ≥ 1 bytes and then n tx_ready events output
the n bytes in order and leave TXIE = 1; one more clears it and changes nothing else. -/
def Obligations.WriteThenDrain : Prop :=
  ∀ s : State, Ring.Wf (s.cap .tx) s.tx → s.tx.len = 0 → s.ser.txie = false →
    s.port.heldOp = .serWrite → s.port.latchAddr ≠ 0 → s.port.latchN ≠ 0 → s.port.latchN.toNat ≤ s.cap .tx →
    (∀ j, j < s.port.latchN.toNat → memAdmits s.build (s.port.latchAddr + BitVec.ofNat 32 j) = true) →
    ∃ t : State,
      s.takeTurns (.complete :: List.replicate s.port.latchN.toNat .txReady) = t ∧
      t.uartTx = s.uartTx ++
        ((List.range s.port.latchN.toNat).map fun j => Memory.read s.mem (s.port.latchAddr + BitVec.ofNat 32 j)) ∧
      t.tx.len = 0 ∧ t.ser.txie = true ∧
      t.takeTurns [.txReady] = { t with ser := { t.ser with txie := false } }

/-- 70 rule R464: a SER_WRITE with LATCH_N > C_TX is held for ever: every step but reset leaves it held. -/
def Obligations.OversizedWriteIsHeldForEver : Prop :=
  ∀ s t : State, s.port.busy = true → s.port.heldOp = .serWrite → s.cap .tx < s.port.latchN.toNat →
    step s = .next t → s.nextTurn ≠ .reset →
    t.port.busy = true ∧ t.port.heldOp = .serWrite ∧ t.port.latchN = s.port.latchN ∧ t.cap .tx = s.cap .tx

/-- 60 rule R417: in a weakly fair run no BLOCK step (a held completion, a reload, a sequencer advance or end) stays
enabled for ever. -/
def Obligations.FairRunsTakeBlockSteps : Prop :=
  ∀ run : Nat → State, IsRun run → WeaklyFair run →
    ∀ a : Turn, IsBlockTurn a → ∀ k, ∃ m, k ≤ m ∧ (run m).enabled a = false

/-- 41 rule R253: bytes leave the TX ring through UartOut in the order they were pushed: what was sent followed by what
is queued only ever grows at its end, but for reset, RB_INIT and SER_INIT, and a host RB_DEQ.tx. -/
def Obligations.TransmitOrderIsPreserved : Prop :=
  ∀ s t : State, s.Inv → step s = .next t → s.nextTurn ≠ .reset →
    (s.nextTurn = .host → ¬ s.Issues (.rbInit .tx) ∧ ¬ s.Issues .serInit ∧ ¬ s.Issues (.rbDeq .tx)) →
    ∃ added : List Byte, t.uartTx ++ t.contents .tx = s.uartTx ++ s.contents .tx ++ added

/-! ### Tick timer (42_timer.md) -/

/-- 42 rules R280 to R283: the four timer commands; each changes the named register only (and the latches), and
RESULT equals the NOW or ELAPSED register read in the same state. -/
def Obligations.TimerCommands : Prop :=
  ∀ s : State, s.port.busy = false →
    exec .tmrInit s = .next { s with port := s.latchedPort, tmr := { s.tmr with tickEn := true } } ∧
    exec .tmrNow s = .next { s with
      port := { s.latchedPort with result := s.tmr.tick * s.build.tickScale } } ∧
    exec .tmrMark s = .next { s with port := s.latchedPort, tmr := { s.tmr with tickRef := s.tmr.tick } } ∧
    exec .tmrElapsed s = .next { s with
      port := { s.latchedPort with result := s.tmr.tick - s.tmr.tickRef } } ∧
    (s.busRead 0x40 32).1 = s.tmr.tick * s.build.tickScale ∧ (s.busRead 0x44 32).1 = s.tmr.tick - s.tmr.tickRef

/-- 42 rules R284, R285: a tick raises TICK by exactly 1 modulo 2^32 while TICK_EN = 1 and changes nothing else; a pulse
while TICK_EN = 0 is lost; no other step but reset writes TICK. -/
def Obligations.OnlyTicksMoveTick : Prop :=
  (∀ s : State, s.tmr.tickEn = true →
    s.agentStep .tick = some { s with tmr := { s.tmr with tick := s.tmr.tick + 1 } }) ∧
  (∀ s : State, s.tmr.tickEn = false → s.agentStep .tick = none) ∧
  (∀ s t : State, step s = .next t → s.nextTurn ≠ .tick → s.nextTurn ≠ .reset → t.tmr.tick = s.tmr.tick)

/-- 42 rules R282, R283, R285: TICK_REF is written only by TMR_MARK, SEQ_PLAY and seq_advance, which capture TICK, and by
reset; and over any run, whatever the agents do, HOST included, ELAPSED at its end is the number of tick events since a
mark, modulo 2^32, if no step after the mark marks again. Which turn each step takes is the model's schedule (log entry
3). -/
def Obligations.ElapsedCountsTicks : Prop :=
  (∀ s t : State, step s = .next t → t.tmr.tickRef ≠ s.tmr.tickRef →
    s.Marks ∧ t.tmr.tickRef = if s.nextTurn = .reset then 0 else s.tmr.tick) ∧
  (∀ (run : Nat → State) (n : Nat), (∀ k, k < n → step (run k) = .next (run (k + 1))) →
    (run 0).tmr.tickEn = true → (run 0).tmr.tickRef = (run 0).tmr.tick → (∀ k, k < n → ¬ (run k).Marks) →
    ((run n).busRead 0x44 32).1 = BitVec.ofNat 32 (((List.range n).map fun k => (run k).nextTurn).count .tick))

/-! ### Playback (43_playback.md) -/

/-- 43 rules R310, R311: PB_LOAD records a valid buffer as pending and touches no other state (but the latches); it
raises PB_BAD_BUFFER (code 0x04) and leaves PB_SRC and PB_CNT for any other. That the latches are taken before the fault
too is the model's reading (log entry 7). -/
def Obligations.PbLoadRecordsValidBuffers : Prop :=
  ∀ s : State, s.port.busy = false →
    exec .pbLoad s = .next
      (if s.port.argN ≠ 0 ∧ s.port.argAddr.toNat % s.build.bps.toNat = 0 ∧
          s.port.argN.toNat * s.build.bps.toNat ≤ 0xFFFFFFFF ∧
          s.port.argAddr.toNat + s.port.argN.toNat * s.build.bps.toNat ≤ 2 ^ 32 then
        { s with port := s.latchedPort, pb := { s.pb with pbSrc := s.port.argAddr, pbCnt := s.port.argN } }
      else { s with port := s.latchedPort, err := s.err.record 0x04 })

/-- 43 rules R312, R313: PB_START programs the channel from the pending buffer; with PB_CNT = 0 it raises
PB_BAD_BUFFER (code 0x04). Nothing else changes but the latches; that they are taken before the fault too is the model's
reading (log entry 7). -/
def Obligations.PbStartArmsTheChannel : Prop :=
  ∀ s : State, s.port.busy = false →
    (s.pb.pbCnt ≠ 0 → exec .pbStart s = .next { s with
      port := s.latchedPort
      pb := { s.pb with
        sar := s.pb.pbSrc, dar := s.build.dacAddr, bcr := s.pb.pbCnt * BitVec.ofNat 32 s.build.bps.toNat,
        done := false, chEn := true, pbst := .armed } }) ∧
    (s.pb.pbCnt = 0 → exec .pbStart s = .next { s with port := s.latchedPort, err := s.err.record 0x04 })

/-- 43 rule R316: PB_STOP clears CH_EN, DONE and SEQ_ACTIVE and goes to Idle; SAR, BCR and the pending buffer keep
their values. -/
def Obligations.PbStopGoesIdle : Prop :=
  ∀ s : State, s.port.busy = false →
    exec .pbStop s = .next { s with
      port := s.latchedPort
      pb := { s.pb with chEn := false, done := false, pbst := .idle }
      seq := { s.seq with active := false } }

/-- 43 rule R320 with 20 rules R101, R104: a trigger moves one little-endian sample of BPS bytes from SAR to the DAC and
advances the channel, which completes when BCR reaches 0; it is not taken unless CTRL.SRT_EN = 1 and CH_EN = 1 and the
bytes are admitted. Nothing else changes. -/
def Obligations.TriggerMovesOneSample : Prop :=
  ∀ s : State,
    (s.pb.srtEn = false ∨ s.pb.chEn = false ∨
        (∃ j, j < s.build.bps.toNat ∧ memAdmits s.build (s.pb.sar + BitVec.ofNat 32 j) = false) →
      s.enabled .trig = false) ∧
    (s.pb.srtEn = true → s.pb.chEn = true →
      (∀ j, j < s.build.bps.toNat → memAdmits s.build (s.pb.sar + BitVec.ofNat 32 j) = true) →
      ∃ (v left : Word),
        v.toNat = ((Finset.range s.build.bps.toNat).sum fun j =>
          (Memory.read s.mem (s.pb.sar + BitVec.ofNat 32 j)).toNat * 2 ^ (8 * j)) ∧
        left = s.pb.bcr - BitVec.ofNat 32 s.build.bps.toNat ∧
        s.agentStep .trig = some { s with
          dac := s.dac ++ [v]
          pb := { s.pb with
            sar := s.pb.sar + BitVec.ofNat 32 s.build.bps.toNat
            bcr := left
            chEn := decide (left ≠ 0)
            done := s.pb.done || decide (left = 0)
            pbst := if left = 0 then .reload else .streaming } })

/-- 43 rule R322: the reload step, enabled exactly in Reload, clears DONE and restarts the currently loaded buffer;
nothing else changes. -/
def Obligations.ReloadRestartsTheLoadedBuffer : Prop :=
  ∀ s : State,
    (s.pb.pbst ≠ .reload → s.enabled .reload = false) ∧
    (s.pb.pbst = .reload → s.agentStep .reload = some { s with pb := { s.pb with
      sar := s.pb.pbSrc, dar := s.build.dacAddr, bcr := s.pb.pbCnt * BitVec.ofNat 32 s.build.bps.toNat,
      done := false, chEn := true, pbst := .armed } })

/-- 43 rule R325: from a started buffer, PB_CNT triggers and a reload, repeated m times, play the buffer's samples in
address order m times and leave the machine as it was but for the dac trace. -/
def Obligations.LoadedBufferLoops : Prop :=
  ∀ (s : State) (m : Nat), s.pb.srtEn = true → validBuffer s.build s.pb.pbSrc s.pb.pbCnt = true →
    s.pb = { s.pb with
      sar := s.pb.pbSrc, dar := s.build.dacAddr, bcr := s.pb.pbCnt * BitVec.ofNat 32 s.build.bps.toNat,
      done := false, chEn := true, pbst := .armed } →
    (∀ j, j < s.pb.pbCnt.toNat * s.build.bps.toNat →
      memAdmits s.build (s.pb.pbSrc + BitVec.ofNat 32 j) = true) →
    s.takeTurns (List.replicate m (List.replicate s.pb.pbCnt.toNat Turn.trig ++ [Turn.reload])).flatten =
      { s with dac := s.dac ++ (List.replicate m ((List.range s.pb.pbCnt.toNat).map fun k =>
        Memory.memRead s.mem (s.pb.pbSrc + BitVec.ofNat 32 (k * s.build.bps.toNat)) s.build.bps.toNat)).flatten }

/-- 43 rule R324: every change of PBST is one of the table's rows. -/
def Obligations.PlaybackStateTransitions : Prop :=
  ∀ s t : State, s.Inv → step s = .next t → t.pb.pbst ≠ s.pb.pbst →
    (s.nextTurn = .reset ∧ t.pb.pbst = .idle) ∨
    (s.nextTurn = .host ∧ s.Issues .pbStart ∧ s.pb.pbCnt ≠ 0 ∧ t.pb.pbst = .armed) ∨
    (s.nextTurn = .host ∧ s.Issues .seqPlay ∧ t.pb.pbst = .armed) ∨
    (s.nextTurn = .seqAdvance ∧ t.pb.pbst = .armed) ∨
    (s.nextTurn = .trig ∧ (s.pb.pbst = .armed ∨ s.pb.pbst = .streaming) ∧
      s.build.bps.toNat < s.pb.bcr.toNat ∧ t.pb.pbst = .streaming) ∨
    (s.nextTurn = .trig ∧ (s.pb.pbst = .armed ∨ s.pb.pbst = .streaming) ∧
      s.pb.bcr.toNat = s.build.bps.toNat ∧ t.pb.pbst = .reload) ∨
    (s.nextTurn = .reload ∧ s.pb.pbst = .reload ∧ t.pb.pbst = .armed) ∨
    (s.nextTurn = .host ∧ s.Issues .pbStop ∧ t.pb.pbst = .idle)

/-! ### Note sequencer (44_sequencer.md) -/

/-- 44 rule R360: SEQ_PLAY with three valid descriptors starts a session from buffer 0; otherwise it raises
SEQ_BAD_DESC (code 0x05). Nothing else changes but the latches; that they are taken before the fault too is the model's
reading (log entry 7). -/
def Obligations.SeqPlayStartsASession : Prop :=
  ∀ s : State, s.port.busy = false →
    exec .seqPlay s = .next
      (if validBuffer s.build s.seq.desc0.addr s.seq.desc0.cnt = true ∧
          validBuffer s.build s.seq.desc1.addr s.seq.desc1.cnt = true ∧
          validBuffer s.build s.seq.desc2.addr s.seq.desc2.cnt = true then
        { s with
          port := s.latchedPort
          pb := { s.pb with
            pbSrc := s.seq.desc0.addr, pbCnt := s.seq.desc0.cnt, sar := s.seq.desc0.addr, dar := s.build.dacAddr,
            bcr := s.seq.desc0.cnt * BitVec.ofNat 32 s.build.bps.toNat, done := false, chEn := true,
            pbst := .armed }
          tmr := { s.tmr with tickRef := s.tmr.tick }
          seq := { s.seq with idx := 0, t0 := s.tmr.tick, active := true } }
      else { s with port := s.latchedPort, err := s.err.record 0x05 })

/-- 44 rules R361, R362: when seq_advance is enabled, and what it does with a valid and with an invalid next
descriptor. -/
def Obligations.SeqAdvancePlaysTheNextNote : Prop :=
  ∀ s : State,
    (s.enabled .seqAdvance = true ↔
      s.seq.active = true ∧ (s.tmr.tick - s.seq.t0).toNat < s.seq.budget.toNat ∧
        s.seq.noteTicks.toNat < (s.tmr.tick - s.tmr.tickRef).toNat) ∧
    (s.enabled .seqAdvance = true → ∀ (j : Fin 3) (d : Desc), j.val = (s.seq.idx.val + 1) % 3 →
      d = [s.seq.desc0, s.seq.desc1, s.seq.desc2].getD j.val ⟨0, 0⟩ →
      s.agentStep .seqAdvance = some
        (if validBuffer s.build d.addr d.cnt = true then
          { s with
            pb := { s.pb with
              pbSrc := d.addr, pbCnt := d.cnt, sar := d.addr, dar := s.build.dacAddr,
              bcr := d.cnt * BitVec.ofNat 32 s.build.bps.toNat, done := false, chEn := true, pbst := .armed }
            tmr := { s.tmr with tickRef := s.tmr.tick }
            seq := { s.seq with idx := j } }
        else { s with seq := { s.seq with active := false }, err := s.err.record 0x05 }))

/-- 44 rule R363: seq_end is enabled exactly when a session is active and its budget is used up; it clears SEQ_ACTIVE
and changes nothing else. -/
def Obligations.SeqEndClosesTheSession : Prop :=
  ∀ s : State,
    (s.enabled .seqEnd = true ↔
      s.seq.active = true ∧ s.seq.budget.toNat ≤ (s.tmr.tick - s.seq.t0).toNat) ∧
    (s.enabled .seqEnd = true →
      s.agentStep .seqEnd = some { s with seq := { s.seq with active := false } })

/-- 44 rule R364: at most one of seq_advance and seq_end is enabled in any state: their budget conditions exclude
each other. -/
def Obligations.AdvanceAndEndExcludeEachOther : Prop :=
  ∀ s : State,
    ¬ (s.enabled .seqAdvance = true ∧ s.enabled .seqEnd = true) ∧
    (s.enabled .seqAdvance = true → (s.tmr.tick - s.seq.t0).toNat < s.seq.budget.toNat) ∧
    (s.enabled .seqEnd = true → s.seq.budget.toNat ≤ (s.tmr.tick - s.seq.t0).toNat)

/-- 44 rule R365: SEQ_IDX changes only cyclically at an advance, or to 0 at SEQ_PLAY and reset. -/
def Obligations.NotesFollowCyclically : Prop :=
  ∀ s t : State, step s = .next t → t.seq.idx ≠ s.seq.idx →
    (s.nextTurn = .seqAdvance ∧ t.seq.idx.val = (s.seq.idx.val + 1) % 3) ∨
    (s.nextTurn = .host ∧ s.Issues .seqPlay ∧ t.seq.idx = 0) ∨
    (s.nextTurn = .reset ∧ t.seq.idx = 0)

/-! ### The whole machine -/

/-- The invariant holds right after reset, for every build and from any canonical memory (10 rules R33, R35, R39,
R70). -/
def Obligations.ResetMeetsTheInvariant : Prop :=
  State.reset.Inv ∧ ∀ (b : Build) (m : Memory) (e : Env), m.wf = true → (State.resetWith b m e).Inv

/-- Every step keeps the invariant (10 rules R33, R35, R39, R67; 43 rule R323; the canonical form of memory). -/
def Obligations.EveryStepKeepsTheInvariant : Prop :=
  ∀ s t : State, s.Inv → step s = .next t → t.Inv

/-- No step faults or is refused: a fault of the block is recorded in ERR and the machine goes on (60 rule R403), and a
stuck agent leaves the others free to move (20 rule R104). That step is total is the model's choice: a turn that is not
enabled answers the same state but for the schedule (log entry 3), and so does a HOST stuck at an access (log entry
10). -/
def Obligations.EveryStepAnswersANextState : Prop :=
  ∀ s : State, ∃ t, step s = .next t

/-- 20 rule R118: no serial step or ring or serial command reads or writes playback or sequencer state, and no playback
or sequencer step or command reads or writes ring or serial state: changing the other unit's state first or
afterwards is the same. -/
def Obligations.SerialAndPlaybackAreIndependent : Prop :=
  ∀ (s : State) (p : Playback) (q : Sequencer) (x y : Ring) (z : Serial),
    (∀ a ∈ [Turn.rx, Turn.txReady, Turn.complete],
      State.agentStep { s with pb := p, seq := q } a =
        (s.agentStep a).map fun t => { t with pb := p, seq := q }) ∧
    (∀ i ∈ [Instr.serInit, Instr.serWrite, Instr.serReadByte],
      exec i { s with pb := p, seq := q } = mapNext (fun t => { t with pb := p, seq := q }) (exec i s)) ∧
    (∀ r : RingSel, ∀ i ∈ [Instr.rbInit r, Instr.rbEnq r, Instr.rbDeq r, Instr.rbLen r, Instr.rbEmpty r],
      exec i { s with pb := p, seq := q } = mapNext (fun t => { t with pb := p, seq := q }) (exec i s)) ∧
    (∀ a ∈ [Turn.trig, Turn.reload, Turn.seqAdvance, Turn.seqEnd],
      State.agentStep { s with rx := x, tx := y, ser := z } a =
        (s.agentStep a).map fun t => { t with rx := x, tx := y, ser := z }) ∧
    (∀ i ∈ [Instr.pbLoad, Instr.pbStart, Instr.pbStop, Instr.seqPlay],
      exec i { s with rx := x, tx := y, ser := z } =
        mapNext (fun t => { t with rx := x, tx := y, ser := z }) (exec i s))

/-- 30 rule R145: RESULT is written only by RB_ENQ, RB_DEQ, RB_LEN, RB_EMPTY, TMR_NOW, TMR_ELAPSED and the completions of
SER_WRITE and SER_READ_BYTE (and cleared by reset); every other command, every faulting command and every event leaves
it unchanged. -/
def Obligations.OnlyListedStepsWriteResult : Prop :=
  ∀ s t : State, step s = .next t → t.port.result ≠ s.port.result →
    s.nextTurn = .reset ∨ (s.nextTurn = .complete ∧ s.port.heldOp ≠ .none) ∨
    (s.nextTurn = .host ∧ s.port.busy = false ∧ t.err = s.err ∧
      ((∃ r, s.Issues (.rbEnq r) ∨ s.Issues (.rbDeq r) ∨ s.Issues (.rbLen r) ∨ s.Issues (.rbEmpty r)) ∨
        s.Issues .tmrNow ∨ s.Issues .tmrElapsed))

/-- What no command changes: the build, the traces, the agents' own state, ARG_ADDR and ARG_N, CTRL, TICK, and the
sequencer's configuration; no command but RB_DEQ changes any byte of memory; none but SER_WRITE and SER_READ_BYTE
changes BUSY and HELD_OP (10 rules R30, R55, R68; 20 rule R105; 30 rule R144; 42 rule R285). -/
def Obligations.CommandsLeaveTheRestAlone : Prop :=
  ∀ (i : Instr) (s t : State), exec i s = .next t →
    t.build = s.build ∧ t.uartTx = s.uartTx ∧ t.dac = s.dac ∧ t.env = s.env ∧
    t.port.argAddr = s.port.argAddr ∧ t.port.argN = s.port.argN ∧
    t.ser.echo = s.ser.echo ∧ t.pb.srtEn = s.pb.srtEn ∧ t.tmr.tick = s.tmr.tick ∧
    t.seq.noteTicks = s.seq.noteTicks ∧ t.seq.budget = s.seq.budget ∧
    t.seq.desc0 = s.seq.desc0 ∧ t.seq.desc1 = s.seq.desc1 ∧ t.seq.desc2 = s.seq.desc2 ∧
    ((∀ r, i ≠ .rbDeq r) → ∀ a : Word, Memory.read t.mem a = Memory.read s.mem a) ∧
    (i ≠ .serWrite → i ≠ .serReadByte → t.port.busy = s.port.busy ∧ t.port.heldOp = s.port.heldOp)

/-- 20 rule R105, 00 rule R5: system memory changes only when the HOST writes it or issues RB_DEQ. -/
def Obligations.OnlyRbDeqAndTheHostWriteMemory : Prop :=
  ∀ s t : State, step s = .next t →
    (s.nextTurn = .host → (∀ r, ¬ s.Issues (.rbDeq r)) ∧
      ∀ a n v rest, s.env.host ≠ .memWrite a n v :: rest) →
    ∀ a : Word, Memory.read t.mem a = Memory.read s.mem a

/-- 70 rule R450 with the table of 10 rule R70: what asserting reset leaves, in every state. That reset keeps the schedule,
the draws, the HOST's program, the record of its reads and the bytes the UART holds is the model's choice (log entries 3
to 6). -/
def Obligations.ResetPutsEveryElementBack : Prop :=
  ∀ s : State, s.takeTurn .reset = .next {
    build := s.build
    port := { argAddr := 0, argN := 0, result := 0, latchAddr := 0, latchN := 0, busy := false, heldOp := .none }
    rx := { store := List.replicate (2 ^ s.build.kRx.val) 0, widx := 0, ridx := 0, len := 0 }
    tx := { store := List.replicate (2 ^ s.build.kTx.val) 0, widx := 0, ridx := 0, len := 0 }
    ser := { txie := false, serEn := false, echo := false }
    tmr := { tick := 0, tickRef := 0, tickEn := false }
    pb := { pbSrc := 0, pbCnt := 0, sar := 0, dar := 0, bcr := 0, chEn := false, done := false, pbst := .idle,
            srtEn := false }
    seq := { active := false, idx := 0, t0 := 0, noteTicks := 0, budget := 0,
             desc0 := ⟨0, 0⟩, desc1 := ⟨0, 0⟩, desc2 := ⟨0, 0⟩ }
    err := { fault := false, cause := 0 }
    mem := s.mem
    uartTx := []
    dac := []
    env := s.env }

/-- 70 rule R451: the state after reset: both rings created, no enable set, the timer, playback and the sequencer idle;
the block is quiescent: no UART event, tick, trigger or BLOCK step is enabled, whatever the environment offers, and
PB_START faults. -/
def Obligations.TheBlockIsQuiescentAfterReset : Prop :=
  ∀ (b : Build) (m : Memory) (e : Env) (s : State), s = State.resetWith b m e →
    s.rx = { store := List.replicate (2 ^ b.kRx.val) 0, widx := 0, ridx := 0, len := 0 } ∧
    s.tx = { store := List.replicate (2 ^ b.kTx.val) 0, widx := 0, ridx := 0, len := 0 } ∧
    s.ser.serEn = false ∧ s.ser.txie = false ∧ s.tmr.tickEn = false ∧ s.tmr.tick = 0 ∧
    s.pb.pbst = .idle ∧ s.pb.chEn = false ∧ s.pb.srtEn = false ∧ s.pb.pbCnt = 0 ∧ s.seq.active = false ∧
    (∀ a ∈ [Turn.rx, Turn.txReady, Turn.tick, Turn.trig, Turn.complete, Turn.reload, Turn.seqAdvance, Turn.seqEnd],
      s.enabled a = false) ∧
    exec .pbStart s = .next { s with err := { fault := true, cause := 0x04 } }
end

