-- ==== Sys2Proof/Laws/Decode.lean ====
section
/-! SUPPORT. Format F1 and its fields: a word is its fields, and the decoder refuses by the classes of
30 rule R147. -/

namespace Sys2Proof

/-- Taking a word apart and putting it together (30 rule R141). -/
theorem F1.toWord_ofWord (w : Word) : (F1.ofWord w).toWord = w := by
  apply BitVec.eq_of_getLsbD_eq
  intro i hi
  simp only [F1.toWord, F1.ofWord, BitVec.getLsbD_or, BitVec.getLsbD_shiftLeft, BitVec.getLsbD_setWidth,
    BitVec.getLsbD_extractLsb', BitVec.getLsbD_ofBool]
  by_cases h8 : i < 8
  · have h9 : i < 9 := by omega
    simp [h8, h9, hi]
  · by_cases h9 : i = 8
    · subst h9
      simp
    · have h1 : ¬ i < 9 := by omega
      have h2 : ¬ i - 8 = 0 := by omega
      have h3 : 9 + (i - 9) = i := by omega
      have h4 : i - 9 < 23 := by omega
      have h5 : i - 9 < 32 := by omega
      simp [h8, h1, h2, h3, h4, h5, hi]

/-- Putting fields together and taking them apart (30 rule R141). -/
theorem F1.ofWord_toWord (f : F1) : F1.ofWord f.toWord = f := by
  obtain ⟨opc, rsel, rsv⟩ := f
  simp only [F1.ofWord, F1.toWord, F1.mk.injEq]
  refine ⟨?_, ?_, ?_⟩
  · apply BitVec.eq_of_getLsbD_eq
    intro i hi
    have h9 : i < 9 := by omega
    have h32 : i < 32 := by omega
    simp only [BitVec.getLsbD_extractLsb', BitVec.getLsbD_or, BitVec.getLsbD_shiftLeft, BitVec.getLsbD_setWidth]
    simp [hi, h9, h32]
  · simp only [BitVec.getLsbD_or, BitVec.getLsbD_shiftLeft, BitVec.getLsbD_setWidth]
    simp
  · apply BitVec.eq_of_getLsbD_eq
    intro i hi
    have h1 : opc.getLsbD (9 + i) = false := BitVec.getLsbD_of_ge opc (9 + i) (by omega)
    have h2 : 9 + i < 32 := by omega
    have h4 : ¬ 9 + i - 8 = 0 := by omega
    have h5 : i < 32 := by omega
    simp only [BitVec.getLsbD_extractLsb', BitVec.getLsbD_or, BitVec.getLsbD_shiftLeft, BitVec.getLsbD_setWidth,
      BitVec.getLsbD_ofBool]
    simp [h1, hi, h2, h4, h5]

/-- Reading RSEL and writing it back. -/
@[simp] theorem RingSel.ofBit_toBit (r : RingSel) : RingSel.ofBit r.toBit = r := by cases r <;> rfl

/-- Writing RSEL and reading it back. -/
@[simp] theorem RingSel.toBit_ofBit (b : Bool) : (RingSel.ofBit b).toBit = b := by cases b <;> rfl

/-- A command's own fields decode to it. -/
theorem decodeFields_fields (i : Instr) : decodeFields i.fields = .ok i := by
  cases i <;> simp [Instr.fields, Instr.opc, Instr.rsel, decodeFields, decodePlain]

/-- A word with a bit of [31:9] set is refused as such (30 rule R147). -/
theorem decode_reserved {w : Word} (h : w.extractLsb' 9 23 ≠ 0) : decode w = .error .reservedBitsSet := by
  exact if_pos h

end Sys2Proof
end

