-- ==== Sys2Proof/Laws/State.lean ====
section
/-! SUPPORT. One lemma per field per named update of State, so that no later proof unfolds a record update. -/

namespace Sys2Proof.Machine

variable (s : State)

/-! ### State.setResult -/

@[simp] theorem State.setResult_build (v : Word) : (s.setResult v).build = s.build := rfl
@[simp] theorem State.setResult_port (v : Word) : (s.setResult v).port = { s.port with result := v } := rfl
@[simp] theorem State.setResult_rx (v : Word) : (s.setResult v).rx = s.rx := rfl
@[simp] theorem State.setResult_tx (v : Word) : (s.setResult v).tx = s.tx := rfl
@[simp] theorem State.setResult_ser (v : Word) : (s.setResult v).ser = s.ser := rfl
@[simp] theorem State.setResult_tmr (v : Word) : (s.setResult v).tmr = s.tmr := rfl
@[simp] theorem State.setResult_pb (v : Word) : (s.setResult v).pb = s.pb := rfl
@[simp] theorem State.setResult_seq (v : Word) : (s.setResult v).seq = s.seq := rfl
@[simp] theorem State.setResult_err (v : Word) : (s.setResult v).err = s.err := rfl
@[simp] theorem State.setResult_mem (v : Word) : (s.setResult v).mem = s.mem := rfl
@[simp] theorem State.setResult_uartTx (v : Word) : (s.setResult v).uartTx = s.uartTx := rfl
@[simp] theorem State.setResult_dac (v : Word) : (s.setResult v).dac = s.dac := rfl
@[simp] theorem State.setResult_env (v : Word) : (s.setResult v).env = s.env := rfl

/-! ### State.latch -/

@[simp] theorem State.latch_build : (s.latch).build = s.build := rfl
@[simp] theorem State.latch_port : (s.latch).port = { s.port with latchAddr := s.port.argAddr, latchN := s.port.argN } := rfl
@[simp] theorem State.latch_rx : (s.latch).rx = s.rx := rfl
@[simp] theorem State.latch_tx : (s.latch).tx = s.tx := rfl
@[simp] theorem State.latch_ser : (s.latch).ser = s.ser := rfl
@[simp] theorem State.latch_tmr : (s.latch).tmr = s.tmr := rfl
@[simp] theorem State.latch_pb : (s.latch).pb = s.pb := rfl
@[simp] theorem State.latch_seq : (s.latch).seq = s.seq := rfl
@[simp] theorem State.latch_err : (s.latch).err = s.err := rfl
@[simp] theorem State.latch_mem : (s.latch).mem = s.mem := rfl
@[simp] theorem State.latch_uartTx : (s.latch).uartTx = s.uartTx := rfl
@[simp] theorem State.latch_dac : (s.latch).dac = s.dac := rfl
@[simp] theorem State.latch_env : (s.latch).env = s.env := rfl

/-! ### State.hold -/

@[simp] theorem State.hold_build (op : HeldOp) : (s.hold op).build = s.build := rfl
@[simp] theorem State.hold_port (op : HeldOp) : (s.hold op).port = { s.port with busy := true, heldOp := op } := rfl
@[simp] theorem State.hold_rx (op : HeldOp) : (s.hold op).rx = s.rx := rfl
@[simp] theorem State.hold_tx (op : HeldOp) : (s.hold op).tx = s.tx := rfl
@[simp] theorem State.hold_ser (op : HeldOp) : (s.hold op).ser = s.ser := rfl
@[simp] theorem State.hold_tmr (op : HeldOp) : (s.hold op).tmr = s.tmr := rfl
@[simp] theorem State.hold_pb (op : HeldOp) : (s.hold op).pb = s.pb := rfl
@[simp] theorem State.hold_seq (op : HeldOp) : (s.hold op).seq = s.seq := rfl
@[simp] theorem State.hold_err (op : HeldOp) : (s.hold op).err = s.err := rfl
@[simp] theorem State.hold_mem (op : HeldOp) : (s.hold op).mem = s.mem := rfl
@[simp] theorem State.hold_uartTx (op : HeldOp) : (s.hold op).uartTx = s.uartTx := rfl
@[simp] theorem State.hold_dac (op : HeldOp) : (s.hold op).dac = s.dac := rfl
@[simp] theorem State.hold_env (op : HeldOp) : (s.hold op).env = s.env := rfl

/-! ### State.release -/

@[simp] theorem State.release_build : (s.release).build = s.build := rfl
@[simp] theorem State.release_port : (s.release).port = { s.port with busy := false, heldOp := .none } := rfl
@[simp] theorem State.release_rx : (s.release).rx = s.rx := rfl
@[simp] theorem State.release_tx : (s.release).tx = s.tx := rfl
@[simp] theorem State.release_ser : (s.release).ser = s.ser := rfl
@[simp] theorem State.release_tmr : (s.release).tmr = s.tmr := rfl
@[simp] theorem State.release_pb : (s.release).pb = s.pb := rfl
@[simp] theorem State.release_seq : (s.release).seq = s.seq := rfl
@[simp] theorem State.release_err : (s.release).err = s.err := rfl
@[simp] theorem State.release_mem : (s.release).mem = s.mem := rfl
@[simp] theorem State.release_uartTx : (s.release).uartTx = s.uartTx := rfl
@[simp] theorem State.release_dac : (s.release).dac = s.dac := rfl
@[simp] theorem State.release_env : (s.release).env = s.env := rfl

/-! ### State.setTxie -/

@[simp] theorem State.setTxie_build (v : Bool) : (s.setTxie v).build = s.build := rfl
@[simp] theorem State.setTxie_port (v : Bool) : (s.setTxie v).port = s.port := rfl
@[simp] theorem State.setTxie_rx (v : Bool) : (s.setTxie v).rx = s.rx := rfl
@[simp] theorem State.setTxie_tx (v : Bool) : (s.setTxie v).tx = s.tx := rfl
@[simp] theorem State.setTxie_ser (v : Bool) : (s.setTxie v).ser = { s.ser with txie := v } := rfl
@[simp] theorem State.setTxie_tmr (v : Bool) : (s.setTxie v).tmr = s.tmr := rfl
@[simp] theorem State.setTxie_pb (v : Bool) : (s.setTxie v).pb = s.pb := rfl
@[simp] theorem State.setTxie_seq (v : Bool) : (s.setTxie v).seq = s.seq := rfl
@[simp] theorem State.setTxie_err (v : Bool) : (s.setTxie v).err = s.err := rfl
@[simp] theorem State.setTxie_mem (v : Bool) : (s.setTxie v).mem = s.mem := rfl
@[simp] theorem State.setTxie_uartTx (v : Bool) : (s.setTxie v).uartTx = s.uartTx := rfl
@[simp] theorem State.setTxie_dac (v : Bool) : (s.setTxie v).dac = s.dac := rfl
@[simp] theorem State.setTxie_env (v : Bool) : (s.setTxie v).env = s.env := rfl

/-! ### State.markTick -/

@[simp] theorem State.markTick_build : (s.markTick).build = s.build := rfl
@[simp] theorem State.markTick_port : (s.markTick).port = s.port := rfl
@[simp] theorem State.markTick_rx : (s.markTick).rx = s.rx := rfl
@[simp] theorem State.markTick_tx : (s.markTick).tx = s.tx := rfl
@[simp] theorem State.markTick_ser : (s.markTick).ser = s.ser := rfl
@[simp] theorem State.markTick_tmr : (s.markTick).tmr = { s.tmr with tickRef := s.tmr.tick } := rfl
@[simp] theorem State.markTick_pb : (s.markTick).pb = s.pb := rfl
@[simp] theorem State.markTick_seq : (s.markTick).seq = s.seq := rfl
@[simp] theorem State.markTick_err : (s.markTick).err = s.err := rfl
@[simp] theorem State.markTick_mem : (s.markTick).mem = s.mem := rfl
@[simp] theorem State.markTick_uartTx : (s.markTick).uartTx = s.uartTx := rfl
@[simp] theorem State.markTick_dac : (s.markTick).dac = s.dac := rfl
@[simp] theorem State.markTick_env : (s.markTick).env = s.env := rfl

/-! ### State.storeBytes -/

@[simp] theorem State.storeBytes_build (a : Word) (bytes : List Byte) : (s.storeBytes a bytes).build = s.build := rfl
@[simp] theorem State.storeBytes_port (a : Word) (bytes : List Byte) : (s.storeBytes a bytes).port = s.port := rfl
@[simp] theorem State.storeBytes_rx (a : Word) (bytes : List Byte) : (s.storeBytes a bytes).rx = s.rx := rfl
@[simp] theorem State.storeBytes_tx (a : Word) (bytes : List Byte) : (s.storeBytes a bytes).tx = s.tx := rfl
@[simp] theorem State.storeBytes_ser (a : Word) (bytes : List Byte) : (s.storeBytes a bytes).ser = s.ser := rfl
@[simp] theorem State.storeBytes_tmr (a : Word) (bytes : List Byte) : (s.storeBytes a bytes).tmr = s.tmr := rfl
@[simp] theorem State.storeBytes_pb (a : Word) (bytes : List Byte) : (s.storeBytes a bytes).pb = s.pb := rfl
@[simp] theorem State.storeBytes_seq (a : Word) (bytes : List Byte) : (s.storeBytes a bytes).seq = s.seq := rfl
@[simp] theorem State.storeBytes_err (a : Word) (bytes : List Byte) : (s.storeBytes a bytes).err = s.err := rfl
@[simp] theorem State.storeBytes_mem (a : Word) (bytes : List Byte) : (s.storeBytes a bytes).mem = Memory.writeSpan s.mem a bytes := rfl
@[simp] theorem State.storeBytes_uartTx (a : Word) (bytes : List Byte) : (s.storeBytes a bytes).uartTx = s.uartTx := rfl
@[simp] theorem State.storeBytes_dac (a : Word) (bytes : List Byte) : (s.storeBytes a bytes).dac = s.dac := rfl
@[simp] theorem State.storeBytes_env (a : Word) (bytes : List Byte) : (s.storeBytes a bytes).env = s.env := rfl

/-! ### State.raise -/

@[simp] theorem State.raise_build (c : Cause) : (s.raise c).build = s.build := rfl
@[simp] theorem State.raise_port (c : Cause) : (s.raise c).port = s.port := rfl
@[simp] theorem State.raise_rx (c : Cause) : (s.raise c).rx = s.rx := rfl
@[simp] theorem State.raise_tx (c : Cause) : (s.raise c).tx = s.tx := rfl
@[simp] theorem State.raise_ser (c : Cause) : (s.raise c).ser = s.ser := rfl
@[simp] theorem State.raise_tmr (c : Cause) : (s.raise c).tmr = s.tmr := rfl
@[simp] theorem State.raise_pb (c : Cause) : (s.raise c).pb = s.pb := rfl
@[simp] theorem State.raise_seq (c : Cause) : (s.raise c).seq = s.seq := rfl
@[simp] theorem State.raise_err (c : Cause) : (s.raise c).err = { fault := true, cause := if s.err.fault then s.err.cause else c.code } := rfl
@[simp] theorem State.raise_mem (c : Cause) : (s.raise c).mem = s.mem := rfl
@[simp] theorem State.raise_uartTx (c : Cause) : (s.raise c).uartTx = s.uartTx := rfl
@[simp] theorem State.raise_dac (c : Cause) : (s.raise c).dac = s.dac := rfl
@[simp] theorem State.raise_env (c : Cause) : (s.raise c).env = s.env := rfl

/-! ### State.loadBuffer -/

@[simp] theorem State.loadBuffer_build (a n : Word) : (s.loadBuffer a n).build = s.build := rfl
@[simp] theorem State.loadBuffer_port (a n : Word) : (s.loadBuffer a n).port = s.port := rfl
@[simp] theorem State.loadBuffer_rx (a n : Word) : (s.loadBuffer a n).rx = s.rx := rfl
@[simp] theorem State.loadBuffer_tx (a n : Word) : (s.loadBuffer a n).tx = s.tx := rfl
@[simp] theorem State.loadBuffer_ser (a n : Word) : (s.loadBuffer a n).ser = s.ser := rfl
@[simp] theorem State.loadBuffer_tmr (a n : Word) : (s.loadBuffer a n).tmr = s.tmr := rfl
@[simp] theorem State.loadBuffer_pb (a n : Word) : (s.loadBuffer a n).pb = { s.pb with pbSrc := a, pbCnt := n } := rfl
@[simp] theorem State.loadBuffer_seq (a n : Word) : (s.loadBuffer a n).seq = s.seq := rfl
@[simp] theorem State.loadBuffer_err (a n : Word) : (s.loadBuffer a n).err = s.err := rfl
@[simp] theorem State.loadBuffer_mem (a n : Word) : (s.loadBuffer a n).mem = s.mem := rfl
@[simp] theorem State.loadBuffer_uartTx (a n : Word) : (s.loadBuffer a n).uartTx = s.uartTx := rfl
@[simp] theorem State.loadBuffer_dac (a n : Word) : (s.loadBuffer a n).dac = s.dac := rfl
@[simp] theorem State.loadBuffer_env (a n : Word) : (s.loadBuffer a n).env = s.env := rfl

/-! ### State.start -/

@[simp] theorem State.start_build : (s.start).build = s.build := rfl
@[simp] theorem State.start_port : (s.start).port = s.port := rfl
@[simp] theorem State.start_rx : (s.start).rx = s.rx := rfl
@[simp] theorem State.start_tx : (s.start).tx = s.tx := rfl
@[simp] theorem State.start_ser : (s.start).ser = s.ser := rfl
@[simp] theorem State.start_tmr : (s.start).tmr = s.tmr := rfl
@[simp] theorem State.start_pb : (s.start).pb = Playback.start s.build s.pb := rfl
@[simp] theorem State.start_seq : (s.start).seq = s.seq := rfl
@[simp] theorem State.start_err : (s.start).err = s.err := rfl
@[simp] theorem State.start_mem : (s.start).mem = s.mem := rfl
@[simp] theorem State.start_uartTx : (s.start).uartTx = s.uartTx := rfl
@[simp] theorem State.start_dac : (s.start).dac = s.dac := rfl
@[simp] theorem State.start_env : (s.start).env = s.env := rfl

/-! ### State.setHost -/

@[simp] theorem State.setHost_build (ops : List HostOp) : (s.setHost ops).build = s.build := rfl
@[simp] theorem State.setHost_port (ops : List HostOp) : (s.setHost ops).port = s.port := rfl
@[simp] theorem State.setHost_rx (ops : List HostOp) : (s.setHost ops).rx = s.rx := rfl
@[simp] theorem State.setHost_tx (ops : List HostOp) : (s.setHost ops).tx = s.tx := rfl
@[simp] theorem State.setHost_ser (ops : List HostOp) : (s.setHost ops).ser = s.ser := rfl
@[simp] theorem State.setHost_tmr (ops : List HostOp) : (s.setHost ops).tmr = s.tmr := rfl
@[simp] theorem State.setHost_pb (ops : List HostOp) : (s.setHost ops).pb = s.pb := rfl
@[simp] theorem State.setHost_seq (ops : List HostOp) : (s.setHost ops).seq = s.seq := rfl
@[simp] theorem State.setHost_err (ops : List HostOp) : (s.setHost ops).err = s.err := rfl
@[simp] theorem State.setHost_mem (ops : List HostOp) : (s.setHost ops).mem = s.mem := rfl
@[simp] theorem State.setHost_uartTx (ops : List HostOp) : (s.setHost ops).uartTx = s.uartTx := rfl
@[simp] theorem State.setHost_dac (ops : List HostOp) : (s.setHost ops).dac = s.dac := rfl
@[simp] theorem State.setHost_env (ops : List HostOp) : (s.setHost ops).env = { s.env with host := ops } := rfl

/-! ### State.recordRead -/

@[simp] theorem State.recordRead_build (v : Word) : (s.recordRead v).build = s.build := rfl
@[simp] theorem State.recordRead_port (v : Word) : (s.recordRead v).port = s.port := rfl
@[simp] theorem State.recordRead_rx (v : Word) : (s.recordRead v).rx = s.rx := rfl
@[simp] theorem State.recordRead_tx (v : Word) : (s.recordRead v).tx = s.tx := rfl
@[simp] theorem State.recordRead_ser (v : Word) : (s.recordRead v).ser = s.ser := rfl
@[simp] theorem State.recordRead_tmr (v : Word) : (s.recordRead v).tmr = s.tmr := rfl
@[simp] theorem State.recordRead_pb (v : Word) : (s.recordRead v).pb = s.pb := rfl
@[simp] theorem State.recordRead_seq (v : Word) : (s.recordRead v).seq = s.seq := rfl
@[simp] theorem State.recordRead_err (v : Word) : (s.recordRead v).err = s.err := rfl
@[simp] theorem State.recordRead_mem (v : Word) : (s.recordRead v).mem = s.mem := rfl
@[simp] theorem State.recordRead_uartTx (v : Word) : (s.recordRead v).uartTx = s.uartTx := rfl
@[simp] theorem State.recordRead_dac (v : Word) : (s.recordRead v).dac = s.dac := rfl
@[simp] theorem State.recordRead_env (v : Word) : (s.recordRead v).env = { s.env with hostReads := s.env.hostReads ++ [v] } := rfl

/-! ### State.countDraw -/

@[simp] theorem State.countDraw_build : (s.countDraw).build = s.build := rfl
@[simp] theorem State.countDraw_port : (s.countDraw).port = s.port := rfl
@[simp] theorem State.countDraw_rx : (s.countDraw).rx = s.rx := rfl
@[simp] theorem State.countDraw_tx : (s.countDraw).tx = s.tx := rfl
@[simp] theorem State.countDraw_ser : (s.countDraw).ser = s.ser := rfl
@[simp] theorem State.countDraw_tmr : (s.countDraw).tmr = s.tmr := rfl
@[simp] theorem State.countDraw_pb : (s.countDraw).pb = s.pb := rfl
@[simp] theorem State.countDraw_seq : (s.countDraw).seq = s.seq := rfl
@[simp] theorem State.countDraw_err : (s.countDraw).err = s.err := rfl
@[simp] theorem State.countDraw_mem : (s.countDraw).mem = s.mem := rfl
@[simp] theorem State.countDraw_uartTx : (s.countDraw).uartTx = s.uartTx := rfl
@[simp] theorem State.countDraw_dac : (s.countDraw).dac = s.dac := rfl
@[simp] theorem State.countDraw_env : (s.countDraw).env = { s.env with draws := s.env.draws + 1 } := rfl

/-! ### State.setRing, State.ring and the views of a state -/

@[simp] theorem State.setRing_build (r : RingSel) (x : Ring) : (s.setRing r x).build = s.build := by cases r <;> rfl
@[simp] theorem State.setRing_port (r : RingSel) (x : Ring) : (s.setRing r x).port = s.port := by cases r <;> rfl
@[simp] theorem State.setRing_ser (r : RingSel) (x : Ring) : (s.setRing r x).ser = s.ser := by cases r <;> rfl
@[simp] theorem State.setRing_tmr (r : RingSel) (x : Ring) : (s.setRing r x).tmr = s.tmr := by cases r <;> rfl
@[simp] theorem State.setRing_pb (r : RingSel) (x : Ring) : (s.setRing r x).pb = s.pb := by cases r <;> rfl
@[simp] theorem State.setRing_seq (r : RingSel) (x : Ring) : (s.setRing r x).seq = s.seq := by cases r <;> rfl
@[simp] theorem State.setRing_err (r : RingSel) (x : Ring) : (s.setRing r x).err = s.err := by cases r <;> rfl
@[simp] theorem State.setRing_mem (r : RingSel) (x : Ring) : (s.setRing r x).mem = s.mem := by cases r <;> rfl
@[simp] theorem State.setRing_uartTx (r : RingSel) (x : Ring) : (s.setRing r x).uartTx = s.uartTx := by cases r <;> rfl
@[simp] theorem State.setRing_dac (r : RingSel) (x : Ring) : (s.setRing r x).dac = s.dac := by cases r <;> rfl
@[simp] theorem State.setRing_env (r : RingSel) (x : Ring) : (s.setRing r x).env = s.env := by cases r <;> rfl

@[simp] theorem State.setRing_rx_rx (x : Ring) : (s.setRing .rx x).rx = x := rfl
@[simp] theorem State.setRing_rx_tx (x : Ring) : (s.setRing .rx x).tx = s.tx := rfl
@[simp] theorem State.setRing_tx_tx (x : Ring) : (s.setRing .tx x).tx = x := rfl
@[simp] theorem State.setRing_tx_rx (x : Ring) : (s.setRing .tx x).rx = s.rx := rfl
@[simp] theorem State.ring_rx : s.ring .rx = s.rx := rfl
@[simp] theorem State.ring_tx : s.ring .tx = s.tx := rfl
@[simp] theorem State.ring_setRing_self (r : RingSel) (x : Ring) : (s.setRing r x).ring r = x := by cases r <;> rfl
theorem State.ring_setRing_other (r q : RingSel) (x : Ring) (h : q ≠ r) : (s.setRing r x).ring q = s.ring q := by
  cases r <;> cases q <;> first | rfl | exact absurd rfl h
@[simp] theorem State.setRing_ring_self (r : RingSel) : s.setRing r (s.ring r) = s := by cases r <;> rfl

/-- The capacity of a ring is a build constant. -/
theorem State.cap_def (r : RingSel) : s.cap r = s.build.cap r := rfl

/-- Two states of one build have rings of one capacity. -/
theorem State.cap_congr (t : State) (r : RingSel) (h : t.build = s.build) : t.cap r = s.cap r := by
  rw [State.cap_def, State.cap_def, h]

@[simp] theorem State.setResult_cap (v : Word) (r : RingSel) : (s.setResult v).cap r = s.cap r := rfl
@[simp] theorem State.setResult_ring (v : Word) (r : RingSel) : (s.setResult v).ring r = s.ring r := by cases r <;> rfl
@[simp] theorem State.latch_cap (r : RingSel) : (s.latch).cap r = s.cap r := rfl
@[simp] theorem State.latch_ring (r : RingSel) : (s.latch).ring r = s.ring r := by cases r <;> rfl
@[simp] theorem State.hold_cap (op : HeldOp) (r : RingSel) : (s.hold op).cap r = s.cap r := rfl
@[simp] theorem State.hold_ring (op : HeldOp) (r : RingSel) : (s.hold op).ring r = s.ring r := by cases r <;> rfl
@[simp] theorem State.release_cap (r : RingSel) : (s.release).cap r = s.cap r := rfl
@[simp] theorem State.release_ring (r : RingSel) : (s.release).ring r = s.ring r := by cases r <;> rfl
@[simp] theorem State.setTxie_cap (v : Bool) (r : RingSel) : (s.setTxie v).cap r = s.cap r := rfl
@[simp] theorem State.setTxie_ring (v : Bool) (r : RingSel) : (s.setTxie v).ring r = s.ring r := by cases r <;> rfl
@[simp] theorem State.markTick_cap (r : RingSel) : (s.markTick).cap r = s.cap r := rfl
@[simp] theorem State.markTick_ring (r : RingSel) : (s.markTick).ring r = s.ring r := by cases r <;> rfl
@[simp] theorem State.storeBytes_cap (a : Word) (bytes : List Byte) (r : RingSel) : (s.storeBytes a bytes).cap r = s.cap r := rfl
@[simp] theorem State.storeBytes_ring (a : Word) (bytes : List Byte) (r : RingSel) : (s.storeBytes a bytes).ring r = s.ring r := by cases r <;> rfl
@[simp] theorem State.raise_cap (c : Cause) (r : RingSel) : (s.raise c).cap r = s.cap r := rfl
@[simp] theorem State.raise_ring (c : Cause) (r : RingSel) : (s.raise c).ring r = s.ring r := by cases r <;> rfl
@[simp] theorem State.loadBuffer_cap (a n : Word) (r : RingSel) : (s.loadBuffer a n).cap r = s.cap r := rfl
@[simp] theorem State.loadBuffer_ring (a n : Word) (r : RingSel) : (s.loadBuffer a n).ring r = s.ring r := by cases r <;> rfl
@[simp] theorem State.start_cap (r : RingSel) : (s.start).cap r = s.cap r := rfl
@[simp] theorem State.start_ring (r : RingSel) : (s.start).ring r = s.ring r := by cases r <;> rfl
@[simp] theorem State.setHost_cap (ops : List HostOp) (r : RingSel) : (s.setHost ops).cap r = s.cap r := rfl
@[simp] theorem State.setHost_ring (ops : List HostOp) (r : RingSel) : (s.setHost ops).ring r = s.ring r := by cases r <;> rfl
@[simp] theorem State.recordRead_cap (v : Word) (r : RingSel) : (s.recordRead v).cap r = s.cap r := rfl
@[simp] theorem State.recordRead_ring (v : Word) (r : RingSel) : (s.recordRead v).ring r = s.ring r := by cases r <;> rfl
@[simp] theorem State.countDraw_cap (r : RingSel) : (s.countDraw).cap r = s.cap r := rfl
@[simp] theorem State.countDraw_ring (r : RingSel) : (s.countDraw).ring r = s.ring r := by cases r <;> rfl
@[simp] theorem State.setRing_cap (r q : RingSel) (x : Ring) : (s.setRing r x).cap q = s.cap q := by cases r <;> rfl

@[simp] theorem State.latch_opA : s.latch.opA = s.port.argAddr := rfl
@[simp] theorem State.latch_opN : s.latch.opN = s.port.argN := rfl

/-- Choosing who moves changes the schedule or the count of free values, nothing else. -/
theorem State.afterChoice_eq : s.afterChoice = { s with env := s.afterChoice.env } := by
  unfold State.afterChoice
  split <;> rfl

@[simp] theorem State.afterChoice_build : s.afterChoice.build = s.build := by unfold State.afterChoice; split <;> rfl
@[simp] theorem State.afterChoice_port : s.afterChoice.port = s.port := by unfold State.afterChoice; split <;> rfl
@[simp] theorem State.afterChoice_rx : s.afterChoice.rx = s.rx := by unfold State.afterChoice; split <;> rfl
@[simp] theorem State.afterChoice_tx : s.afterChoice.tx = s.tx := by unfold State.afterChoice; split <;> rfl
@[simp] theorem State.afterChoice_ser : s.afterChoice.ser = s.ser := by unfold State.afterChoice; split <;> rfl
@[simp] theorem State.afterChoice_tmr : s.afterChoice.tmr = s.tmr := by unfold State.afterChoice; split <;> rfl
@[simp] theorem State.afterChoice_pb : s.afterChoice.pb = s.pb := by unfold State.afterChoice; split <;> rfl
@[simp] theorem State.afterChoice_seq : s.afterChoice.seq = s.seq := by unfold State.afterChoice; split <;> rfl
@[simp] theorem State.afterChoice_err : s.afterChoice.err = s.err := by unfold State.afterChoice; split <;> rfl
@[simp] theorem State.afterChoice_mem : s.afterChoice.mem = s.mem := by unfold State.afterChoice; split <;> rfl
@[simp] theorem State.afterChoice_uartTx : s.afterChoice.uartTx = s.uartTx := by unfold State.afterChoice; split <;> rfl
@[simp] theorem State.afterChoice_dac : s.afterChoice.dac = s.dac := by unfold State.afterChoice; split <;> rfl
@[simp] theorem State.afterChoice_cap (r : RingSel) : s.afterChoice.cap r = s.cap r := by
  simp only [State.cap_def, State.afterChoice_build]
@[simp] theorem State.afterChoice_ring (r : RingSel) : s.afterChoice.ring r = s.ring r := by
  cases r
  · exact s.afterChoice_rx
  · exact s.afterChoice_tx
@[simp] theorem State.afterChoice_host : s.afterChoice.env.host = s.env.host := by
  unfold State.afterChoice
  split <;> rfl
@[simp] theorem State.afterChoice_uartHeld : s.afterChoice.env.uartHeld = s.env.uartHeld := by
  unfold State.afterChoice
  split <;> rfl

end Sys2Proof.Machine
end

