-- ==== Sys2Proof/Laws/Memory.lean ====
section
/-! SUPPORT. System memory: reading after writing, and that every memory operation keeps the canonical form. -/

namespace Sys2Proof.Machine

/-! ### The canonical form -/

/-- A canonical memory from `lo` up is canonical from any lower address. -/
theorem Memory.wfFrom_mono {m : Memory} {lo lo' : Nat} (h : Memory.wfFrom lo m = true) (hle : lo' ≤ lo) :
    Memory.wfFrom lo' m = true := by
  cases m with
  | nil => rfl
  | cons c rest =>
    obtain ⟨a, b⟩ := c
    simp only [Memory.wfFrom, Bool.and_eq_true, decide_eq_true_eq] at h ⊢
    exact ⟨⟨⟨by omega, h.1.1.2⟩, h.1.2⟩, h.2⟩

/-- An address below every listed one reads as unlisted. -/
theorem Memory.lookup_below {m : Memory} {lo a : Nat} (h : Memory.wfFrom lo m = true) (hlt : a < lo) :
    Memory.lookup m a = Memory.unlisted := by
  induction m generalizing lo with
  | nil => rfl
  | cons c rest ih =>
    obtain ⟨k, b⟩ := c
    simp only [Memory.wfFrom, Bool.and_eq_true, decide_eq_true_eq] at h
    have hne : k ≠ a := by omega
    simp only [Memory.lookup, if_neg hne]
    exact ih h.2 (by omega)

/-- `put` keeps the canonical form. -/
theorem Memory.put_wfFrom {m : Memory} {lo a : Nat} (b : Byte) (h : Memory.wfFrom lo m = true) (hlo : lo ≤ a)
    (ha : a < 2 ^ 32) : Memory.wfFrom lo (Memory.put m a b) = true := by
  induction m generalizing lo with
  | nil =>
    by_cases hb : b = Memory.unlisted
    · simp [Memory.put, hb, Memory.wfFrom]
    · simp [Memory.put, hb, Memory.wfFrom, hlo]
      omega
  | cons c rest ih =>
    obtain ⟨k, d⟩ := c
    have h0 := h
    simp only [Memory.wfFrom, Bool.and_eq_true, decide_eq_true_eq] at h
    obtain ⟨⟨⟨hk, hk2⟩, hd⟩, hrest⟩ := h
    by_cases hlt : a < k
    · by_cases hb : b = Memory.unlisted
      · simpa [Memory.put, hlt, hb] using h0
      · simp only [Memory.put, if_pos hlt, if_neg hb, Memory.wfFrom, Bool.and_eq_true, decide_eq_true_eq]
        exact ⟨⟨⟨hlo, ha⟩, hb⟩, ⟨⟨⟨by omega, hk2⟩, hd⟩, hrest⟩⟩
    · by_cases heq : a = k
      · by_cases hb : b = Memory.unlisted
        · simp only [Memory.put, if_neg hlt, if_pos heq, if_pos hb]
          exact Memory.wfFrom_mono hrest (by omega)
        · simp only [Memory.put, if_neg hlt, if_pos heq, if_neg hb, Memory.wfFrom, Bool.and_eq_true,
            decide_eq_true_eq]
          exact ⟨⟨⟨hlo, ha⟩, hb⟩, heq ▸ hrest⟩
      · simp only [Memory.put, if_neg hlt, if_neg heq, Memory.wfFrom, Bool.and_eq_true, decide_eq_true_eq]
        exact ⟨⟨⟨hk, hk2⟩, hd⟩, ih hrest (by omega)⟩

/-- Writing a byte keeps the canonical form. -/
theorem Memory.write_wf {m : Memory} (a : Word) (b : Byte) (h : m.wf = true) : (Memory.write m a b).wf = true :=
  Memory.put_wfFrom b h (Nat.zero_le _) a.isLt

/-- Writing a run of bytes keeps the canonical form. -/
theorem Memory.writeSpan_wf {m : Memory} (a : Word) (bytes : List Byte) (h : m.wf = true) :
    (Memory.writeSpan m a bytes).wf = true := by
  induction bytes generalizing m a with
  | nil => exact h
  | cons b rest ih => exact ih (a + 1) (Memory.write_wf a b h)

/-- `MemWrite` keeps the canonical form. -/
theorem Memory.memWrite_wf {m : Memory} (a : Word) (n : Nat) (v : Word) (h : m.wf = true) :
    (Memory.memWrite m a n v).wf = true :=
  Memory.writeSpan_wf a _ h

/-! ### Reading after writing -/

/-- A read at the key written gives the byte written. -/
theorem Memory.lookup_put_same {m : Memory} {lo a : Nat} (b : Byte) (h : Memory.wfFrom lo m = true) :
    Memory.lookup (Memory.put m a b) a = b := by
  induction m generalizing lo with
  | nil =>
    by_cases hb : b = Memory.unlisted
    · simp [Memory.put, hb, Memory.lookup]
    · simp [Memory.put, hb, Memory.lookup]
  | cons c rest ih =>
    obtain ⟨k, d⟩ := c
    have h0 := h
    simp only [Memory.wfFrom, Bool.and_eq_true, decide_eq_true_eq] at h
    by_cases hlt : a < k
    · by_cases hb : b = Memory.unlisted
      · simp only [Memory.put, if_pos hlt, if_pos hb]
        have hbelow : Memory.wfFrom (a + 1) ((k, d) :: rest) = true := by
          simp only [Memory.wfFrom, Bool.and_eq_true, decide_eq_true_eq]
          exact ⟨⟨⟨hlt, h.1.1.2⟩, h.1.2⟩, h.2⟩
        rw [Memory.lookup_below hbelow (by omega), hb]
      · simp [Memory.put, hlt, hb, Memory.lookup]
    · by_cases heq : a = k
      · by_cases hb : b = Memory.unlisted
        · simp only [Memory.put, if_neg hlt, if_pos heq, if_pos hb]
          rw [Memory.lookup_below h.2 (by omega), hb]
        · simp [Memory.put, heq, hb, Memory.lookup]
      · have hne : k ≠ a := fun e => heq e.symm
        simp only [Memory.put, if_neg hlt, if_neg heq, Memory.lookup, if_neg hne]
        exact ih h.2

/-- A read at another key gives what it gave. -/
theorem Memory.lookup_put_other (m : Memory) {a x : Nat} (b : Byte) (hx : x ≠ a) :
    Memory.lookup (Memory.put m a b) x = Memory.lookup m x := by
  have hax : a ≠ x := fun e => hx e.symm
  induction m with
  | nil =>
    by_cases hb : b = Memory.unlisted
    · simp [Memory.put, hb]
    · simp [Memory.put, hb, Memory.lookup, hax]
  | cons c rest ih =>
    obtain ⟨k, d⟩ := c
    by_cases hlt : a < k
    · by_cases hb : b = Memory.unlisted
      · simp [Memory.put, hlt, hb]
      · simp [Memory.put, hlt, hb, Memory.lookup, hax]
    · by_cases heq : a = k
      · subst heq
        by_cases hb : b = Memory.unlisted
        · simp [Memory.put, hb, Memory.lookup, hax]
        · simp [Memory.put, hb, Memory.lookup, hax]
      · simp only [Memory.put, if_neg hlt, if_neg heq, Memory.lookup, ih]

/-- A read of the byte written. -/
theorem Memory.read_write_same {m : Memory} (a : Word) (b : Byte) (h : m.wf = true) :
    Memory.read (Memory.write m a b) a = b :=
  Memory.lookup_put_same b h

/-- A read of any other byte. -/
theorem Memory.read_write_other (m : Memory) {a x : Word} (b : Byte) (hx : x ≠ a) :
    Memory.read (Memory.write m a b) x = Memory.read m x :=
  Memory.lookup_put_other m b fun e => hx (BitVec.eq_of_toNat_eq e)

/-! ### Runs of addresses -/

@[simp] theorem span_length (a : Word) (k : Nat) : (span a k).length = k := by
  induction k generalizing a with
  | zero => rfl
  | succ k ih => simp [span, ih]

/-- Address `i` of a transfer from `a` is `a + i`, modulo 2^32. -/
theorem span_eq_map (a : Word) (k : Nat) : span a k = (List.range k).map fun i => a + BitVec.ofNat 32 i := by
  induction k generalizing a with
  | zero => rfl
  | succ k ih =>
    rw [span, ih, List.range_succ_eq_map, List.map_cons, List.map_map]
    congr 1
    · simp
    · apply List.map_congr_left
      intro i _
      simp only [Function.comp_apply]
      have : BitVec.ofNat 32 (Nat.succ i) = 1#32 + BitVec.ofNat 32 i := by
        apply BitVec.eq_of_toNat_eq
        simp [Nat.add_comm]
      rw [this, ← BitVec.add_assoc]
      rfl

/-- Membership in a transfer's addresses. -/
theorem mem_span {a x : Word} {k : Nat} : x ∈ span a k ↔ ∃ i, i < k ∧ x = a + BitVec.ofNat 32 i := by
  simp only [span_eq_map, List.mem_map, List.mem_range]
  constructor
  · rintro ⟨i, hi, rfl⟩
    exact ⟨i, hi, rfl⟩
  · rintro ⟨i, hi, rfl⟩
    exact ⟨i, hi, rfl⟩

/-- Two steps of a transfer of at most 2^32 bytes have different addresses. -/
theorem span_injective {a : Word} {i j : Nat} (hi : i < 2 ^ 32) (hj : j < 2 ^ 32)
    (h : a + BitVec.ofNat 32 i = a + BitVec.ofNat 32 j) : i = j := by
  have h2 : BitVec.ofNat 32 i = BitVec.ofNat 32 j := by
    simpa using h
  have h3 := congrArg BitVec.toNat h2
  rwa [BitVec.toNat_ofNat, BitVec.toNat_ofNat, Nat.mod_eq_of_lt hi, Nat.mod_eq_of_lt hj] at h3

/-- `mem_admits` on a whole transfer. -/
theorem State.admitsSpan_iff (s : State) (a : Word) (k : Nat) :
    s.admitsSpan a k = true ↔ ∀ i, i < k → memAdmits s.build (a + BitVec.ofNat 32 i) = true := by
  simp only [State.admitsSpan, List.all_eq_true]
  constructor
  · intro h i hi
    exact h _ (mem_span.mpr ⟨i, hi, rfl⟩)
  · intro h x hx
    obtain ⟨i, hi, rfl⟩ := mem_span.mp hx
    exact h i hi

@[simp] theorem Memory.readSpan_length (m : Memory) (a : Word) (k : Nat) : (Memory.readSpan m a k).length = k := by
  simp [Memory.readSpan]

/-- The bytes a transfer reads, in address order. -/
theorem Memory.readSpan_eq_map (m : Memory) (a : Word) (k : Nat) :
    Memory.readSpan m a k = (List.range k).map fun i => Memory.read m (a + BitVec.ofNat 32 i) := by
  rw [Memory.readSpan, span_eq_map, List.map_map]
  rfl

/-- A byte outside a run of writes reads as before. -/
theorem Memory.read_writeSpan_outside (m : Memory) (a : Word) (bytes : List Byte) {x : Word}
    (hx : ∀ i, i < bytes.length → x ≠ a + BitVec.ofNat 32 i) :
    Memory.read (Memory.writeSpan m a bytes) x = Memory.read m x := by
  induction bytes generalizing m a with
  | nil => rfl
  | cons b rest ih =>
    have h0 : x ≠ a := by simpa using hx 0 (by simp)
    rw [Memory.writeSpan, ih, Memory.read_write_other m b h0]
    intro i hi
    have h1 := hx (i + 1) (by simpa using hi)
    have hadd : a + BitVec.ofNat 32 (i + 1) = a + 1 + BitVec.ofNat 32 i := by
      apply BitVec.eq_of_toNat_eq
      simp only [BitVec.toNat_add, BitVec.toNat_ofNat]
      simp
      congr 1
      omega
    rwa [hadd] at h1

/-- Byte `i` of a run of at most 2^32 writes reads as byte `i` written. -/
theorem Memory.read_writeSpan_inside {m : Memory} (a : Word) (bytes : List Byte) (hm : m.wf = true)
    (hlen : bytes.length ≤ 2 ^ 32) (i : Nat) (hi : i < bytes.length) :
    Memory.read (Memory.writeSpan m a bytes) (a + BitVec.ofNat 32 i) = bytes[i] := by
  induction bytes generalizing m a i with
  | nil => simp at hi
  | cons b rest ih =>
    have hadd : ∀ j, a + BitVec.ofNat 32 (j + 1) = a + 1 + BitVec.ofNat 32 j := by
      intro j
      apply BitVec.eq_of_toNat_eq
      simp only [BitVec.toNat_add, BitVec.toNat_ofNat]
      simp
      congr 1
      omega
    rw [Memory.writeSpan]
    cases i with
    | zero =>
      simp only [List.getElem_cons_zero]
      have ha : a + BitVec.ofNat 32 0 = a := by simp
      rw [ha, Memory.read_writeSpan_outside, Memory.read_write_same a b hm]
      intro j hj
      rw [← hadd j]
      intro hc
      have hc' : a + BitVec.ofNat 32 0 = a + BitVec.ofNat 32 (j + 1) := by rw [ha]; exact hc
      have hl : j + 1 < 2 ^ 32 := by
        simp only [List.length_cons] at hlen
        omega
      have := span_injective (by norm_num) hl hc'
      omega
    | succ j =>
      rw [hadd j]
      simp only [List.getElem_cons_succ]
      exact ih (a + 1) (Memory.write_wf a b hm) (by simp only [List.length_cons] at hlen; omega) j
        (by simpa using hi)

/-! ### Little-endian values -/

/-- The little-endian value of `n` bytes is below 2^(8n). -/
theorem leValue_lt (bytes : List Byte) : leValue bytes < 256 ^ bytes.length := by
  induction bytes with
  | nil => simp [leValue]
  | cons b rest ih =>
    have hb : b.toNat < 256 := b.isLt
    simp only [leValue, List.length_cons, pow_succ]
    omega

/-- The little-endian value as the sum 20 rule R101 writes. -/
theorem leValue_map_range (f : Nat → Byte) (n : Nat) :
    leValue ((List.range n).map f) = (Finset.range n).sum fun i => (f i).toNat * 2 ^ (8 * i) := by
  induction n generalizing f with
  | zero => rfl
  | succ n ih =>
    rw [List.range_succ_eq_map, List.map_cons, List.map_map, leValue, ih, Finset.sum_range_succ', Finset.mul_sum]
    simp only [Function.comp_apply, Nat.mul_zero, pow_zero, Nat.mul_one]
    rw [Nat.add_comm]
    congr 1
    apply Finset.sum_congr rfl
    intro i _
    rw [Nat.mul_add, pow_add]
    ring

end Sys2Proof.Machine
end

