-- ==== Sys2Proof/Laws/Ring.lean ====
section
/-! SUPPORT. The rings: each operation keeps the invariant of 10 rule R33, and what it does to the FIFO's contents. -/

namespace Sys2Proof.Machine

/-! ### Capacities -/

/-- A legal capacity: a power of two up to 2^16 (00 rule R6). -/
def IsCap (c : Nat) : Prop := ∃ k, k ≤ 16 ∧ c = 2 ^ k

theorem isCap_cap (b : Build) (r : RingSel) : IsCap (b.cap r) := by
  cases r
  · exact ⟨b.kRx.val, by omega, rfl⟩
  · exact ⟨b.kTx.val, by omega, rfl⟩

theorem State.isCap (s : State) (r : RingSel) : IsCap (s.cap r) := isCap_cap s.build r

theorem IsCap.pos {c : Nat} (h : IsCap c) : 0 < c := by
  obtain ⟨k, _, rfl⟩ := h
  exact Nat.two_pow_pos k

theorem IsCap.le {c : Nat} (h : IsCap c) : c ≤ 65536 := by
  obtain ⟨k, hk, rfl⟩ := h
  calc 2 ^ k ≤ 2 ^ 16 := Nat.pow_le_pow_right (by norm_num) hk
    _ = 65536 := by norm_num

/-- The mask of 40 rule R201 is the modulus: "capacity must be a power of two so this reduces to a bit mask". -/
theorem IsCap.nextIndex_eq {c : Nat} (h : IsCap c) (i : Nat) : nextIndex c i = (i + 1) % c := by
  obtain ⟨k, _, rfl⟩ := h
  exact Nat.and_two_pow_sub_one_eq_mod (i + 1) k

/-! ### Contents -/

@[simp] theorem Ring.contents_length (c : Nat) (r : Ring) : (Ring.contents c r).length = r.len := by
  simp [Ring.contents]

theorem Ring.contents_empty {c : Nat} {r : Ring} (h : r.len = 0) : Ring.contents c r = [] := by
  simp [Ring.contents, h]

/-- Byte `j` of the contents (10 rule R33). -/
theorem Ring.contents_getElem (c : Nat) (r : Ring) (j : Nat) (h : j < (Ring.contents c r).length) :
    (Ring.contents c r)[j] = r.store.getD ((r.ridx + j) % c) 0 := by
  simp [Ring.contents]

@[simp] theorem Ring.create_len (c : Nat) : (Ring.create c).len = 0 := rfl
theorem Ring.create_wf {c : Nat} (h : IsCap c) : Ring.Wf c (Ring.create c) := by
  have := h.pos
  exact ⟨by simp [Ring.create], this, Nat.zero_le _, (Nat.zero_mod c).symm⟩
theorem Ring.create_eq_fresh (c : Nat) : Ring.create c = Ring.fresh c := rfl
theorem Ring.create_contents (c : Nat) : Ring.contents c (Ring.create c) = [] := rfl

/-- `Push` keeps the invariant on a ring that is not full. -/
theorem Ring.push_wf {c : Nat} (hc : IsCap c) {r : Ring} (h : Ring.Wf c r) (hl : r.len < c) (b : Byte) :
    Ring.Wf c (Ring.push c r b) := by
  obtain ⟨hs, hr, _, hw⟩ := h
  refine ⟨by simpa [Ring.push] using hs, hr, hl, ?_⟩
  simp only [Ring.push, hc.nextIndex_eq, hw]
  rw [Nat.mod_add_mod, Nat.add_assoc]

/-- `Push` appends its byte to the contents. -/
theorem Ring.push_contents {c : Nat} {r : Ring} (h : Ring.Wf c r) (hl : r.len < c) (b : Byte) :
    Ring.contents c (Ring.push c r b) = Ring.contents c r ++ [b] := by
  obtain ⟨hs, hr, _, hw⟩ := h
  have hwlt : r.widx < r.store.length := by rw [hs, hw]; exact Nat.mod_lt _ (by omega)
  simp only [Ring.contents, Ring.push, List.range_succ, List.map_append, List.map_cons, List.map_nil]
  congr 1
  · apply List.map_congr_left
    intro j hj
    have hj' : j < r.len := List.mem_range.mp hj
    have hne : r.widx ≠ (r.ridx + j) % c := by
      rw [hw]
      intro hc'
      have h1 : (r.ridx + r.len) % c = (r.ridx + j) % c := hc'
      have h2 : r.len % c = j % c := Nat.ModEq.add_left_cancel' r.ridx h1
      rw [Nat.mod_eq_of_lt hl, Nat.mod_eq_of_lt (by omega)] at h2
      omega
    simp only [List.getD_eq_getElem?_getD, List.getElem?_set_ne hne]
  · rw [← hw]
    simp [List.getD_eq_getElem?_getD, List.getElem?_set_self hwlt]

/-- Taking a byte off keeps the invariant on a ring that is not empty. -/
theorem Ring.drop_wf {c : Nat} (hc : IsCap c) {r : Ring} (h : Ring.Wf c r) (hl : 0 < r.len) :
    Ring.Wf c (Ring.drop c r) := by
  obtain ⟨hs, hr, hle, hw⟩ := h
  refine ⟨hs, ?_, ?_, ?_⟩
  · simp only [Ring.drop, hc.nextIndex_eq]
    exact Nat.mod_lt _ hc.pos
  · simp only [Ring.drop]
    omega
  · simp only [Ring.drop, hc.nextIndex_eq, hw]
    rw [Nat.mod_add_mod]
    congr 1
    omega

/-- `Pop` returns the oldest byte and leaves the rest. -/
theorem Ring.contents_eq_head_cons {c : Nat} (hc : IsCap c) {r : Ring} (h : Ring.Wf c r) (hl : 0 < r.len) :
    Ring.contents c r = r.head :: Ring.contents c (Ring.drop c r) := by
  obtain ⟨_, hr, _, _⟩ := h
  obtain ⟨n, hn⟩ : ∃ n, r.len = n + 1 := ⟨r.len - 1, by omega⟩
  simp only [Ring.contents, Ring.drop, Ring.head, hn, Nat.add_sub_cancel, List.range_succ_eq_map, List.map_cons,
    List.map_map, hc.nextIndex_eq]
  congr 1
  · simp [Nat.mod_eq_of_lt hr]
  · apply List.map_congr_left
    intro j _
    simp only [Function.comp_apply]
    rw [Nat.mod_add_mod]
    congr 2
    omega

/-- `Push` as one record update (40 rules R201, R202). -/
theorem Ring.push_eq {c : Nat} (hc : IsCap c) (r : Ring) (b : Byte) :
    Ring.push c r b =
      { store := r.store.set r.widx b, widx := (r.widx + 1) % c, ridx := r.ridx, len := r.len + 1 } := by
  rw [Ring.push, hc.nextIndex_eq]

/-- `Pop` as one record update: the store is left in place (40 rules R201, R203). -/
theorem Ring.drop_eq {c : Nat} (hc : IsCap c) (r : Ring) :
    Ring.drop c r = { r with ridx := (r.ridx + 1) % c, len := r.len - 1 } := by
  rw [Ring.drop, hc.nextIndex_eq]

@[simp] theorem Ring.push_len (c : Nat) (r : Ring) (b : Byte) : (Ring.push c r b).len = r.len + 1 := rfl
@[simp] theorem Ring.push_ridx (c : Nat) (r : Ring) (b : Byte) : (Ring.push c r b).ridx = r.ridx := rfl
@[simp] theorem Ring.drop_len (c : Nat) (r : Ring) : (Ring.drop c r).len = r.len - 1 := rfl
@[simp] theorem Ring.drop_widx (c : Nat) (r : Ring) : (Ring.drop c r).widx = r.widx := rfl
@[simp] theorem Ring.drop_store (c : Nat) (r : Ring) : (Ring.drop c r).store = r.store := rfl

/-! ### Several bytes -/

@[simp] theorem Ring.pushAll_len (c : Nat) (r : Ring) (bytes : List Byte) :
    (Ring.pushAll c r bytes).len = r.len + bytes.length := by
  induction bytes generalizing r with
  | nil => rfl
  | cons b rest ih =>
    rw [Ring.pushAll, ih, Ring.push_len, List.length_cons]
    omega

@[simp] theorem Ring.pushAll_ridx (c : Nat) (r : Ring) (bytes : List Byte) :
    (Ring.pushAll c r bytes).ridx = r.ridx := by
  induction bytes generalizing r with
  | nil => rfl
  | cons b rest ih => rw [Ring.pushAll, ih, Ring.push_ridx]

/-- Pushing bytes that fit keeps the invariant and appends them to the contents. -/
theorem Ring.pushAll_spec {c : Nat} (hc : IsCap c) {r : Ring} (h : Ring.Wf c r) (bytes : List Byte)
    (hl : r.len + bytes.length ≤ c) :
    Ring.Wf c (Ring.pushAll c r bytes) ∧ Ring.contents c (Ring.pushAll c r bytes) = Ring.contents c r ++ bytes := by
  induction bytes generalizing r with
  | nil => exact ⟨h, by simp [Ring.pushAll]⟩
  | cons b rest ih =>
    simp only [List.length_cons] at hl
    have hlt : r.len < c := by omega
    have hih := ih (Ring.push_wf hc h hlt b) (by rw [Ring.push_len]; omega)
    rw [Ring.pushAll]
    refine ⟨hih.1, ?_⟩
    rw [hih.2, Ring.push_contents h hlt]
    simp

/-- The write index moves past the bytes pushed (40 rule R201). -/
theorem Ring.pushAll_widx {c : Nat} (hc : IsCap c) {r : Ring} (h : Ring.Wf c r) (bytes : List Byte)
    (hl : r.len + bytes.length ≤ c) : (Ring.pushAll c r bytes).widx = (r.widx + bytes.length) % c := by
  have hw := (Ring.pushAll_spec hc h bytes hl).1.2.2.2
  rw [hw, Ring.pushAll_ridx, Ring.pushAll_len, h.2.2.2, Nat.mod_add_mod, Nat.add_assoc]

@[simp] theorem Ring.takeN_length (c k : Nat) (r : Ring) : (Ring.takeN c k r).length = k := by
  induction k generalizing r with
  | zero => rfl
  | succ k ih => simp [Ring.takeN, ih]

@[simp] theorem Ring.dropN_len (c k : Nat) (r : Ring) : (Ring.dropN c k r).len = r.len - k := by
  induction k generalizing r with
  | zero => rfl
  | succ k ih =>
    rw [Ring.dropN, ih, Ring.drop_len]
    omega

@[simp] theorem Ring.dropN_widx (c k : Nat) (r : Ring) : (Ring.dropN c k r).widx = r.widx := by
  induction k generalizing r with
  | zero => rfl
  | succ k ih => rw [Ring.dropN, ih, Ring.drop_widx]

@[simp] theorem Ring.dropN_store (c k : Nat) (r : Ring) : (Ring.dropN c k r).store = r.store := by
  induction k generalizing r with
  | zero => rfl
  | succ k ih => rw [Ring.dropN, ih, Ring.drop_store]

/-- Removing `k ≤ LEN` bytes keeps the invariant, returns the `k` oldest bytes in order and leaves the rest. -/
theorem Ring.dropN_spec {c : Nat} (hc : IsCap c) {r : Ring} (h : Ring.Wf c r) {k : Nat} (hk : k ≤ r.len) :
    Ring.Wf c (Ring.dropN c k r) ∧ Ring.takeN c k r = (Ring.contents c r).take k ∧
      Ring.contents c (Ring.dropN c k r) = (Ring.contents c r).drop k := by
  induction k generalizing r with
  | zero => exact ⟨h, rfl, rfl⟩
  | succ k ih =>
    have hpos : 0 < r.len := by omega
    obtain ⟨hwf, htake, hdrop⟩ := ih (Ring.drop_wf hc h hpos) (by rw [Ring.drop_len]; omega)
    rw [Ring.dropN, Ring.takeN, Ring.contents_eq_head_cons hc h hpos]
    exact ⟨hwf, by rw [htake, List.take_succ_cons], by rw [hdrop, List.drop_succ_cons]⟩

/-- The read index moves past the bytes removed (40 rule R201). -/
theorem Ring.dropN_ridx {c : Nat} (hc : IsCap c) {r : Ring} (h : Ring.Wf c r) {k : Nat} (hk : k ≤ r.len) :
    (Ring.dropN c k r).ridx = (r.ridx + k) % c := by
  induction k generalizing r with
  | zero => simp [Ring.dropN, Nat.mod_eq_of_lt h.2.1]
  | succ k ih =>
    have hpos : 0 < r.len := by omega
    rw [Ring.dropN, ih (Ring.drop_wf hc h hpos) (by rw [Ring.drop_len]; omega)]
    simp only [Ring.drop, hc.nextIndex_eq]
    rw [Nat.mod_add_mod]
    congr 1
    omega

end Sys2Proof.Machine
end

