-- ==== Sys2Proof/Laws/Ops.lean ====
section
/-! SUPPORT. The shared operations: what each can do, said once, for the meanings and the agents' steps to cite. -/

namespace Sys2Proof.Machine

/-! ### Issuing a command (30 rule R140) -/

theorem State.issue_idle {s : State} (h : s.port.busy = false) (body : State → Host.Outcome State Fault Refusal) :
    s.issue body = body s.latch := by
  simp [State.issue, h]

theorem State.issue_busy {s : State} (h : s.port.busy = true) (body : State → Host.Outcome State Fault Refusal) :
    s.issue body = .next (s.raise .cmdWhileBusy) := by
  simp [State.issue, h]

/-- If issuing answers a next state, either the port was busy and the fault was taken, or the command's own rule
answered it. -/
theorem State.issue_next {s t : State} {body : State → Host.Outcome State Fault Refusal}
    (h : s.issue body = .next t) :
    (s.port.busy = true ∧ t = s.raise .cmdWhileBusy) ∨ (s.port.busy = false ∧ body s.latch = .next t) := by
  cases hb : s.port.busy with
  | true =>
    rw [State.issue_busy hb] at h
    exact .inl ⟨rfl, (Host.Outcome.next.inj h).symm⟩
  | false =>
    rw [State.issue_idle hb] at h
    exact .inr ⟨rfl, h⟩

theorem orStuck_next {o : Option State} {t : State} : orStuck o = .next t ↔ o = some t := by
  cases o <;> simp [orStuck]

/-- Every command issued while BUSY = 1 takes CMD_WHILE_BUSY and has no other effect (30 rule R140). -/
theorem exec_busy {s : State} (h : s.port.busy = true) (i : Instr) : exec i s = .next (s.raise .cmdWhileBusy) := by
  cases i <;> simp only [exec, execRbInit, execRbEnq, execRbDeq, execRbLen, execRbEmpty, execSerInit, execSerWrite, execSerReadByte,
    execTmrInit, execTmrNow, execTmrMark, execTmrElapsed, execPbLoad, execPbStart, execPbStop, execSeqPlay,
    State.issue_busy h]

/-- A meaning answers a next state or the one named stop; it never refuses. -/
theorem exec_cases (i : Instr) (s : State) : (∃ t, exec i s = .next t) ∨ exec i s = .fault .memNotAdmitted := by
  have horStuck : ∀ o : Option State, (∃ t, orStuck o = .next t) ∨ orStuck o = .fault .memNotAdmitted := by
    intro o
    cases o with
    | none => exact .inr rfl
    | some t => exact .inl ⟨t, rfl⟩
  cases hb : s.port.busy with
  | true => exact .inl ⟨_, exec_busy hb i⟩
  | false =>
    cases i with
    | rbEnq r => simpa only [exec, execRbEnq, State.issue_idle hb] using horStuck _
    | rbDeq r => simpa only [exec, execRbDeq, State.issue_idle hb] using horStuck _
    | _ =>
      left
      simp only [exec, execRbInit, execRbLen, execRbEmpty, execSerInit, execSerWrite, execSerReadByte,
    execTmrInit, execTmrNow, execTmrMark, execTmrElapsed, execPbLoad, execPbStart, execPbStop, execSeqPlay,
        State.issue_idle hb]
      exact ⟨_, rfl⟩

/-- If a command answers a next state, either the port was busy and the fault was taken, or that state is the one
its rule writes, from the latched operands. -/
theorem exec_next {i : Instr} {s t : State} (h : exec i s = .next t) :
    (s.port.busy = true ∧ t = s.raise .cmdWhileBusy) ∨
      (s.port.busy = false ∧ match (generalizing := false) i with
        | .rbInit r => t = s.latch.createRing r
        | .rbEnq r => s.latch.enqueue r s.port.argAddr s.port.argN = some t
        | .rbDeq r => s.latch.dequeue r s.port.argAddr s.port.argN = some t
        | .rbLen r => t = s.latch.setResult (BitVec.ofNat 32 (s.ring r).len)
        | .rbEmpty r => t = s.latch.setResult (if s.empty r then 1 else 0)
        | .serInit =>
          t = { (s.latch.createRing .rx).createRing .tx with ser := { s.ser with txie := false, serEn := true } }
        | .serWrite => t = s.latch.hold .serWrite
        | .serReadByte => t = s.latch.hold .serReadByte
        | .tmrInit => t = { s.latch with tmr := { s.tmr with tickEn := true } }
        | .tmrNow => t = s.latch.setResult s.now
        | .tmrMark => t = s.latch.markTick
        | .tmrElapsed => t = s.latch.setResult s.elapsed
        | .pbLoad =>
          t = if validBuffer s.build s.port.argAddr s.port.argN then s.latch.loadBuffer s.port.argAddr s.port.argN
            else s.latch.raise .pbBadBuffer
        | .pbStart => t = if s.pb.pbCnt = 0 then s.latch.raise .pbBadBuffer else s.latch.start
        | .pbStop =>
          t = { s.latch with
            pb := { s.pb with chEn := false, done := false, pbst := .idle }
            seq := { s.seq with active := false } }
        | .seqPlay =>
          t = if s.descsValid then
              { s.latch.playNote 0 with
                seq := { (s.latch.playNote 0).seq with t0 := s.tmr.tick, active := true } }
            else s.latch.raise .seqBadDesc) := by
  cases hb : s.port.busy with
  | true =>
    rw [exec_busy hb] at h
    exact .inl ⟨rfl, (Host.Outcome.next.inj h).symm⟩
  | false =>
    refine .inr ⟨rfl, ?_⟩
    cases i <;> simp only [exec, execRbInit, execRbEnq, execRbDeq, execRbLen, execRbEmpty, execSerInit, execSerWrite,
      execSerReadByte, execTmrInit, execTmrNow, execTmrMark, execTmrElapsed, execPbLoad, execPbStart, execPbStop,
      execSeqPlay, State.issue_idle hb, orStuck_next] at h ⊢
    case rbEnq => exact h
    case rbDeq => exact h
    case rbEmpty r => cases r <;> exact (Host.Outcome.next.inj h).symm
    case rbLen r => cases r <;> exact (Host.Outcome.next.inj h).symm
    all_goals exact (Host.Outcome.next.inj h).symm

/-! ### RB_ENQ and RB_DEQ (40 rules R205, R206) -/

/-- If RB_ENQ's pseudocode answers a state, it pushed some bytes that fit, and set RESULT. -/
theorem State.enqueue_some {s t : State} {r : RingSel} {a n : Word} (h : s.enqueue r a n = some t) :
    ∃ bytes v, bytes.length ≤ s.cap r - (s.ring r).len ∧
      t = (s.setRing r (Ring.pushAll (s.cap r) (s.ring r) bytes)).setResult v := by
  unfold State.enqueue at h
  split at h
  · exact ⟨[], errValue, by simp, by simpa [Ring.pushAll] using (Option.some.inj h).symm⟩
  · split at h
    · exact ⟨[], 0, by simp, by simpa [Ring.pushAll] using (Option.some.inj h).symm⟩
    · split at h
      · refine ⟨Memory.readSpan s.mem a (s.acceptCount r n), _, ?_, (Option.some.inj h).symm⟩
        rw [Memory.readSpan_length, State.acceptCount]
        omega
      · cases h

/-- RB_ENQ's pseudocode with a null source (40 rule R205). -/
theorem State.enqueue_null (s : State) (r : RingSel) (n : Word) : s.enqueue r 0 n = some (s.setResult errValue) := by
  simp [State.enqueue]

/-- RB_ENQ's pseudocode when nothing is accepted (40 rule R205). -/
theorem State.enqueue_nothing {s : State} {r : RingSel} {a n : Word} (ha : a ≠ 0)
    (h : n = 0 ∨ (s.ring r).len = s.cap r) : s.enqueue r a n = some (s.setResult 0) := by
  simp only [State.enqueue, if_neg ha, if_pos h]

/-- RB_ENQ's pseudocode when bytes are accepted and admitted (40 rule R205). -/
theorem State.enqueue_accept {s : State} {r : RingSel} {a n : Word} (ha : a ≠ 0) (hn : n ≠ 0)
    (hl : (s.ring r).len ≠ s.cap r) (hadm : s.admitsSpan a (s.acceptCount r n) = true) :
    s.enqueue r a n = some ((s.setRing r (Ring.pushAll (s.cap r) (s.ring r)
      (Memory.readSpan s.mem a (s.acceptCount r n)))).setResult (BitVec.ofNat 32 (s.acceptCount r n))) := by
  have h : ¬ (n = 0 ∨ (s.ring r).len = s.cap r) := fun h => h.elim hn hl
  simp only [State.enqueue, if_neg ha, if_neg h, if_pos hadm]

/-- RB_ENQ's pseudocode when a byte it needs is not admitted (20 rule R104). -/
theorem State.enqueue_stuck {s : State} {r : RingSel} {a n : Word} (ha : a ≠ 0) (hn : n ≠ 0)
    (hl : (s.ring r).len ≠ s.cap r) (hadm : ¬ s.admitsSpan a (s.acceptCount r n) = true) :
    s.enqueue r a n = none := by
  have h : ¬ (n = 0 ∨ (s.ring r).len = s.cap r) := fun h => h.elim hn hl
  simp only [State.enqueue, if_neg ha, if_neg h, if_neg hadm]

/-- If RB_DEQ's pseudocode answers a state, it removed some of the ring's bytes, wrote memory, and set RESULT. -/
theorem State.dequeue_some {s t : State} {r : RingSel} {a n : Word} (h : s.dequeue r a n = some t) :
    ∃ k bytes v, k ≤ (s.ring r).len ∧
      t = ((s.storeBytes a bytes).setRing r (Ring.dropN (s.cap r) k (s.ring r))).setResult v := by
  unfold State.dequeue at h
  split at h
  · refine ⟨0, [], 0, Nat.zero_le _, ?_⟩
    rw [← Option.some.inj h]
    cases r <;> rfl
  · split at h
    · refine ⟨s.removeCount r n, _, _, ?_, (Option.some.inj h).symm⟩
      rw [State.removeCount]
      omega
    · cases h

/-- RB_DEQ's pseudocode when nothing is removed (40 rule R206). -/
theorem State.dequeue_nothing {s : State} {r : RingSel} {a n : Word} (h : (s.ring r).len = 0 ∨ a = 0 ∨ n = 0) :
    s.dequeue r a n = some (s.setResult 0) := by
  simp only [State.dequeue, if_pos h]

/-- RB_DEQ's pseudocode when bytes are removed and admitted (40 rule R206). -/
theorem State.dequeue_remove {s : State} {r : RingSel} {a n : Word} (hl : (s.ring r).len ≠ 0) (ha : a ≠ 0)
    (hn : n ≠ 0) (hadm : s.admitsSpan a (s.removeCount r n) = true) :
    s.dequeue r a n = some (((s.storeBytes a (Ring.takeN (s.cap r) (s.removeCount r n) (s.ring r))).setRing r
      (Ring.dropN (s.cap r) (s.removeCount r n) (s.ring r))).setResult (BitVec.ofNat 32 (s.removeCount r n))) := by
  have h : ¬ ((s.ring r).len = 0 ∨ a = 0 ∨ n = 0) := fun h => h.elim hl fun h => h.elim ha hn
  simp only [State.dequeue, if_neg h, if_pos hadm]

/-- RB_DEQ's pseudocode when a byte it needs is not admitted (20 rule R104). -/
theorem State.dequeue_stuck {s : State} {r : RingSel} {a n : Word} (hl : (s.ring r).len ≠ 0) (ha : a ≠ 0)
    (hn : n ≠ 0) (hadm : ¬ s.admitsSpan a (s.removeCount r n) = true) : s.dequeue r a n = none := by
  have h : ¬ ((s.ring r).len = 0 ∨ a = 0 ∨ n = 0) := fun h => h.elim hl fun h => h.elim ha hn
  simp only [State.dequeue, if_neg h, if_neg hadm]

/-! ### The register map (10 rule R50) -/

/-- The register at a register's own offset. -/
theorem Reg.ofOffset_offset (r : Reg) : Reg.ofOffset r.offset = some r := by cases r <;> decide

/-- A register found at an offset has that offset. -/
theorem Reg.offset_of_ofOffset {off : BitVec 8} {r : Reg} (h : Reg.ofOffset off = some r) : r.offset = off := by
  have := List.find?_some h
  simpa using this

/-- A bus read of a readable register (10 rule R80). -/
theorem State.busRead_readable {s : State} {r : Reg} {v : Word} (h : s.readReg r = some v) :
    s.busRead r.offset 32 = (v, s) := by
  simp [State.busRead, reachedReg, Reg.ofOffset_offset, h]

/-- A bus write of a register other than CMD (10 rules R81, R82). -/
theorem State.busWrite_reg {s : State} {r : Reg} (hr : r ≠ .cmd) (w : Word) :
    s.busWrite r.offset 32 w = .next ((s.writeReg r w).getD (s.raise .badReg)) := by
  cases r <;> first | exact absurd rfl hr | rfl

/-- A bus write of CMD issues a command (10 rule R81). -/
theorem State.busWrite_cmd (s : State) (w : Word) : s.busWrite 0x00 32 w = s.writeCmd w := rfl

/-! ### The buffer check and the transfer (43 rules R310, R312, R320) -/

theorem bps_pos (b : Bps) : 0 < b.toNat := by cases b <;> decide

theorem bps_le (b : Bps) : b.toNat ≤ 4 := by cases b <;> decide

/-- `valid(a, n)` as the four conditions of 43 rule R310. -/
theorem validBuffer_iff (b : Build) (a n : Word) :
    validBuffer b a n = true ↔
      n ≠ 0 ∧ a.toNat % b.bps.toNat = 0 ∧ n.toNat * b.bps.toNat ≤ 0xFFFFFFFF ∧
        a.toNat + n.toNat * b.bps.toNat ≤ 2 ^ 32 := by
  simp only [validBuffer, Bool.and_eq_true, decide_eq_true_eq, and_assoc]

/-- The byte count `Start()` programs does not wrap for a valid buffer (43 rules R310, R312). -/
theorem startBytes_toNat {b : Build} {a n : Word} (h : validBuffer b a n = true) :
    (n * BitVec.ofNat 32 b.bps.toNat).toNat = n.toNat * b.bps.toNat := by
  obtain ⟨_, _, h3, _⟩ := (validBuffer_iff b a n).mp h
  have hb := bps_le b.bps
  rw [BitVec.toNat_mul, BitVec.toNat_ofNat, Nat.mod_eq_of_lt (a := b.bps.toNat) (by omega),
    Nat.mod_eq_of_lt (by omega)]

/-! ### One turn -/

theorem State.takeTurn_host (s : State) : s.takeTurn .host = s.hostTurn := rfl

theorem State.takeTurn_agent (s : State) {a : Turn} (h : a ≠ .host) :
    s.takeTurn a = .next ((s.agentStep a).getD s) := by
  cases a <;> first | exact absurd rfl h | rfl

/-- If the HOST's turn answers a next state, either nothing changed (no access left, or one that has no step), or the
access was made in the state past it. -/
theorem State.hostTurn_next {s t : State} (h : s.hostTurn = .next t) :
    t = s ∨ ∃ op rest, s.env.host = op :: rest ∧ State.hostAccess (s.setHost rest) op = .next t := by
  unfold State.hostTurn at h
  split at h
  · exact .inl (Host.Outcome.next.inj h).symm
  · rename_i op rest heq
    split at h
    · rename_i u hu
      exact .inr ⟨op, rest, heq, by rw [hu, Host.Outcome.next.inj h]⟩
    · exact .inl (Host.Outcome.next.inj h).symm
    · cases h

/-- What a bus write can do (10 rules R81, R82; 30 rule R140). -/
theorem State.busWrite_cases {s : State} {off : BitVec 8} {bits : Nat} {w : Word} :
    (∃ c, s.busWrite off bits w = .next (s.raise c)) ∨
      (∃ r t, r ≠ .cmd ∧ s.writeReg r w = some t ∧ s.busWrite off bits w = .next t) ∨
      (bits = 32 ∧ off = 0 ∧ ∃ i, decode w = .ok i ∧ s.busWrite off bits w = exec i s) := by
  unfold State.busWrite
  cases hr : reachedReg off bits with
  | none => exact .inl ⟨.badReg, rfl⟩
  | some r =>
    by_cases hc : r = .cmd
    · subst hc
      simp only [reachedReg] at hr
      split at hr
      · rename_i hbits
        have hoff : off = 0 := (Reg.offset_of_ofOffset hr).symm
        simp only [State.writeCmd]
        cases hd : decode w with
        | ok i => exact .inr (.inr ⟨hbits, hoff, i, rfl, rfl⟩)
        | error e => exact .inl ⟨_, rfl⟩
      · cases hr
    · cases hw : s.writeReg r w with
      | none =>
        refine .inl ⟨.badReg, ?_⟩
        cases r <;> first | exact absurd rfl hc | simp [hw]
      | some t =>
        refine .inr (.inl ⟨r, t, hc, hw, ?_⟩)
        cases r <;> first | exact absurd rfl hc | simp [hw]

end Sys2Proof.Machine
end

