-- ==== Sys2Proof/Laws/Inv.lean ====
section
/-! SUPPORT. Each named update keeps the invariant of State, under the conditions its users meet. -/

namespace Sys2Proof.Machine

variable {s : State}

/-- A change of the agents' own state. -/
theorem State.Inv.setEnv (h : s.Inv) (e : Env) : State.Inv { s with env := e } :=
  ⟨h.rx, h.tx, h.port, h.pbState, h.pbPending, h.pbActive, h.pbDar, h.seqPlaying, h.err, h.mem, h.dac⟩

theorem State.Inv.latch (h : s.Inv) : s.latch.Inv :=
  ⟨h.rx, h.tx, h.port, h.pbState, h.pbPending, h.pbActive, h.pbDar, h.seqPlaying, h.err, h.mem, h.dac⟩

theorem State.Inv.setResult (h : s.Inv) (v : Word) : (s.setResult v).Inv :=
  ⟨h.rx, h.tx, h.port, h.pbState, h.pbPending, h.pbActive, h.pbDar, h.seqPlaying, h.err, h.mem, h.dac⟩

theorem State.Inv.hold (h : s.Inv) {op : HeldOp} (hop : op ≠ .none) : (s.hold op).Inv :=
  ⟨h.rx, h.tx, ⟨fun _ => hop, fun _ => rfl⟩, h.pbState, h.pbPending, h.pbActive, h.pbDar, h.seqPlaying, h.err,
    h.mem, h.dac⟩

theorem State.Inv.release (h : s.Inv) : s.release.Inv :=
  ⟨h.rx, h.tx, ⟨fun e => Bool.noConfusion e, fun e => absurd rfl e⟩, h.pbState, h.pbPending, h.pbActive, h.pbDar,
    h.seqPlaying, h.err, h.mem, h.dac⟩

/-- A change of the serial adapter's bits. -/
theorem State.Inv.setSer (h : s.Inv) (x : Serial) : State.Inv { s with ser := x } :=
  ⟨h.rx, h.tx, h.port, h.pbState, h.pbPending, h.pbActive, h.pbDar, h.seqPlaying, h.err, h.mem, h.dac⟩

/-- A change of the tick timer. -/
theorem State.Inv.setTmr (h : s.Inv) (x : Timer) : State.Inv { s with tmr := x } :=
  ⟨h.rx, h.tx, h.port, h.pbState, h.pbPending, h.pbActive, h.pbDar, h.seqPlaying, h.err, h.mem, h.dac⟩

/-- Bytes appended to the UART trace. -/
theorem State.Inv.setUartTx (h : s.Inv) (x : List Byte) : State.Inv { s with uartTx := x } :=
  ⟨h.rx, h.tx, h.port, h.pbState, h.pbPending, h.pbActive, h.pbDar, h.seqPlaying, h.err, h.mem, h.dac⟩

/-- Memory replaced by a canonical one. -/
theorem State.Inv.setMem (h : s.Inv) {m : Memory} (hm : m.wf = true) : State.Inv { s with mem := m } :=
  ⟨h.rx, h.tx, h.port, h.pbState, h.pbPending, h.pbActive, h.pbDar, h.seqPlaying, h.err, hm, h.dac⟩

theorem State.Inv.storeBytes (h : s.Inv) (a : Word) (bytes : List Byte) : (s.storeBytes a bytes).Inv :=
  h.setMem (Memory.writeSpan_wf a bytes h.mem)

theorem Cause.code_range (c : Cause) : 1 ≤ c.code.toNat ∧ c.code.toNat ≤ 5 := by cases c <;> decide

/-- Taking a fault records one of the assigned causes (60 rules R402, R403). -/
theorem State.Inv.raise (h : s.Inv) (c : Cause) : (s.raise c).Inv := by
  refine ⟨h.rx, h.tx, h.port, h.pbState, h.pbPending, h.pbActive, h.pbDar, h.seqPlaying, ?_, h.mem, h.dac⟩
  refine ⟨fun e => Bool.noConfusion e, fun _ => ?_⟩
  simp only [State.raise_err]
  cases hf : s.err.fault with
  | true => simpa using h.err.2 hf
  | false => simpa using c.code_range

/-- Ring `r` replaced by one that meets the ring invariant. -/
theorem State.Inv.setRing (h : s.Inv) (r : RingSel) {x : Ring} (hx : Ring.Wf (s.cap r) x) : (s.setRing r x).Inv := by
  cases r
  · exact ⟨hx, h.tx, h.port, h.pbState, h.pbPending, h.pbActive, h.pbDar, h.seqPlaying, h.err, h.mem, h.dac⟩
  · exact ⟨h.rx, hx, h.port, h.pbState, h.pbPending, h.pbActive, h.pbDar, h.seqPlaying, h.err, h.mem, h.dac⟩

/-- The ring invariant of either ring. -/
theorem State.Inv.ring (h : s.Inv) (r : RingSel) : Ring.Wf (s.cap r) (s.ring r) := by
  cases r
  · exact h.rx
  · exact h.tx

theorem State.Inv.createRing (h : s.Inv) (r : RingSel) : (s.createRing r).Inv :=
  h.setRing r (Ring.create_wf (s.isCap r))

theorem State.Inv.enqueue (h : s.Inv) {t : State} {r : RingSel} {a n : Word} (he : s.enqueue r a n = some t) :
    t.Inv := by
  obtain ⟨bytes, v, hlen, rfl⟩ := State.enqueue_some he
  have hle := (h.ring r).2.2.1
  exact (h.setRing r (Ring.pushAll_spec (s.isCap r) (h.ring r) bytes (by omega)).1).setResult v

theorem State.Inv.dequeue (h : s.Inv) {t : State} {r : RingSel} {a n : Word} (he : s.dequeue r a n = some t) :
    t.Inv := by
  obtain ⟨k, bytes, v, hk, rfl⟩ := State.dequeue_some he
  exact (State.Inv.setRing (h.storeBytes a bytes) r (Ring.dropN_spec (s.isCap r) (h.ring r) hk).1).setResult v

theorem State.Inv.pushOrDrop (h : s.Inv) (r : RingSel) (b : Byte) : (s.pushOrDrop r b).Inv := by
  unfold State.pushOrDrop
  split
  · rename_i hlt
    exact h.setRing r (Ring.push_wf (s.isCap r) (h.ring r) hlt b)
  · exact h

theorem State.Inv.receive (h : s.Inv) (x : RxByte) : (s.receive x).Inv := by
  unfold State.receive
  split
  · exact h
  · refine State.Inv.pushOrDrop ?_ .rx x.byte
    unfold State.echoByte
    split
    · exact (h.pushOrDrop .tx x.byte).setSer _
    · exact h

/-! ### Playback -/

/-- A new pending buffer, which the buffer check passed. -/
theorem State.Inv.loadBuffer (h : s.Inv) {a n : Word} (hv : validBuffer s.build a n = true) :
    (s.loadBuffer a n).Inv := by
  refine ⟨h.rx, h.tx, h.port, h.pbState, ⟨fun _ => hv, fun _ => ?_⟩, h.pbActive, h.pbDar, h.seqPlaying, h.err, h.mem,
    h.dac⟩
  exact ((validBuffer_iff s.build a n).mp hv).1

/-- `Start()` with a pending buffer (43 rules R312, R323). -/
theorem State.Inv.start (h : s.Inv) (hn : s.pb.pbCnt ≠ 0) : s.start.Inv := by
  have hv := h.pbPending.1 hn
  have hb := startBytes_toNat hv
  obtain ⟨h1, h2, h3, h4⟩ := (validBuffer_iff _ _ _).mp hv
  have hpos := bps_pos s.build.bps
  have hcnt : 0 < s.pb.pbCnt.toNat := Nat.pos_of_ne_zero fun e => h1 (BitVec.eq_of_toNat_eq (by simpa using e))
  have hbcr : 0 < s.start.pb.bcr.toNat := by
    simp only [State.start_pb, Playback.start, hb]
    exact Nat.mul_pos hcnt hpos
  refine ⟨h.rx, h.tx, h.port, ⟨?_, ?_, ?_, ?_⟩, ⟨fun _ => hv, fun _ => hn⟩, fun _ => ⟨h2, ?_, ?_⟩, ⟨.inr rfl, fun _ => rfl⟩,
    ?_, h.err, h.mem, h.dac⟩
  · intro e
    cases e
  · intro _
    exact ⟨rfl, rfl, hbcr⟩
  · intro e
    cases e
  · intro e
    cases e
  · simp only [State.start_pb, Playback.start, State.start_build, hb, Nat.mul_mod_left]
  · simp only [State.start_pb, Playback.start, hb]
    exact h4
  · intro _ e
    cases e

/-- While the channel is enabled it is in Armed or Streaming, so bytes remain (10 rule R39). -/
theorem State.Inv.bcr_pos (h : s.Inv) (hc : s.pb.chEn = true) : 0 < s.pb.bcr.toNat := by
  obtain ⟨h1, h2, h3, h4⟩ := h.pbState
  cases hp : s.pb.pbst with
  | idle => simp [(h1 hp).1] at hc
  | armed => exact (h2 hp).2.2
  | streaming => exact (h3 hp).2.2
  | reload => simp [(h4 hp).1] at hc

/-- BCR falls by BPS exactly while the channel is enabled (43 rule R320). -/
theorem State.Inv.bcr_sub (h : s.Inv) (hc : s.pb.chEn = true) :
    s.build.bps.toNat ≤ s.pb.bcr.toNat ∧
      (s.pb.bcr - BitVec.ofNat 32 s.build.bps.toNat).toNat = s.pb.bcr.toNat - s.build.bps.toNat := by
  have hpos := h.bcr_pos hc
  have hmod := (h.pbActive hc).2.1
  have hb := bps_le s.build.bps
  have hle : s.build.bps.toNat ≤ s.pb.bcr.toNat := Nat.le_of_dvd hpos (Nat.dvd_of_mod_eq_zero hmod)
  refine ⟨hle, ?_⟩
  have hof : (BitVec.ofNat 32 s.build.bps.toNat).toNat = s.build.bps.toNat := by
    rw [BitVec.toNat_ofNat, Nat.mod_eq_of_lt (by omega)]
  rw [BitVec.toNat_sub_of_le (by rw [BitVec.le_def, hof]; exact hle), hof]

/-- The channel after the last trigger of a transfer (43 rule R320). -/
theorem Playback.advance_last {b : Build} {p : Playback} (h : p.bcr - BitVec.ofNat 32 b.bps.toNat = 0) :
    Playback.advance b p = { p with
      sar := p.sar + BitVec.ofNat 32 b.bps.toNat
      bcr := 0
      chEn := false
      done := true
      pbst := .reload } := by
  have h2 : Playback.advance b p = { p with
      sar := p.sar + BitVec.ofNat 32 b.bps.toNat
      bcr := p.bcr - BitVec.ofNat 32 b.bps.toNat
      chEn := false
      done := true
      pbst := .reload } := if_pos h
  rw [h2, h]

/-- The channel after any other trigger (43 rule R320). -/
theorem Playback.advance_more {b : Build} {p : Playback} (h : p.bcr - BitVec.ofNat 32 b.bps.toNat ≠ 0) :
    Playback.advance b p = { p with
      sar := p.sar + BitVec.ofNat 32 b.bps.toNat
      bcr := p.bcr - BitVec.ofNat 32 b.bps.toNat
      pbst := .streaming } := if_neg h

/-- The pending buffer and DAR are not written by a trigger. -/
theorem Playback.advance_fields (b : Build) (p : Playback) :
    (Playback.advance b p).pbSrc = p.pbSrc ∧ (Playback.advance b p).pbCnt = p.pbCnt ∧
      (Playback.advance b p).dar = p.dar ∧ (Playback.advance b p).srtEn = p.srtEn ∧
      (Playback.advance b p).sar = p.sar + BitVec.ofNat 32 b.bps.toNat ∧
      (Playback.advance b p).bcr = p.bcr - BitVec.ofNat 32 b.bps.toNat := by
  unfold Playback.advance
  dsimp only
  split <;> exact ⟨rfl, rfl, rfl, rfl, rfl, rfl⟩

/-- A trigger in an enabled channel keeps the invariant (43 rule R320). -/
theorem State.Inv.advance (h : s.Inv) (hc : s.pb.chEn = true) :
    State.Inv { s with pb := Playback.advance s.build s.pb } := by
  obtain ⟨hle, hsub⟩ := h.bcr_sub hc
  obtain ⟨ha1, ha2, ha3⟩ := h.pbActive hc
  have hb := bps_le s.build.bps
  have hbp := bps_pos s.build.bps
  have hni : s.pb.pbst ≠ .idle := fun e => by simp [(h.pbState.1 e).1] at hc
  obtain ⟨f1, f2, f3, _, f5, f6⟩ := Playback.advance_fields s.build s.pb
  have hpn : (Playback.advance s.build s.pb).pbst ≠ .idle := by
    unfold Playback.advance
    dsimp only
    split <;> simp
  refine ⟨h.rx, h.tx, h.port, ?_, ?_, ?_, ?_, fun _ => hpn, h.err, h.mem, h.dac⟩
  · by_cases hz : s.pb.bcr - BitVec.ofNat 32 s.build.bps.toNat = 0
    · rw [Playback.advance_last hz]
      simp [Playback.StateWf]
    · have hnz : 0 < (s.pb.bcr - BitVec.ofNat 32 s.build.bps.toNat).toNat :=
        Nat.pos_of_ne_zero fun e => hz (BitVec.eq_of_toNat_eq (by simpa using e))
      have hd := h.pbState
      have hdone : s.pb.done = false := by
        cases hp : s.pb.pbst with
        | idle => exact absurd hp hni
        | armed => exact (hd.2.1 hp).2.1
        | streaming => exact (hd.2.2.1 hp).2.1
        | reload => simp [(hd.2.2.2 hp).1] at hc
      have hst : (Playback.advance s.build s.pb).pbst = .streaming := by rw [Playback.advance_more hz]
      have hch : (Playback.advance s.build s.pb).chEn = true := by rw [Playback.advance_more hz]; exact hc
      have hdn : (Playback.advance s.build s.pb).done = false := by rw [Playback.advance_more hz]; exact hdone
      refine ⟨fun e => ?_, fun e => ?_, fun _ => ⟨hch, hdn, ?_⟩, fun e => ?_⟩
      · exact absurd e hpn
      · rw [hst] at e
        cases e
      · rw [f6]
        exact hnz
      · rw [hst] at e
        cases e
  · refine ⟨?_, fun _ => ?_⟩
    · simp only [f1, f2]
      exact h.pbPending.1
    · simp only [f2]
      exact h.pbPending.2 hni
  · intro hc'
    have hof : (BitVec.ofNat 32 s.build.bps.toNat).toNat = s.build.bps.toNat := by
      rw [BitVec.toNat_ofNat, Nat.mod_eq_of_lt (by omega)]
    have hnz : s.pb.bcr - BitVec.ofNat 32 s.build.bps.toNat ≠ 0 := by
      intro hz
      rw [Playback.advance_last hz] at hc'
      cases hc'
    have hlt : 0 < s.pb.bcr.toNat - s.build.bps.toNat := by
      rw [← hsub]
      exact Nat.pos_of_ne_zero fun e => hnz (BitVec.eq_of_toNat_eq (by simpa using e))
    have hsar : (s.pb.sar + BitVec.ofNat 32 s.build.bps.toNat).toNat = s.pb.sar.toNat + s.build.bps.toNat := by
      rw [BitVec.toNat_add, hof]
      exact Nat.mod_eq_of_lt (by omega)
    simp only [f5, f6, hsub, hsar]
    refine ⟨?_, ?_, by omega⟩
    · rw [Nat.add_mod_right]
      exact ha1
    · exact Nat.mod_eq_zero_of_dvd (Nat.dvd_sub (Nat.dvd_of_mod_eq_zero ha2) (Nat.dvd_refl _))
  · simp only [Playback.DarWf, f3]
    exact ⟨h.pbDar.1, fun _ => h.pbDar.2 hni⟩

/-- The value a trigger sends is a BPS-byte value (10 rule R64). -/
theorem State.sample_lt (s : State) : s.sample.toNat < 256 ^ s.build.bps.toNat := by
  have h := leValue_lt (Memory.readSpan s.mem s.pb.sar s.build.bps.toNat)
  rw [Memory.readSpan_length] at h
  rw [State.sample, Memory.memRead, BitVec.toNat_ofNat]
  exact Nat.lt_of_le_of_lt (Nat.mod_le _ _) h

/-- A BPS-byte value appended to the DAC trace. -/
theorem State.Inv.pushDac (h : s.Inv) {v : Word} (hv : v.toNat < 256 ^ s.build.bps.toNat) :
    State.Inv { s with dac := s.dac ++ [v] } := by
  refine ⟨h.rx, h.tx, h.port, h.pbState, h.pbPending, h.pbActive, h.pbDar, h.seqPlaying, h.err, h.mem, ?_⟩
  intro w hw
  rcases List.mem_append.mp hw with hw | hw
  · exact h.dac w hw
  · rw [List.mem_singleton.mp hw]
    exact hv

/-- Starting a note whose descriptor is valid (44 rules R360, R362). -/
theorem State.Inv.playNote (h : s.Inv) {k : Fin 3} (hv : validDesc s.build (s.seq.desc k) = true) :
    (s.playNote k).Inv := by
  have hn : (s.loadBuffer (s.seq.desc k).addr (s.seq.desc k).cnt).pb.pbCnt ≠ 0 := ((validBuffer_iff _ _ _).mp hv).1
  have h1 := ((h.loadBuffer hv).start hn).setTmr
    { s.tmr with tickRef := s.tmr.tick }
  exact ⟨h1.rx, h1.tx, h1.port, h1.pbState, h1.pbPending, h1.pbActive, h1.pbDar, h1.seqPlaying, h1.err, h1.mem,
    h1.dac⟩

end Sys2Proof.Machine
end

