-- ==== Sys2Proof/Laws/PerInstr.lean ====
section
/-! SUPPORT. Statements made of every command as syntax, one lemma per constructor of Instr. -/

namespace Sys2Proof.Laws

/-- The family of statements about a command's encoding: its word matches a row's mask and pattern in
spec/opcode_table.json (RB_* rows leave RSEL free), its fields are legal, and its text names it. -/
def TableRow.Statement (i : Instr) : Prop :=
  i.fields.wellFormed = true ∧ i.text.wellFormed = true ∧ i.text.command = some i ∧
    encode i &&& (if ringMnemonics.contains i.mnemonic then 0xFFFFFEFF else 0xFFFFFFFF) = i.opc.setWidth 32

theorem TableRow.rbInit (r : RingSel) : TableRow.Statement (.rbInit r) := by cases r <;> (unfold TableRow.Statement; decide)
theorem TableRow.rbEnq (r : RingSel) : TableRow.Statement (.rbEnq r) := by cases r <;> (unfold TableRow.Statement; decide)
theorem TableRow.rbDeq (r : RingSel) : TableRow.Statement (.rbDeq r) := by cases r <;> (unfold TableRow.Statement; decide)
theorem TableRow.rbLen (r : RingSel) : TableRow.Statement (.rbLen r) := by cases r <;> (unfold TableRow.Statement; decide)
theorem TableRow.rbEmpty (r : RingSel) : TableRow.Statement (.rbEmpty r) := by cases r <;> (unfold TableRow.Statement; decide)
theorem TableRow.serInit : TableRow.Statement .serInit := by unfold TableRow.Statement; decide
theorem TableRow.serWrite : TableRow.Statement .serWrite := by unfold TableRow.Statement; decide
theorem TableRow.serReadByte : TableRow.Statement .serReadByte := by unfold TableRow.Statement; decide
theorem TableRow.tmrInit : TableRow.Statement .tmrInit := by unfold TableRow.Statement; decide
theorem TableRow.tmrNow : TableRow.Statement .tmrNow := by unfold TableRow.Statement; decide
theorem TableRow.tmrMark : TableRow.Statement .tmrMark := by unfold TableRow.Statement; decide
theorem TableRow.tmrElapsed : TableRow.Statement .tmrElapsed := by unfold TableRow.Statement; decide
theorem TableRow.pbLoad : TableRow.Statement .pbLoad := by unfold TableRow.Statement; decide
theorem TableRow.pbStart : TableRow.Statement .pbStart := by unfold TableRow.Statement; decide
theorem TableRow.pbStop : TableRow.Statement .pbStop := by unfold TableRow.Statement; decide
theorem TableRow.seqPlay : TableRow.Statement .seqPlay := by unfold TableRow.Statement; decide

end Sys2Proof.Laws
end

