-- ==== Sys2Proof/Laws/Step.lean ====
section
/-! SUPPORT. What one step can do, said once: an agent's step, or one of the five things a HOST turn can be. -/

namespace Sys2Proof.Machine

variable {s t : State}

/-- What holds of every state is a claim in the sense of 60 rule R405. -/
theorem Claim.of_forall {P : State → Prop} (h : ∀ s, P s) : Claim P := fun s _ => h s

/-- A write of a register other than CMD changes ARG_ADDR, ARG_N, CTRL and the sequencer's configuration, nothing
else (10 rules R52, R55, R68, R81). -/
theorem State.writeReg_some {r : Reg} {w : Word} (h : s.writeReg r w = some t) :
    ∃ (a n nt b : Word) (ec sr : Bool) (d0 d1 d2 : Desc),
      t = { s with
        port := { s.port with argAddr := a, argN := n }
        ser := { s.ser with echo := ec }
        pb := { s.pb with srtEn := sr }
        seq := { s.seq with noteTicks := nt, budget := b, desc0 := d0, desc1 := d1, desc2 := d2 } } := by
  cases r
  case ctrl =>
    simp only [State.writeReg, State.writeCtrl] at h
    split at h
    · exact ⟨_, _, _, _, _, _, _, _, _, (Option.some.inj h).symm⟩
    · cases h
  all_goals first
    | exact ⟨_, _, _, _, _, _, _, _, _, (Option.some.inj h).symm⟩
    | cases h

/-- Choosing who moves only changes the agents' own state. -/
theorem State.afterChoice_setHost (ops : List HostOp) : ∃ e : Env, s.afterChoice.setHost ops = { s with env := e } := by
  rw [s.afterChoice_eq]
  exact ⟨_, rfl⟩

/-- A step in which an agent other than HOST moves (30 rule R149): its own step, or nothing where it is not
enabled. -/
theorem step_agent (h : step s = .next t) (ha : s.nextTurn ≠ .host) :
    ∃ e : Env, e.uartHeld = s.env.uartHeld ∧
      (t = { s with env := e } ∨ State.agentStep { s with env := e } s.nextTurn = some t) := by
  rw [step, State.takeTurn_agent _ ha] at h
  have ht := Host.Outcome.next.inj h
  refine ⟨s.afterChoice.env, s.afterChoice_uartHeld, ?_⟩
  rw [← s.afterChoice_eq]
  cases hs : s.afterChoice.agentStep s.nextTurn with
  | none => exact .inl (by rw [← ht, hs]; rfl)
  | some u => exact .inr (by rw [← ht, hs]; rfl)

/-- A step in which the HOST moves: nothing but its own state changes (no access left, a stuck access, a read that does
not fault, a write outside the window), or a fault is taken, or a register is written, or a command is issued, or the
HOST writes its memory. -/
theorem step_host (h : step s = .next t) (ha : s.nextTurn = .host) :
    ∃ e : Env,
      t = { s with env := e } ∨
      (∃ c, t = State.raise { s with env := e } c) ∨
      (∃ r w, State.writeReg { s with env := e } r w = some t) ∨
      (∃ i, s.Issues i ∧ exec i { s with env := e } = .next t) ∨
      (∃ a n v rest, s.env.host = .memWrite a n v :: rest ∧
        t = { s with env := e, mem := Memory.memWrite s.mem a n v }) := by
  rw [step, ha, State.takeTurn_host] at h
  rcases State.hostTurn_next h with rfl | ⟨op, rest, hop, hacc⟩
  · exact ⟨s.afterChoice.env, .inl s.afterChoice_eq⟩
  rw [s.afterChoice_host] at hop
  obtain ⟨e, he⟩ := State.afterChoice_setHost (s := s) rest
  rw [he] at hacc
  cases op with
  | read target bits =>
    have ht := (Host.Outcome.next.inj hacc).symm
    simp only [State.hostRead, State.busRead] at ht
    split at ht
    · split at ht
      · exact ⟨_, .inl ht⟩
      · exact ⟨{ e with hostReads := e.hostReads ++ [0] }, .inr (.inl ⟨.badReg, ht⟩)⟩
    · exact ⟨_, .inl ht⟩
  | write target bits w =>
    simp only [State.hostAccess, State.hostWrite] at hacc
    split at hacc
    · rename_i off hoff
      refine ⟨e, ?_⟩
      rcases State.busWrite_cases (s := { s with env := e }) (off := off) (bits := bits) (w := w) with
        ⟨c, hc⟩ | ⟨r, u, _, hw, hu⟩ | ⟨hbits, h0, i, hd, hx⟩
      · rw [hc] at hacc
        exact .inr (.inl ⟨c, (Host.Outcome.next.inj hacc).symm⟩)
      · rw [hu] at hacc
        exact .inr (.inr (.inl ⟨r, w, by rw [hw, Host.Outcome.next.inj hacc]⟩))
      · rw [hx] at hacc
        subst hbits h0
        exact .inr (.inr (.inr (.inl ⟨i, ⟨target, w, rest, hop, hoff, hd⟩, hacc⟩)))
    · exact ⟨e, .inl (Host.Outcome.next.inj hacc).symm⟩
  | memRead a n => exact ⟨_, .inl (Host.Outcome.next.inj hacc).symm⟩
  | memWrite a n v =>
    exact ⟨e, .inr (.inr (.inr (.inr ⟨a, n, v, rest, hop, (Host.Outcome.next.inj hacc).symm⟩)))⟩
  | waitnb =>
    have ht := (Host.Outcome.next.inj hacc).symm
    split at ht
    · exact ⟨_, .inl ht⟩
    · exact ⟨_, .inl ht⟩

/-- An agent other than HOST is enabled exactly where its step exists (30 rule R149). -/
theorem State.enabled_eq {a : Turn} (h : a ≠ .host) : s.enabled a = (s.agentStep a).isSome := by
  simp [State.enabled, h]

/-- The advance condition (44 rule R361). -/
theorem State.advanceEnabled_iff :
    s.advanceEnabled = true ↔ s.seq.active = true ∧ (s.tmr.tick - s.seq.t0).toNat < s.seq.budget.toNat ∧
      s.seq.noteTicks.toNat < (s.tmr.tick - s.tmr.tickRef).toNat := by
  rw [State.advanceEnabled, Bool.and_eq_true, Bool.and_eq_true, decide_eq_true_iff, decide_eq_true_iff, and_assoc]
  exact Iff.rfl

/-- The end condition (44 rule R363). -/
theorem State.seqEndStep_some :
    s.seqEndStep = some t ↔ (s.seq.active = true ∧ s.seq.budget.toNat ≤ (s.tmr.tick - s.seq.t0).toNat) ∧
      t = { s with seq := { s.seq with active := false } } := by
  have h : (s.seq.active && decide (s.seq.budget.toNat ≤ s.sessionTicks.toNat)) = true ↔
      s.seq.active = true ∧ s.seq.budget.toNat ≤ (s.tmr.tick - s.seq.t0).toNat := by
    rw [Bool.and_eq_true, decide_eq_true_iff]
    exact Iff.rfl
  rw [← h, State.seqEndStep]
  cases (s.seq.active && decide (s.seq.budget.toNat ≤ s.sessionTicks.toNat)) <;> simp [eq_comm]

/-- A received byte changes the rings and TXIE, nothing else (41 rules R250, R251). -/
theorem State.receive_eq (u : State) (x : RxByte) :
    ∃ (p q : Ring) (v : Bool), u.receive x = { u with rx := p, tx := q, ser := { u.ser with txie := v } } := by
  simp only [State.receive, State.echoByte, State.pushOrDrop]
  split
  · exact ⟨_, _, _, rfl⟩
  · split <;> split <;> (try split) <;> exact ⟨_, _, _, rfl⟩

/-- If an agent's step is enabled, the state it leaves (30 rule R149). -/
theorem State.agentStep_some {a : Turn} (h : s.agentStep a = some t) :
    match (generalizing := false) a with
    | .host => False
    | .arrive b err => t = s.arriveStep b err
    | .rx => s.ser.serEn = true ∧ ∃ x rest, s.env.uartHeld = x :: rest ∧
        t = State.receive { s with env := { s.env with uartHeld := rest } } x
    | .txReady => s.ser.txie = true ∧
        ((0 < s.tx.len ∧
            t = { s.setRing .tx (Ring.drop (s.cap .tx) s.tx) with uartTx := s.uartTx ++ [s.tx.head] }) ∨
          (s.tx.len = 0 ∧ t = s.setTxie false))
    | .tick => s.tmr.tickEn = true ∧ t = { s with tmr := { s.tmr with tick := s.tmr.tick + 1 } }
    | .trig => s.pb.srtEn = true ∧ s.pb.chEn = true ∧ s.admitsSpan s.pb.sar s.build.bps.toNat = true ∧
        t = { s with dac := s.dac ++ [s.sample], pb := Playback.advance s.build s.pb }
    | .complete =>
        (s.port.heldOp = .serWrite ∧ s.opN.toNat ≤ s.cap .tx - s.tx.len ∧
          ∃ u, s.enqueue .tx s.opA s.opN = some u ∧ t = (u.setTxie true).release) ∨
        (s.port.heldOp = .serReadByte ∧ 0 < s.rx.len ∧
          t = ((s.setRing .rx (Ring.drop (s.cap .rx) s.rx)).setResult (s.rx.head.setWidth 32)).release)
    | .reload => s.pb.pbst = .reload ∧ t = s.start
    | .seqAdvance => s.advanceEnabled = true ∧
        ((validDesc s.build (s.seq.desc (nextNote s.seq.idx)) = true ∧ t = s.playNote (nextNote s.seq.idx)) ∨
          (validDesc s.build (s.seq.desc (nextNote s.seq.idx)) = false ∧
            t = State.raise { s with seq := { s.seq with active := false } } .seqBadDesc))
    | .seqEnd => (s.seq.active = true ∧ s.seq.budget.toNat ≤ (s.tmr.tick - s.seq.t0).toNat) ∧
        t = { s with seq := { s.seq with active := false } }
    | .reset => t = s.resetStep := by
  cases a with
  | host => cases h
  | arrive b err => exact (Option.some.inj h).symm
  | rx =>
    simp only [State.agentStep, State.rxStep] at h
    split at h
    · rename_i hen hh
      exact ⟨hen, _, _, hh, (Option.some.inj h).symm⟩
    · cases h
  | txReady =>
    simp only [State.agentStep, State.txReadyStep] at h
    split at h
    · rename_i hen
      split at h
      · rename_i hl
        exact ⟨hen, .inl ⟨hl, (Option.some.inj h).symm⟩⟩
      · exact ⟨hen, .inr ⟨by omega, (Option.some.inj h).symm⟩⟩
    · cases h
  | tick =>
    simp only [State.agentStep, State.tickStep] at h
    split at h
    · rename_i hen
      exact ⟨hen, (Option.some.inj h).symm⟩
    · cases h
  | trig =>
    simp only [State.agentStep, State.trigStep] at h
    split at h
    · rename_i hen
      rw [Bool.and_eq_true, Bool.and_eq_true] at hen
      exact ⟨hen.1.1, hen.1.2, hen.2, (Option.some.inj h).symm⟩
    · cases h
  | complete =>
    simp only [State.agentStep, State.completeStep] at h
    split at h
    · cases h
    · rename_i hop
      simp only [State.completeWrite] at h
      split at h
      · rename_i hl
        obtain ⟨u, hu, rfl⟩ := Option.map_eq_some_iff.mp h
        exact .inl ⟨hop, hl, u, hu, rfl⟩
      · cases h
    · rename_i hop
      simp only [State.completeRead] at h
      split at h
      · rename_i hl
        exact .inr ⟨hop, hl, (Option.some.inj h).symm⟩
      · cases h
  | reload =>
    simp only [State.agentStep, State.reloadStep] at h
    split at h
    · rename_i hr
      exact ⟨hr, (Option.some.inj h).symm⟩
    · cases h
  | seqAdvance =>
    simp only [State.agentStep, State.seqAdvanceStep] at h
    split at h
    · rename_i hen
      refine ⟨hen, ?_⟩
      split at h
      · rename_i hv
        exact .inl ⟨hv, (Option.some.inj h).symm⟩
      · rename_i hv
        exact .inr ⟨Bool.eq_false_iff.mpr hv, (Option.some.inj h).symm⟩
    · cases h
  | seqEnd => exact State.seqEndStep_some.mp h
  | reset => exact (Option.some.inj h).symm

/-- Turns taken one after the other. -/
theorem State.takeTurns_append (u : State) (a b : List Turn) :
    u.takeTurns (a ++ b) = (u.takeTurns a).takeTurns b := by
  induction a generalizing u with
  | nil => rfl
  | cons x xs ih => exact ih _

end Sys2Proof.Machine
end

