-- ==== Sys2Proof/Tests/Slice0.lean ====
section
/-! SUPPORT. The model's own tests: ill-formed terms the checks refuse, words written out from 30_encoding.md, one step
of each command and event with the result spec/95_test_vectors.md gives, and for each statement with hypotheses a
state that meets them. Rings are of 4 bytes here (K = 2), so vectors about 256-byte rings are scaled. -/

namespace Sys2Proof.Tests

open Sys2Proof Sys2Proof.Machine

/-! ### Well-formedness -/

theorem test_fields_reserved_bit_refused : F1.wellFormed { opc := 0x11, rsel := false, rsv := 1 } = false := by decide
theorem test_fields_rsel_on_plain_refused : F1.wellFormed { opc := 0x21, rsel := true, rsv := 0 } = false := by decide
theorem test_fields_unassigned_opcode_refused : F1.wellFormed { opc := 0x15, rsel := false, rsv := 0 } = false := by decide
theorem test_fields_ring_accepted : F1.wellFormed { opc := 0x14, rsel := true, rsv := 0 } = true := by decide
theorem test_text_missing_suffix_refused : CmdText.wellFormed ⟨"RB_ENQ", none⟩ = false := by decide
theorem test_text_extra_suffix_refused : CmdText.wellFormed ⟨"SER_WRITE", some .tx⟩ = false := by decide
theorem test_text_wrong_case_refused : CmdText.wellFormed ⟨"pb_load", none⟩ = false := by decide

/-- A small build: 4-byte rings, BPS 2, all memory admitted. -/
def build : Build where
  kRx := 2
  kTx := 2
  bps := .two
  dacAddr := 0x40001000
  dacBits := 12
  tickScale := 1000
  base := 0x40000000
  admitted := [(0, 0xFFFFFFFF)]

theorem test_build_accepted : build.wellFormed = true := by decide
theorem test_build_misaligned_base_refused : Build.wellFormed { build with base := 0x40000002 } = false := by decide
theorem test_build_no_dac_bits_refused : Build.wellFormed { build with dacBits := 0 } = false := by decide
theorem test_build_too_many_dac_bits_refused : Build.wellFormed { build with dacBits := 17 } = false := by decide
theorem test_build_range_past_memory_refused : Build.wellFormed { build with admitted := [(0, 2 ^ 32)] } = false := by decide
theorem test_build_reversed_range_refused : Build.wellFormed { build with admitted := [(2, 1)] } = false := by decide

/-! ### Decoding: every word of the table of 30 rule R146, written out from it -/

theorem test_decode_RB_INIT :
    decode 0x00000010 = .ok (.rbInit .rx) ∧ decode 0x00000110 = .ok (.rbInit .tx) := by decide
theorem test_decode_RB_ENQ :
    decode 0x00000011 = .ok (.rbEnq .rx) ∧ decode 0x00000111 = .ok (.rbEnq .tx) := by decide
theorem test_decode_RB_DEQ :
    decode 0x00000012 = .ok (.rbDeq .rx) ∧ decode 0x00000112 = .ok (.rbDeq .tx) := by decide
theorem test_decode_RB_LEN :
    decode 0x00000013 = .ok (.rbLen .rx) ∧ decode 0x00000113 = .ok (.rbLen .tx) := by decide
theorem test_decode_RB_EMPTY :
    decode 0x00000014 = .ok (.rbEmpty .rx) ∧ decode 0x00000114 = .ok (.rbEmpty .tx) := by decide
theorem test_decode_SER_INIT : decode 0x00000020 = .ok .serInit := by decide
theorem test_decode_SER_WRITE : decode 0x00000021 = .ok .serWrite := by decide
theorem test_decode_SER_READ_BYTE : decode 0x00000022 = .ok .serReadByte := by decide
theorem test_decode_TMR_INIT : decode 0x00000030 = .ok .tmrInit := by decide
theorem test_decode_TMR_NOW : decode 0x00000031 = .ok .tmrNow := by decide
theorem test_decode_TMR_MARK : decode 0x00000032 = .ok .tmrMark := by decide
theorem test_decode_TMR_ELAPSED : decode 0x00000033 = .ok .tmrElapsed := by decide
theorem test_decode_PB_LOAD : decode 0x00000040 = .ok .pbLoad := by decide
theorem test_decode_PB_START : decode 0x00000041 = .ok .pbStart := by decide
theorem test_decode_PB_STOP : decode 0x00000042 = .ok .pbStop := by decide
theorem test_decode_SEQ_PLAY : decode 0x00000050 = .ok .seqPlay := by decide

/-- 30 rule R147: one word of each illegal class, at the classes' edges. -/
theorem test_decode_illegal :
    decode 0x80000010 = .error .reservedBitsSet ∧ decode 0x00000210 = .error .reservedBitsSet ∧
    decode 0x00000150 = .error .ringSelectNotAllowed ∧
    decode 0x0000000F = .error .reservedUnit ∧ decode 0x00000060 = .error .reservedUnit ∧
    decode 0x00000015 = .error .reservedOperation ∧ decode 0x00000023 = .error .reservedOperation ∧
    decode 0x00000034 = .error .reservedOperation ∧ decode 0x00000043 = .error .reservedOperation ∧
    decode 0x00000051 = .error .reservedOperation := by decide

theorem test_decodeTableWord : decodeTableWord 32 0x111 = some (.rbEnq .tx) := by decide

/-! ### Small states -/

/-- The state after reset of the small build. -/
def s0 : State := State.resetWith build [] Env.initial

/-- `s0` with ARG_ADDR and ARG_N set. -/
def args (a n : Word) : State := { s0 with port := { s0.port with argAddr := a, argN := n } }

/-- An RX ring holding 01 02 03, WIDX 1, RIDX 2: its contents wrap. -/
def ring3 : Machine.Ring where
  store := [3, 0xEE, 1, 2]
  widx := 1
  ridx := 2
  len := 3

/-- A full ring holding 05 06 07 08. -/
def ringFull : Machine.Ring where
  store := [5, 6, 7, 8]
  widx := 0
  ridx := 0
  len := 4

/-- Playback armed on two samples at 0x4000, CTRL.SRT_EN = 1; memory holds 34 12 CD AB there. -/
def playing : State :=
  { s0 with
    pb := { pbSrc := 0x4000, pbCnt := 2, sar := 0x4000, dar := 0x40001000, bcr := 4, chEn := true, done := false,
            pbst := .armed, srtEn := true }
    mem := [(0x4000, 0x34), (0x4001, 0x12), (0x4002, 0xCD), (0x4003, 0xAB)] }

/-- A session at note 2 whose threshold is crossed, with playback armed; TICK 2, NOTE_TICKS 1, BUDGET 10. -/
def session : State :=
  { playing with
    tmr := { tick := 2, tickRef := 0, tickEn := true }
    seq := { active := true, idx := 2, t0 := 0, noteTicks := 1, budget := 10,
             desc0 := ⟨0x6000, 8⟩, desc1 := ⟨0x5000, 2⟩, desc2 := ⟨0x4000, 2⟩ } }

/-- A SER_WRITE of three bytes from 0x1000 (68 69 0A), held. -/
def held : State :=
  { s0 with
    port := { s0.port with latchAddr := 0x1000, latchN := 3, busy := true, heldOp := .serWrite }
    mem := [(0x1000, 0x68), (0x1001, 0x69), (0x1002, 0x0A)] }

/-- The state an outcome leads to. -/
def next? : Host.Outcome State Fault Refusal → Option State
  | .next t => some t
  | .fault _ => none
  | .refused _ => none

/-- What a command leaves, seen through `f`. -/
def after {α : Type} (i : Instr) (s : State) (f : State → α) : Option α := (next? (exec i s)).map f

/-- What another agent's step leaves, seen through `f`. -/
def agent {α : Type} (a : Turn) (s : State) (f : State → α) : Option α := (s.agentStep a).map f

/-! ### Commands -/

/-- V-RB-13: the contents go, RESULT stays. -/
theorem test_rb_init :
    after (.rbInit .rx) { s0 with rx := ring3, port := { s0.port with result := 7 } }
      (fun t => (t.rx.store, t.rx.widx, t.rx.ridx, t.rx.len, t.port.result)) = some ([0, 0, 0, 0], 0, 0, 0, 7) := by
  decide

/-- V-RB-15: the source address wraps modulo 2^32. -/
theorem test_rb_enq_address_wraps :
    after (.rbEnq .rx) { args 0xFFFFFFFF 2 with mem := [(0, 0xA5), (0xFFFFFFFF, 0x5A)] }
      (fun t => (t.rx.store, t.rx.widx, t.rx.len, t.port.result)) = some ([0x5A, 0xA5, 0, 0], 2, 2, 2) := by decide

/-- V-RB-5, V-RB-7 scaled: one byte fits, and the write index wraps. -/
theorem test_rb_enq_partial :
    after (.rbEnq .tx) { args 0x2000 10 with
        mem := [(0x2000, 0xAA)], tx := { store := [1, 2, 3, 0], widx := 3, ridx := 0, len := 3 } }
      (fun t => (t.tx.store, t.tx.widx, t.tx.len, t.port.result)) = some ([1, 2, 3, 0xAA], 0, 4, 1) := by decide

/-- V-RB-10: n above LEN removes all, in order, and memory past them is unchanged. -/
theorem test_rb_deq_all :
    after (.rbDeq .rx) { args 0x3000 0xFFFFFFFF with rx := ring3, mem := [(0x3000, 9), (0x3003, 0x77)] }
      (fun t => (t.mem, t.rx.ridx, t.rx.len, t.port.result)) =
      some ([(0x3000, 1), (0x3001, 2), (0x3002, 3), (0x3003, 0x77)], 1, 0, 3) := by decide

/-- V-RB-8: a null destination returns 0, not ERR_VALUE. -/
theorem test_rb_deq_null :
    after (.rbDeq .rx) { args 0 5 with rx := ring3 } (fun t => (t.rx, t.port.result)) = some (ring3, 0) := by decide

/-- V-RB-16. -/
theorem test_rb_len : after (.rbLen .rx) { s0 with rx := ring3 } (fun t => t.port.result) = some 3 := by decide

/-- V-RB-11 scaled: a full ring's length is C. -/
theorem test_rb_len_full : after (.rbLen .tx) { s0 with tx := ringFull } (fun t => t.port.result) = some 4 := by decide

/-- V-RB-12, and a ring that is not empty. -/
theorem test_rb_empty :
    after (.rbEmpty .tx) s0 (fun t => t.port.result) = some 1 ∧
    after (.rbEmpty .rx) { s0 with rx := ring3, port := { s0.port with result := 7 } } (fun t => t.port.result) =
      some 0 := by decide

/-- V-SER-1. -/
theorem test_ser_init : after .serInit s0 State.status = some 0x0000004A := by decide

/-- 41 rule R240: CTRL.ECHO is unchanged, TXIE is cleared, both rings are created. -/
theorem test_ser_init_again :
    after .serInit { s0 with rx := ring3, tx := ringFull, ser := { txie := true, serEn := true, echo := true } }
      (fun t => (t.rx.len, t.tx.len, t.ser)) = some (0, 0, { txie := false, serEn := true, echo := true }) := by decide

/-- 41 rule R241: the issue takes the latches and BUSY. -/
theorem test_ser_write_issue :
    after .serWrite (args 0x1000 3) (fun t => t.port) =
      some { argAddr := 0x1000, argN := 3, result := 0, latchAddr := 0x1000, latchN := 3, busy := true,
             heldOp := .serWrite } := by decide

/-- P2 step 3: the completion. -/
theorem test_ser_write_completion :
    agent .complete held (fun t => (t.tx.store, t.tx.len, t.ser.txie, t.port.result, t.port.busy)) =
      some ([0x68, 0x69, 0x0A, 0], 3, true, 3, false) := by decide

/-- V-ENC-13: RESULT is stale until the completion. -/
theorem test_ser_read_byte_issue :
    after .serReadByte { s0 with port := { s0.port with result := 7 } }
      (fun t => (t.port.result, t.port.busy, t.port.heldOp)) = some (7, true, .serReadByte) := by decide

/-- P3 step 7 scaled: the oldest byte, zero-extended. -/
theorem test_ser_read_byte_completion :
    agent .complete { s0 with rx := ring3, port := { s0.port with busy := true, heldOp := .serReadByte } }
      (fun t => (t.port.result, t.rx.len, t.port.busy)) = some (1, 2, false) := by decide

/-- V-TMR-1. -/
theorem test_tmr_init : after .tmrInit s0 (fun t => (t.tmr.tick, t.status)) = some (0, 0x0000008A) := by decide

/-- V-TMR-6: the product wraps. -/
theorem test_tmr_now :
    after .tmrNow { s0 with tmr := { s0.tmr with tick := 0x00500000 } } (fun t => t.port.result) =
      some 0x38800000 := by decide

/-- V-TMR-7, first command. -/
theorem test_tmr_mark :
    after .tmrMark { s0 with tmr := { s0.tmr with tick := 7, tickRef := 2 } } (fun t => t.tmr.tickRef) = some 7 := by
  decide

/-- V-TMR-4: correct across a wrap of TICK. -/
theorem test_tmr_elapsed :
    after .tmrElapsed { s0 with tmr := { s0.tmr with tick := 1, tickRef := 0xFFFFFFFE } } (fun t => t.port.result) =
      some 3 := by decide

/-- V-PB-3: a buffer that ends at the top of the address space. -/
theorem test_pb_load_top :
    after .pbLoad (args 0xFFFFFFFE 1) (fun t => (t.pb.pbSrc, t.pb.pbCnt, t.err.fault)) =
      some (0xFFFFFFFE, 1, false) := by decide

/-- V-PB-2, V-PB-4, V-PB-5 and V-PB-1: the four ways to be invalid. -/
theorem test_pb_load_invalid :
    after .pbLoad (args 0x4001 4) State.errWord = some 0x00000401 ∧
    after .pbLoad (args 0xFFFFFFFE 2) State.errWord = some 0x00000401 ∧
    after .pbLoad (args 0 0x80000000) State.errWord = some 0x00000401 ∧
    after .pbLoad (args 0x4000 0) (fun t => (t.errWord, t.pb)) = some (0x00000401, s0.pb) := by decide

/-- V-PB-7. -/
theorem test_pb_start_nothing_loaded :
    after .pbStart s0 (fun t => (t.errWord, t.pb.pbst)) = some (0x00000401, .idle) := by decide

/-- V-PB-9 scaled: a start in Reload clears DONE. -/
theorem test_pb_start_in_reload :
    after .pbStart { playing with pb := { playing.pb with sar := 0x4004, bcr := 0, chEn := false, done := true,
                                                          pbst := .reload } }
      (fun t => t.pb) = some playing.pb := by decide

/-- V-PB-12, V-SEQ-6: SAR and BCR stay. -/
theorem test_pb_stop :
    after .pbStop { session with pb := { playing.pb with sar := 0x4002, bcr := 2, pbst := .streaming } }
      (fun t => (t.pb.pbst, t.pb.chEn, t.pb.sar, t.pb.bcr, t.seq.active)) =
      some (.idle, false, 0x4002, 2, false) := by decide

/-- The example of 44 rule R360. -/
theorem test_seq_play :
    after .seqPlay { s0 with seq := { s0.seq with desc0 := ⟨0x4000, 4⟩, desc1 := ⟨0x5000, 2⟩, desc2 := ⟨0x6000, 8⟩ } }
      (fun t => (t.seq.active, t.pb.sar, t.pb.bcr, t.pb.pbst)) = some (true, 0x4000, 8, .armed) := by decide

/-- V-SEQ-2: one invalid descriptor. -/
theorem test_seq_play_bad :
    after .seqPlay { session with seq := { session.seq with desc2 := ⟨0x6000, 0⟩ } }
      (fun t => (t.errWord, t.pb, t.seq.idx)) = some (0x00000501, session.pb, 2) := by decide

/-! ### Steps that are not encoded -/

/-- V-SER-8: an echo on a full TX ring is dropped, TXIE is set, and the byte reaches RX. -/
theorem test_rx_echo_dropped :
    agent .rx { s0 with
        ser := { txie := false, serEn := true, echo := true }, tx := ringFull
        env := { s0.env with uartHeld := [⟨0x55, false⟩] } }
      (fun t => (t.tx, t.ser.txie, t.rx.store, t.rx.len, t.env.uartHeld)) =
      some (ringFull, true, [0x55, 0, 0, 0], 1, []) := by decide

/-- V-SER-7 and V-SER-9: RX full, and a line error. -/
theorem test_rx_dropped :
    agent .rx { s0 with
        ser := { txie := false, serEn := true, echo := false }, rx := ringFull
        env := { s0.env with uartHeld := [⟨0x55, false⟩] } } (fun t => t.rx) = some ringFull ∧
    agent .rx { s0 with
        ser := { txie := false, serEn := true, echo := true }
        env := { s0.env with uartHeld := [⟨0x42, true⟩] } } (fun t => (t.rx.len, t.tx.len, t.ser.txie)) =
      some (0, 0, false) := by decide

/-- P2 steps 5 and 8. -/
theorem test_tx_ready :
    agent .txReady { s0 with ser := { s0.ser with txie := true }, tx := ring3 } (fun t => (t.uartTx, t.tx.len)) =
      some ([1], 2) ∧
    agent .txReady { s0 with ser := { s0.ser with txie := true } } (fun t => (t.uartTx, t.ser.txie)) =
      some ([], false) := by decide

/-- V-TMR-3 and V-TMR-2. -/
theorem test_tick :
    agent .tick { s0 with tmr := { tick := 0xFFFFFFFF, tickRef := 0, tickEn := true } } (fun t => t.tmr.tick) = some 0 ∧
    s0.agentStep .tick = none := by decide

/-- V-PB-8 scaled: little-endian samples; the first trigger streams, the last goes to Reload. -/
theorem test_trig :
    agent .trig playing (fun t => (t.dac, t.pb.sar, t.pb.bcr, t.pb.pbst)) = some ([0x1234], 0x4002, 2, .streaming) ∧
    agent .trig { playing with pb := { playing.pb with sar := 0x4002, bcr := 2, pbst := .streaming } }
      (fun t => (t.dac, t.pb.bcr, t.pb.chEn, t.pb.done, t.pb.pbst)) = some ([0xABCD], 0, false, true, .reload) := by
  decide

/-- P4 step 8 scaled. -/
theorem test_reload :
    agent .reload { playing with pb := { playing.pb with sar := 0x4004, bcr := 0, chEn := false, done := true,
                                                         pbst := .reload } }
      (fun t => t.pb) = some playing.pb := by decide

/-- V-SEQ-8: cyclic. -/
theorem test_seq_advance :
    agent .seqAdvance session (fun t => (t.seq.idx, t.pb.pbSrc, t.tmr.tickRef)) = some (0, 0x6000, 2) := by decide

/-- V-SEQ-5: an invalid next descriptor ends the session, playback unchanged. -/
theorem test_seq_advance_bad :
    agent .seqAdvance { session with seq := { session.seq with desc0 := ⟨0x6000, 0⟩ } }
      (fun t => (t.seq.active, t.errWord, t.pb, t.seq.idx, t.tmr.tickRef)) =
      some (false, 0x00000501, session.pb, 2, 0) := by decide

/-- V-SEQ-4: BUDGET 0 ends the session; playback goes on. -/
theorem test_seq_end :
    agent .seqEnd { session with seq := { session.seq with budget := 0 } } (fun t => (t.seq.active, t.pb.pbst)) =
      some (false, .armed) := by decide

/-! ### Bus accesses and steps -/

/-- V-ENC-6, V-ENC-9: a faulting read returns 0. -/
theorem test_bad_reads :
    (s0.busRead 0x80 32).1 = 0 ∧ (s0.busRead 0x80 32).2.errWord = 0x00000301 ∧
    (s0.busRead 0x00 32).1 = 0 ∧ (s0.busRead 0x00 32).2.errWord = 0x00000301 := by decide

/-- V-ENC-8: a CTRL write that sets a reserved bit changes nothing. -/
theorem test_ctrl_reserved :
    (next? ({ s0 with ser := { s0.ser with echo := true } }.busWrite 0x14 32 0x4)).map
      (fun t => (t.ctrl, t.errWord)) = some (1, 0x00000301) := by decide

/-- V-ENC-4: busy is checked before legality. -/
theorem test_busy_first : (next? (held.busWrite 0x00 32 0xFF)).map State.errWord = some 0x00000201 := by decide

/-- V-ENC-1 through a step: STATUS shows the fault. -/
theorem test_step_illegal :
    (next? (step (s0.withFetchWord 32 0))).map (fun t => (t.errWord, t.status, t.env)) =
      some (0x00000101, 0x0000800A, s0.env) := by decide

/-- A step runs the word placed where the HOST writes CMD next. -/
theorem test_step_runs_fetched_word :
    (next? (step (s0.withFetchWord 32 0x30))).map (fun t => (t.tmr.tickEn, t.env)) = some (true, s0.env) := by decide

/-- V-RST-1: reset empties the block and leaves memory. -/
theorem test_reset :
    agent .reset { held with err := { fault := true, cause := 2 }, tmr := { s0.tmr with tick := 99 }, uartTx := [1] }
      (fun t => (t.status, t.errWord, t.tmr.tick, t.uartTx.length, t.mem.length)) = some (0x0000000A, 0, 0, 0, 3) := by decide

/-- 20 rule R104: a byte that is not admitted stops the command; the step leaves the HOST at its access. -/
theorem test_stuck :
    exec (.rbEnq .rx) { args 0x2000 1 with build := { build with admitted := [(0, 0x1FFF)] } } = .fault .memNotAdmitted ∧
    (next? (step (State.withFetchWord { args 0x2000 1 with build := { build with admitted := [(0, 0x1FFF)] } }
      32 0x11))).map (fun t => (t.env.host.length, t.env.sched, t.port.latchN)) = some (1, [], 0) := by
  exact ⟨rfl, by decide⟩

/-! ### Witnesses: for each statement with hypotheses, a state and operands that meet them together -/

theorem playing_inv : playing.Inv where
  rx := by decide
  tx := by decide
  port := by decide
  pbState := by decide
  pbPending := ⟨fun _ => by decide, fun _ => by decide⟩
  pbActive := fun _ => ⟨by decide, by decide, by decide⟩
  pbDar := ⟨.inr rfl, fun _ => rfl⟩
  seqPlaying := by decide
  err := by decide
  mem := by decide
  dac := by intro v hv; cases hv

theorem session_inv : session.Inv where
  rx := by decide
  tx := by decide
  port := by decide
  pbState := by decide
  pbPending := ⟨fun _ => by decide, fun _ => by decide⟩
  pbActive := fun _ => ⟨by decide, by decide, by decide⟩
  pbDar := ⟨.inr rfl, fun _ => rfl⟩
  seqPlaying := by decide
  err := by decide
  mem := by decide
  dac := by intro v hv; cases hv

/-- `s` with a schedule and the HOST's program. -/
def sched (s : State) (turns : List Turn) (ops : List HostOp) : State :=
  { s with env := { s.env with sched := turns, host := ops } }

/-- The states that steps from `s` go through. -/
def runFrom (s : State) : Nat → State
  | 0 => s
  | k + 1 => (next? (step (runFrom s k))).getD s

/-- A mark at the top of TICK's range, and then a tick, a HOST read, an rx turn and a tick. -/
def marked : State :=
  sched { s0 with tmr := { tick := 0xFFFFFFFF, tickRef := 0xFFFFFFFF, tickEn := true } }
    [.tick, .host, .rx, .tick] [.read (.offset 0x44) 32]

/-- IllegalWordRaisesIllegalCmd: one word of each class of 30 rule R147. -/
theorem witness_illegal_word :
    (¬ LegalWord 0x80000010 ∧ ¬ LegalWord 0x00000210 ∧ ¬ LegalWord 0x00000120 ∧ ¬ LegalWord 0x0000000F ∧
      ¬ LegalWord 0x00000015 ∧ ¬ LegalWord 0x000000FF) ∧ s0.port.busy = false := by decide

/-- CommandWhileBusyFaults; OversizedWriteIsHeldForEver. -/
theorem witness_busy :
    held.port.busy = true ∧
    (let s := sched { held with port := { held.port with latchN := 5 } } [.complete] []
     s.port.busy = true ∧ s.port.heldOp = .serWrite ∧ s.cap .tx < s.port.latchN.toNat ∧ s.nextTurn ≠ .reset ∧
      ∃ t, step s = .next t) := by
  exact ⟨by decide, by decide, by decide, by decide, by decide, _, rfl⟩

/-- StepRunsDecodedCommand: by offset, and by the bus address BASE. -/
theorem witness_step_runs :
    (let s := sched s0 [.host] [.write (.offset 0) 32 0x30]
     s.nextTurn = .host ∧ s.env.host = [.write (.offset 0) 32 0x30] ∧
      windowOffset s.build (.offset 0) = some 0 ∧ decode 0x30 = .ok .tmrInit) ∧
    windowOffset build (.address 0x40000000) = some 0 := by decide

/-- StepTakesOneTurn: each clause; the window's ends. -/
theorem witness_turns :
    (sched s0 [.tick] []).env.sched = [.tick] ∧ (sched s0 [.tick] []).nextTurn ≠ .host ∧ s0.env.sched = [] ∧
    (sched s0 [.host] []).nextTurn = .host ∧ (sched s0 [.host] []).env.host = [] ∧
    (sched s0 [.host] [.read (.address 0x400000FF) 8]).env.host = [.read (.address 0x400000FF) 8] ∧
    windowOffset build (.address 0x400000FF) = some 0xFF ∧ windowOffset build (.address 0x40000100) = none ∧
    windowOffset build (.address 0x3FFFFFFF) = none := by decide

/-- HostMemoryAccesses: a write of four bytes that wraps, and a read. -/
theorem witness_host_memory :
    (let s := sched s0 [.host] [.memWrite 0xFFFFFFFE 4 0x11223344]
     s.nextTurn = .host ∧ s.env.host = [.memWrite 0xFFFFFFFE 4 0x11223344] ∧ s.mem.wf = true ∧
      (next? (step s)).map (fun t => t.mem) =
        some [(0, 0x22), (1, 0x11), (0xFFFFFFFE, 0x44), (0xFFFFFFFF, 0x33)]) ∧
    (let s := sched playing [.host] [.memRead 0x4000 2]
     s.nextTurn = .host ∧ s.env.host = [.memRead 0x4000 2] ∧
      (next? (step s)).map (fun t => t.env.hostReads) = some [0x1234]) := by decide

/-- RegisterWrites: CTRL's two clauses meet at 3 and 4. -/
theorem witness_ctrl_writes : (3 : Word).toNat < 4 ∧ 4 ≤ (4 : Word).toNat := by decide

/-- BadAccessesRaiseBadReg: each clause at an edge, and the last good offset. -/
theorem witness_bad_accesses :
    0x80 ≤ (0x80 : BitVec 8).toNat ∧ (0x7D : BitVec 8).toNat % 4 ≠ 0 ∧ (31 : Nat) ≠ 32 ∧
    (4 : Word).extractLsb' 2 30 ≠ 0 ∧ Reg.ofOffset 0x7C = some .seqCnt2 ∧ Reg.ofOffset 0x80 = none := by decide

/-- StatusShowsLiveState: the ring invariant, at both ends. -/
theorem witness_ring_ends :
    Ring.Wf (s0.cap .rx) s0.rx ∧ (s0.ring .rx).len = 0 ∧
    Ring.Wf (s0.cap .tx) ringFull ∧ ringFull.len = s0.cap .tx ∧ Ring.Wf (s0.cap .rx) ring3 := by decide

/-- CtrlAndErrShowTheirFields. -/
theorem witness_unfaulted : playing.Inv ∧ playing.err.fault = false := ⟨playing_inv, by decide⟩

/-- ParamShowsTheBuild: the default build, and a step. -/
theorem witness_default_build :
    (let b := Config.build
     b.kRx = 8 ∧ b.kTx = 8 ∧ b.bps = .two) ∧ ∃ t, step (sched s0 [.tick] []) = .next t :=
  ⟨⟨rfl, rfl, rfl⟩, _, rfl⟩

/-- FirstFaultIsKeptUntilReset: a second fault. -/
theorem witness_second_fault :
    let s := sched { s0 with err := { fault := true, cause := 1 } } [.host] [.read (.offset 0x80) 32]
    s.err.fault = true ∧ s.nextTurn ≠ .reset ∧ ∃ t, step s = .next t :=
  ⟨by decide, by decide, _, rfl⟩

/-- FirstFaultIsKeptUntilReset: a run of four steps, none of them reset, that ends unfaulted. -/
theorem witness_unfaulted_run :
    (∀ k, k < 4 → step (runFrom marked k) = .next (runFrom marked (k + 1)) ∧ (runFrom marked k).nextTurn ≠ .reset) ∧
    (runFrom marked 4).Unfaulted := by
  refine ⟨fun k h => ?_, by decide⟩
  match k with
  | 0 | 1 | 2 | 3 => exact ⟨rfl, by decide⟩

/-- FaultsArePrecise: a faulting command, and a faulting advance. -/
theorem witness_faults :
    (∃ t, exec .pbStart s0 = .next t ∧ s0.Unfaulted ∧ t.err.fault = true) ∧
    (let s := { session with seq := { session.seq with desc0 := ⟨0x6000, 0⟩ } }
     ∃ t, s.agentStep .seqAdvance = some t ∧ s.Unfaulted ∧ t.err.fault = true) :=
  ⟨⟨_, rfl, by decide, by decide⟩, _, rfl, by decide, by decide⟩

/-- RbInitCreatesItsRing, RbLenAndRbEmptyReport, SerInitStartsTheTransport, HeldCommandsAreIssued, TimerCommands,
PbStopGoesIdle, PbLoadRecordsValidBuffers, SeqPlayStartsASession. -/
theorem witness_idle_port : s0.port.busy = false ∧ session.port.busy = false := by decide

/-- RbEnqAppendsWhatFits: a partial accept of one byte. -/
theorem witness_enqueue :
    let s := { args 0x2000 10 with rx := ring3 }
    s.port.busy = false ∧ Ring.Wf (s.cap .rx) (s.ring .rx) ∧ s.port.argAddr ≠ 0 ∧ s.port.argN ≠ 0 ∧
      (s.ring .rx).len ≠ s.cap .rx ∧ 1 = min s.port.argN.toNat (s.cap .rx - (s.ring .rx).len) ∧
      ∀ j, j < 1 → memAdmits s.build (s.port.argAddr + BitVec.ofNat 32 j) = true := by decide

/-- RbEnqWithNothingAccepted: a null source on a full ring, n = 0, and a full ring. -/
theorem witness_enqueue_nothing :
    (args 0 0).port.argAddr = 0 ∧ (args 0x2000 0).port.argAddr ≠ 0 ∧ (args 0x2000 0).port.argN = 0 ∧
    (let s := { args 0x2000 1 with rx := ringFull }
     s.port.busy = false ∧ s.port.argAddr ≠ 0 ∧ (s.ring .rx).len = s.cap .rx) := by decide

/-- RbDeqDeliversTheOldest: two of three bytes, across the ring's end. -/
theorem witness_dequeue :
    let s := { args 0xFFFFFFFF 2 with rx := ring3 }
    s.port.busy = false ∧ Ring.Wf (s.cap .rx) (s.ring .rx) ∧ s.mem.wf = true ∧ (s.ring .rx).len ≠ 0 ∧
      s.port.argAddr ≠ 0 ∧ s.port.argN ≠ 0 ∧ 2 = min s.port.argN.toNat (s.ring .rx).len ∧
      ∀ j, j < 2 → memAdmits s.build (s.port.argAddr + BitVec.ofNat 32 j) = true := by decide

/-- RbDeqWithNothingRemoved: each of the three ways. -/
theorem witness_dequeue_nothing :
    s0.port.busy = false ∧ (s0.ring .rx).len = 0 ∧ (args 0 3).port.argAddr = 0 ∧ (args 0x3000 0).port.argN = 0 := by
  decide

/-- TransfersStuckOnUnadmittedBytes: the second byte of each transfer is not admitted. -/
theorem witness_stuck :
    let s := { args 0x1FFF 2 with build := { build with admitted := [(0, 0x1FFF)] }, tx := ring3 }
    s.port.busy = false ∧ s.port.argAddr ≠ 0 ∧ 1 < s.port.argN.toNat ∧
      memAdmits s.build (s.port.argAddr + BitVec.ofNat 32 1) = false ∧ (s.ring .rx).len + 1 < s.cap .rx ∧
      1 < (s.ring .tx).len := by decide

/-- RingRoundTrip with N = C; EnqueueStopsAtCapacity with N = C. -/
theorem witness_round_trip :
    let s := args 0x2000 4
    s.port.busy = false ∧ Ring.Wf (s.cap .rx) (s.ring .rx) ∧ s.mem.wf = true ∧ (s.ring .rx).len = 0 ∧
      s.port.argN.toNat ≤ s.cap .rx ∧ s.cap .rx ≤ s.port.argN.toNat ∧ s.port.argAddr ≠ 0 ∧ (0x3000 : Word) ≠ 0 ∧
      ∀ j, j < s.port.argN.toNat → memAdmits s.build (s.port.argAddr + BitVec.ofNat 32 j) = true ∧
        memAdmits s.build (0x3000 + BitVec.ofNat 32 j) = true := by decide

/-- SerWriteCompletes, WriteThenDrain: three bytes; and four, which just fit. -/
theorem witness_write_completes :
    (held.port.heldOp = .serWrite ∧ Ring.Wf (held.cap .tx) held.tx ∧ held.tx.len = 0 ∧ held.ser.txie = false ∧
      held.port.latchAddr ≠ 0 ∧ held.port.latchN ≠ 0 ∧ held.port.latchN.toNat ≤ held.cap .tx - held.tx.len ∧
      ∀ j, j < held.port.latchN.toNat → memAdmits held.build (held.port.latchAddr + BitVec.ofNat 32 j) = true) ∧
    (4 : Word).toNat ≤ held.cap .tx - held.tx.len := by decide

/-- SerWriteCompletionCorners: no room, an unadmitted byte, n = 0, a null source. -/
theorem witness_write_corners :
    held.port.heldOp = .serWrite ∧
    (let s := { held with tx := ring3 }
     s.cap .tx - s.tx.len < s.port.latchN.toNat) ∧
    (let s := { held with build := { build with admitted := [(0, 0x1001)] } }
     s.port.latchAddr ≠ 0 ∧ s.port.latchN.toNat ≤ s.cap .tx - s.tx.len ∧
      ∃ j, j < s.port.latchN.toNat ∧ memAdmits s.build (s.port.latchAddr + BitVec.ofNat 32 j) = false) ∧
    (let s := { held with port := { held.port with latchN := 0 } }
     s.port.latchAddr ≠ 0 ∧ s.port.latchN = 0) ∧
    (let s := { held with port := { held.port with latchAddr := 0 } }
     s.port.latchAddr = 0 ∧ s.port.latchN.toNat ≤ s.cap .tx - s.tx.len) :=
  ⟨by decide, by decide, ⟨by decide, by decide, 2, by decide, by decide⟩, by decide, by decide⟩

/-- SerReadByteCompletes: an empty ring, and one of three bytes. -/
theorem witness_read_completes :
    let s := { s0 with rx := ring3, port := { s0.port with busy := true, heldOp := .serReadByte } }
    s.port.heldOp = .serReadByte ∧ Ring.Wf (s.cap .rx) s.rx ∧ Ring.contents (s.cap .rx) s.rx = [1, 2, 3] ∧
      s0.rx.len = 0 := by decide

/-- ReceiveEvents: disabled, nothing held, a line error, and a good byte with the echo on, which meets a full
RX ring, and then a full TX ring. -/
theorem witness_receive :
    s0.ser.serEn = false ∧ s0.env.uartHeld = [] ∧
    (let s := { s0 with ser := { txie := false, serEn := true, echo := true }, rx := ringFull
                        env := { s0.env with uartHeld := [⟨0x41, false⟩, ⟨0x42, true⟩] } }
     Ring.Wf (s.cap .rx) s.rx ∧ Ring.Wf (s.cap .tx) s.tx ∧ s.ser.serEn = true ∧
      s.env.uartHeld = [⟨0x41, false⟩, ⟨0x42, true⟩]) ∧
    (let s := { s0 with ser := { txie := false, serEn := true, echo := true }
                        env := { s0.env with uartHeld := [⟨0x42, true⟩] } }
     s.ser.serEn = true ∧ s.env.uartHeld = [⟨0x42, true⟩]) ∧
    (let s := { s0 with ser := { txie := false, serEn := true, echo := true }, rx := ring3, tx := ringFull
                        env := { s0.env with uartHeld := [⟨0x41, false⟩] } }
     Ring.Wf (s.cap .rx) s.rx ∧ Ring.Wf (s.cap .tx) s.tx ∧ s.rx.len < s.cap .rx ∧ s.tx.len = s.cap .tx ∧
      s.ser.echo = true ∧ s.env.uartHeld = [⟨0x41, false⟩]) := by decide

/-- TransmitReadyEvent: TXIE = 0, an empty ring, and one of three bytes. -/
theorem witness_transmit :
    s0.ser.txie = false ∧ Ring.Wf (s0.cap .tx) s0.tx ∧ s0.tx.len = 0 ∧
    (let s := { s0 with ser := { s0.ser with txie := true }, tx := ring3 }
     Ring.Wf (s.cap .tx) s.tx ∧ s.ser.txie = true ∧ Ring.contents (s.cap .tx) s.tx = [1, 2, 3]) := by decide

/-- TransmitOrderIsPreserved: an event, and a host command on the TX ring. -/
theorem witness_order :
    (let s := sched session [.txReady] []
     s.Inv ∧ s.nextTurn ≠ .reset ∧ s.nextTurn ≠ .host ∧ ∃ t, step s = .next t) ∧
    (let s := sched session [.host] [.write (.offset 0) 32 0x111]
     s.Inv ∧ s.nextTurn = .host ∧ ¬ s.Issues (.rbInit .tx) ∧ ¬ s.Issues .serInit ∧ ¬ s.Issues (.rbDeq .tx)) := by
  refine ⟨⟨session_inv.setEnv _, by decide, by decide, _, rfl⟩, session_inv.setEnv _, rfl, ?_, ?_, ?_⟩
  all_goals
    rintro ⟨_, w, _, hop, _, hd⟩
    cases hop
    exact absurd hd (by decide)

/-- OnlyTicksMoveTick: TICK_EN = 1 and 0, and a turn that is neither a tick nor reset. -/
theorem witness_ticks :
    marked.tmr.tickEn = true ∧ s0.tmr.tickEn = false ∧ (sched s0 [.trig] []).nextTurn ≠ .tick ∧
    (sched s0 [.trig] []).nextTurn ≠ .reset ∧ ∃ t, step (sched s0 [.trig] []) = .next t :=
  ⟨by decide, by decide, by decide, by decide, _, rfl⟩

/-- The steps of `marked` mark nothing. -/
theorem marked_run_no_mark (k : Nat) (h : k < 4) : ¬ (runFrom marked k).Marks := by
  have hk : (runFrom marked k).nextTurn ≠ .reset ∧ (runFrom marked k).nextTurn ≠ .seqAdvance ∧
      ∀ target w rest, (runFrom marked k).env.host ≠ .write target 32 w :: rest := by
    match k with
    | 0 | 1 | 2 | 3 => exact ⟨by decide, by decide, fun _ _ _ e => by cases e⟩
  rintro (h | ⟨h, _⟩ | ⟨_, _, ⟨_, _, _, h, _⟩ | ⟨_, _, _, h, _⟩⟩)
  · exact hk.1 h
  · exact hk.2.1 h
  · exact hk.2.2 _ _ _ h
  · exact hk.2.2 _ _ _ h

/-- ElapsedCountsTicks: a step that writes TICK_REF (an advance), and a run from a mark across TICK's wrap with two
ticks, a HOST read and an rx turn. -/
theorem witness_elapsed :
    (∃ t, step (sched session [.seqAdvance] []) = .next t ∧ t.tmr.tickRef ≠ session.tmr.tickRef) ∧
    (∀ k, k < 4 → step (runFrom marked k) = .next (runFrom marked (k + 1))) ∧
    (runFrom marked 0).tmr.tickEn = true ∧ (runFrom marked 0).tmr.tickRef = (runFrom marked 0).tmr.tick ∧
    (∀ k, k < 4 → ¬ (runFrom marked k).Marks) ∧ (runFrom marked 4).elapsed = 2 := by
  refine ⟨⟨_, rfl, by decide⟩, fun k h => ?_, rfl, rfl, marked_run_no_mark, by decide⟩
  match k with
  | 0 | 1 | 2 | 3 => rfl

/-- PbLoadRecordsValidBuffers: where its two cases meet, at the top of the address space. -/
theorem witness_valid_buffer :
    validBuffer build 0xFFFFFFFE 1 = true ∧ validBuffer build 0xFFFFFFFC 2 = true ∧
    validBuffer build 0xFFFFFFFE 2 = false ∧ validBuffer build 0 0x7FFFFFFF = true ∧
    validBuffer build 0 0x80000000 = false ∧ validBuffer build 1 1 = false ∧ validBuffer build 0 0 = false := by decide

/-- PbStartArmsTheChannel: both cases. -/
theorem witness_start : playing.port.busy = false ∧ playing.pb.pbCnt ≠ 0 ∧ s0.pb.pbCnt = 0 := by decide

/-- TriggerMovesOneSample: the conditions, and each way to fail one. -/
theorem witness_trigger :
    playing.pb.srtEn = true ∧ playing.pb.chEn = true ∧
    (∀ j, j < playing.build.bps.toNat → memAdmits playing.build (playing.pb.sar + BitVec.ofNat 32 j) = true) ∧
    s0.pb.srtEn = false ∧ s0.pb.chEn = false ∧
    (let s := { playing with build := { build with admitted := [(0, 0x4000)] } }
     ∃ j, j < s.build.bps.toNat ∧ memAdmits s.build (s.pb.sar + BitVec.ofNat 32 j) = false) :=
  ⟨by decide, by decide, by decide, by decide, by decide, 1, by decide, by decide⟩

/-- ReloadRestartsTheLoadedBuffer: both cases. -/
theorem witness_reload :
    playing.pb.pbst ≠ .reload ∧ ({ playing.pb with pbst := .reload } : Playback).pbst = .reload := by decide

/-- LoadedBufferLoops: twice round a buffer of two samples. -/
theorem witness_loop :
    playing.pb.srtEn = true ∧ validBuffer playing.build playing.pb.pbSrc playing.pb.pbCnt = true ∧
    playing.pb = { playing.pb with
      sar := playing.pb.pbSrc, dar := playing.build.dacAddr
      bcr := playing.pb.pbCnt * BitVec.ofNat 32 playing.build.bps.toNat
      done := false, chEn := true, pbst := .armed } ∧
    (∀ j, j < playing.pb.pbCnt.toNat * playing.build.bps.toNat →
      memAdmits playing.build (playing.pb.pbSrc + BitVec.ofNat 32 j) = true) ∧
    (playing.takeTurns [.trig, .trig, .reload, .trig, .trig, .reload]).dac = [0x1234, 0xABCD, 0x1234, 0xABCD] := by
  decide

/-- PlaybackStateTransitions, EveryStepKeepsTheInvariant: a step that changes PBST. -/
theorem witness_transition :
    let s := sched playing [.trig] []
    s.Inv ∧ ∃ t, step s = .next t ∧ t.pb.pbst ≠ s.pb.pbst :=
  ⟨playing_inv.setEnv _, _, rfl, by decide⟩

/-- SeqAdvancePlaysTheNextNote: enabled one tick past the threshold, not at it; the next note and its descriptor. -/
theorem witness_advance :
    session.enabled .seqAdvance = true ∧
    State.enabled { session with tmr := { session.tmr with tick := 1 } } .seqAdvance = false ∧
    (0 : Fin 3).val = (session.seq.idx.val + 1) % 3 ∧
    (⟨0x6000, 8⟩ : Desc) = [session.seq.desc0, session.seq.desc1, session.seq.desc2].getD (0 : Fin 3).val ⟨0, 0⟩ := by
  decide

/-- SeqEndClosesTheSession, AdvanceAndEndExcludeEachOther: enabled at the budget, not one tick before. -/
theorem witness_end :
    State.enabled { session with tmr := { session.tmr with tick := 10 } } .seqEnd = true ∧
    State.enabled { session with tmr := { session.tmr with tick := 9 } } .seqEnd = false := by decide

/-- NotesFollowCyclically: an advance from note 2 to note 0. -/
theorem witness_note :
    ∃ t, step (sched session [.seqAdvance] []) = .next t ∧ t.seq.idx ≠ (sched session [.seqAdvance] []).seq.idx :=
  ⟨_, rfl, by decide⟩

/-- ResetMeetsTheInvariant, TheBlockIsQuiescentAfterReset: a canonical memory, and the state itself. -/
theorem witness_reset_memory : Memory.wf playing.mem = true ∧ s0 = State.resetWith build [] Env.initial :=
  ⟨by decide, rfl⟩

/-- OnlyListedStepsWriteResult: RB_LEN changes RESULT. -/
theorem witness_result :
    let s := sched { s0 with rx := ring3 } [.host] [.write (.offset 0) 32 0x13]
    ∃ t, step s = .next t ∧ t.port.result ≠ s.port.result :=
  ⟨_, rfl, by decide⟩

/-- CommandsLeaveTheRestAlone: RB_DEQ, and a command that is none of the exceptions. -/
theorem witness_commands :
    (∃ t, exec (.rbDeq .rx) { args 0x3000 3 with rx := ring3 } = .next t) ∧
    (∃ t, exec .tmrNow s0 = .next t) ∧ (∀ r, Instr.tmrNow ≠ .rbDeq r) ∧ Instr.tmrNow ≠ .serWrite ∧
    Instr.tmrNow ≠ .serReadByte :=
  ⟨⟨_, rfl⟩, ⟨_, rfl⟩, by intro r; cases r <;> decide, by decide, by decide⟩

/-- OnlyRbDeqAndTheHostWriteMemory: a trigger, and a HOST turn that issues RB_ENQ. -/
theorem witness_memory :
    (let s := sched playing [.trig] []
     s.nextTurn ≠ .host ∧ ∃ t, step s = .next t) ∧
    (let s := sched playing [.host] [.write (.offset 0) 32 0x11]
     (∀ r, ¬ s.Issues (.rbDeq r)) ∧ (∀ a n v rest, s.env.host ≠ .memWrite a n v :: rest) ∧ ∃ t, step s = .next t) := by
  refine ⟨⟨by decide, _, rfl⟩, ?_, ?_, _, rfl⟩
  · rintro r ⟨_, w, _, hop, _, hd⟩
    cases hop
    cases r <;> exact absurd hd (by decide)
  · intro a n v rest h
    cases h

/-- SerialAndPlaybackAreIndependent: its lists are not empty. -/
theorem witness_lists :
    Turn.complete ∈ [Turn.rx, Turn.txReady, Turn.complete] ∧ Turn.seqAdvance ∈ [Turn.trig, .reload, .seqAdvance, .seqEnd] ∧
    Instr.serWrite ∈ [Instr.serInit, .serWrite, .serReadByte] ∧ Instr.seqPlay ∈ [Instr.pbLoad, .pbStart, .pbStop, .seqPlay] := by
  decide

/-- No BLOCK step is near: no command held, nothing playing, no session, and the HOST's program is at its end. -/
structure Quiet (s : State) : Prop where
  heldOp : s.port.heldOp = .none
  pbst : s.pb.pbst = .idle
  chEn : s.pb.chEn = false
  seq : s.seq.active = false
  host : s.env.host = []

theorem quiet_no_block_step {s : State} (h : Quiet s) {a : Turn} (ha : IsBlockTurn a) : s.enabled a = false := by
  rcases ha with rfl | rfl | rfl | rfl
  · simp [State.enabled, State.agentStep, State.completeStep, h.heldOp]
  · simp [State.enabled, State.agentStep, State.reloadStep, h.pbst]
  · simp [State.enabled, State.agentStep, State.seqAdvanceStep, State.advanceEnabled, h.seq]
  · simp [State.enabled, State.agentStep, State.seqEndStep, h.seq]

theorem quiet_agentStep {s t : State} (h : Quiet s) (a : Turn) (hs : s.agentStep a = some t) : Quiet t := by
  obtain ⟨h1, h2, h3, h4, h5⟩ := h
  have hk := State.agentStep_some hs
  cases a with
  | host => exact hk.elim
  | arrive b err => subst hk; exact ⟨h1, h2, h3, h4, h5⟩
  | rx =>
    obtain ⟨_, x, rest, _, ht⟩ := hk
    obtain ⟨p, q, v, hr⟩ := State.receive_eq { s with env := { s.env with uartHeld := rest } } x
    rw [hr] at ht
    subst ht
    exact ⟨h1, h2, h3, h4, h5⟩
  | txReady =>
    obtain ⟨_, ⟨_, rfl⟩ | ⟨_, rfl⟩⟩ := hk
    · exact ⟨h1, h2, h3, h4, h5⟩
    · exact ⟨h1, h2, h3, h4, h5⟩
  | tick =>
    obtain ⟨_, rfl⟩ := hk
    exact ⟨h1, h2, h3, h4, h5⟩
  | trig => exact absurd hk.2.1 (by simp [h3])
  | complete =>
    rcases hk with ⟨h, _⟩ | ⟨h, _⟩
    · exact absurd h (by simp [h1])
    · exact absurd h (by simp [h1])
  | reload => exact absurd hk.1 (by simp [h2])
  | seqAdvance => exact absurd (State.advanceEnabled_iff.mp hk.1).1 (by simp [h4])
  | seqEnd => exact absurd hk.1.1 (by simp [h4])
  | reset =>
    subst hk
    exact ⟨rfl, rfl, rfl, rfl, h5⟩

/-- A quiet state's next state, quiet again. -/
theorem quiet_step {s : State} (h : Quiet s) : ∃ t, step s = .next t ∧ Quiet t := by
  have hc : Quiet s.afterChoice := by
    rw [s.afterChoice_eq]
    exact ⟨h.heldOp, h.pbst, h.chEn, h.seq, s.afterChoice_host.trans h.host⟩
  by_cases ha : s.nextTurn = .host
  · refine ⟨s.afterChoice, ?_, hc⟩
    rw [step, ha, State.takeTurn_host, State.hostTurn, hc.host]
  · rw [step, State.takeTurn_agent _ ha]
    refine ⟨_, rfl, ?_⟩
    cases hs : s.afterChoice.agentStep s.nextTurn with
    | none => exact hc
    | some u => exact quiet_agentStep hc _ hs

/-- In a run from reset the HOST does nothing. -/
theorem run_quiet (k : Nat) : Quiet (runFrom s0 k) := by
  induction k with
  | zero => exact ⟨rfl, rfl, rfl, rfl, rfl⟩
  | succ k ih =>
    obtain ⟨t, ht, hq⟩ := quiet_step ih
    rw [runFrom, ht]
    exact hq

/-- FairRunsTakeBlockSteps: a run, weakly fair. -/
theorem witness_fair_run : IsRun (runFrom s0) ∧ WeaklyFair (runFrom s0) := by
  refine ⟨fun k => ?_, fun a ha k hen => ?_⟩
  · obtain ⟨t, ht, _⟩ := quiet_step (run_quiet k)
    rw [runFrom, ht]
    rfl
  · exact absurd (hen k (Nat.le_refl k)) (by simp [quiet_no_block_step (run_quiet k) ha])

end Sys2Proof.Tests
end

/-! ## The invariant of State over resets and steps (O52, O53) -/

namespace Sys2Proof.Machine

section
variable {s t : State}

/-- The invariant right after reset, for any build, any agents' state and any canonical memory (10 rule R70). -/
theorem State.resetWith_inv (b : Build) {m : Memory} (e : Env) (hm : m.wf = true) : (State.resetWith b m e).Inv where
  rx := Ring.create_wf (isCap_cap b .rx)
  tx := Ring.create_wf (isCap_cap b .tx)
  port := by simp [State.resetWith, Port.Wf]
  pbState := by simp [State.resetWith, Playback.StateWf]
  pbPending := by simp [State.resetWith, Playback.PendingWf]
  pbActive := by simp [State.resetWith, Playback.ActiveWf]
  pbDar := by simp [State.resetWith, Playback.DarWf]
  seqPlaying := by simp [State.resetWith]
  err := by simp [State.resetWith, Err.Wf]
  mem := hm
  dac := by simp [State.resetWith, State.DacWf]

/-- A change of the sequencer that activates no idle session. -/
theorem State.Inv.setSeq (h : s.Inv) {q : Sequencer} (hq : q.active = true → s.pb.pbst ≠ .idle) :
    State.Inv { s with seq := q } :=
  ⟨h.rx, h.tx, h.port, h.pbState, h.pbPending, h.pbActive, h.pbDar, hq, h.err, h.mem, h.dac⟩

/-- A register write keeps the invariant: the invariant speaks of none of the writable registers. -/
theorem State.Inv.of_writeReg (h : s.Inv) {r : Reg} {w : Word} (hw : s.writeReg r w = some t) : t.Inv := by
  obtain ⟨a, n, nt, b, ec, sr, d0, d1, d2, rfl⟩ := State.writeReg_some hw
  exact ⟨h.rx, h.tx, h.port, h.pbState, h.pbPending, h.pbActive, h.pbDar, h.seqPlaying, h.err, h.mem, h.dac⟩

/-- PB_STOP: playback goes idle, and with it the session (43 rule R316). -/
theorem State.Inv.pbStop (h : s.Inv) :
    State.Inv { s with
      pb := { s.pb with chEn := false, done := false, pbst := .idle }
      seq := { s.seq with active := false } } where
  rx := h.rx
  tx := h.tx
  port := h.port
  pbState := by simp [Playback.StateWf]
  pbPending := ⟨h.pbPending.1, fun hne => absurd rfl hne⟩
  pbActive := by simp [Playback.ActiveWf]
  pbDar := ⟨h.pbDar.1, fun hne => absurd rfl hne⟩
  seqPlaying := by simp
  err := h.err
  mem := h.mem
  dac := h.dac

/-- SEQ_PLAY with valid descriptors: the first note starts, and the session with it (44 rule R360). -/
theorem State.Inv.startSession (h : s.Inv) (hv : s.descsValid = true) :
    State.Inv { s.playNote 0 with seq := { (s.playNote 0).seq with t0 := s.tmr.tick, active := true } } := by
  rw [State.descsValid, Bool.and_eq_true, Bool.and_eq_true] at hv
  obtain ⟨⟨hfirst, -⟩, -⟩ := hv
  have harmed : (s.playNote 0).pb.pbst = .armed := rfl
  exact (h.playNote (k := 0) hfirst).setSeq fun _ => by simp [harmed]

/-- Every command that answers a next state keeps the invariant. -/
theorem State.Inv.of_exec (h : s.Inv) {i : Instr} (hx : exec i s = .next t) : t.Inv := by
  obtain ⟨-, rfl⟩ | ⟨-, hrule⟩ := exec_next hx
  · exact h.raise _
  have hl := h.latch
  cases i <;> dsimp only at hrule
  case rbInit r => exact hrule ▸ hl.createRing r
  case rbEnq r => exact hl.enqueue hrule
  case rbDeq r => exact hl.dequeue hrule
  case rbLen r => exact hrule ▸ hl.setResult _
  case rbEmpty r => exact hrule ▸ hl.setResult _
  case serInit => exact hrule ▸ ((hl.createRing .rx).createRing .tx).setSer _
  case serWrite => exact hrule ▸ hl.hold (by decide)
  case serReadByte => exact hrule ▸ hl.hold (by decide)
  case tmrInit => exact hrule ▸ hl.setTmr _
  case tmrNow => exact hrule ▸ hl.setResult _
  case tmrMark => exact hrule ▸ hl.setTmr _
  case tmrElapsed => exact hrule ▸ hl.setResult _
  case pbLoad =>
    split at hrule
    next hv => exact hrule ▸ hl.loadBuffer hv
    next => exact hrule ▸ hl.raise _
  case pbStart =>
    split at hrule
    next => exact hrule ▸ hl.raise _
    next hn => exact hrule ▸ hl.start hn
  case pbStop => exact hrule ▸ hl.pbStop
  case seqPlay =>
    split at hrule
    next hv => exact hrule ▸ hl.startSession hv
    next => exact hrule ▸ hl.raise _

/-- Removing the oldest byte of a non-empty ring. -/
theorem State.Inv.dropRing (h : s.Inv) {r : RingSel} (hl : 0 < (s.ring r).len) :
    (s.setRing r (Ring.drop (s.cap r) (s.ring r))).Inv :=
  h.setRing r (Ring.drop_wf (s.isCap r) (h.ring r) hl)

/-- Every enabled step of an agent other than HOST keeps the invariant. -/
theorem State.Inv.of_agentStep (h : s.Inv) {a : Turn} (ha : s.agentStep a = some t) : t.Inv := by
  have hstep := State.agentStep_some ha
  cases a <;> dsimp only at hstep
  case arrive b err => exact hstep ▸ h.setEnv _
  case rx =>
    obtain ⟨-, x, rest, -, rfl⟩ := hstep
    exact (h.setEnv _).receive x
  case txReady =>
    obtain ⟨-, ⟨hl, rfl⟩ | ⟨-, rfl⟩⟩ := hstep
    · exact (h.dropRing (r := .tx) hl).setUartTx _
    · exact h.setSer _
  case tick => exact hstep.2 ▸ h.setTmr _
  case trig =>
    obtain ⟨-, hch, -, rfl⟩ := hstep
    exact (h.advance hch).pushDac s.sample_lt
  case complete =>
    obtain ⟨-, -, u, hu, rfl⟩ | ⟨-, hl, rfl⟩ := hstep
    · exact ((h.enqueue hu).setSer _).release
    · exact ((h.dropRing (r := .rx) hl).setResult _).release
  case reload =>
    obtain ⟨hr, rfl⟩ := hstep
    exact h.start (h.pbPending.2 (by simp [hr]))
  case seqAdvance =>
    obtain ⟨-, ⟨hv, rfl⟩ | ⟨-, rfl⟩⟩ := hstep
    · exact h.playNote hv
    · exact (h.setSeq (by simp)).raise _
  case seqEnd => exact hstep.2 ▸ h.setSeq (by simp)
  case reset => exact hstep ▸ State.resetWith_inv _ _ h.mem

/-- Every step of every agent keeps the invariant. -/
theorem State.Inv.of_step (h : s.Inv) (hs : step s = .next t) : t.Inv := by
  by_cases ha : s.nextTurn = .host
  · obtain ⟨e, rfl | ⟨c, rfl⟩ | ⟨r, w, hw⟩ | ⟨i, -, hx⟩ | ⟨a, n, v, _, -, rfl⟩⟩ := step_host hs ha
    · exact h.setEnv e
    · exact (h.setEnv e).raise c
    · exact (h.setEnv e).of_writeReg hw
    · exact (h.setEnv e).of_exec hx
    · exact (h.setEnv e).setMem (Memory.memWrite_wf a n v h.mem)
  · obtain ⟨e, -, rfl | hstep⟩ := step_agent hs ha
    · exact h.setEnv e
    · exact (h.setEnv e).of_agentStep hstep

end

/-- Settles O53: a step is one agent's step or one HOST access (`step_agent`, `step_host`), and each keeps the
invariant. -/
theorem everyStepKeepsTheInvariant : Obligations.EveryStepKeepsTheInvariant :=
  fun _ _ h hs => h.of_step hs

/-- Settles O52: the machine at power-on is the reset state with no memory cell listed. -/
theorem resetMeetsTheInvariant : Obligations.ResetMeetsTheInvariant :=
  ⟨State.resetWith_inv _ _ rfl, fun b _ e hm => State.resetWith_inv b e hm⟩

end Sys2Proof.Machine

/-! ## What commands and steps leave unchanged (O57) -/

namespace Sys2Proof.Machine

/-- The part of the state that no command writes (10 rules R30, R55, R68; 42 rule R285). -/
structure CommandFixed where
  build : Build
  uartTx : List Byte
  dac : List Word
  env : Env
  argAddr : Word
  argN : Word
  echo : Bool
  srtEn : Bool
  tick : Word
  noteTicks : Word
  budget : Word
  desc0 : Desc
  desc1 : Desc
  desc2 : Desc

/-- What a state holds of the part that no command writes. -/
def State.commandFixed (s : State) : CommandFixed where
  build := s.build
  uartTx := s.uartTx
  dac := s.dac
  env := s.env
  argAddr := s.port.argAddr
  argN := s.port.argN
  echo := s.ser.echo
  srtEn := s.pb.srtEn
  tick := s.tmr.tick
  noteTicks := s.seq.noteTicks
  budget := s.seq.budget
  desc0 := s.seq.desc0
  desc1 := s.seq.desc1
  desc2 := s.seq.desc2

section
variable {s t : State}

/-- RB_ENQ's pseudocode writes its ring and RESULT only (40 rule R205). -/
theorem State.enqueue_frame {r : RingSel} {a n : Word} (h : s.enqueue r a n = some t) :
    t.commandFixed = s.commandFixed ∧ t.mem = s.mem ∧ t.port.busy = s.port.busy ∧ t.port.heldOp = s.port.heldOp := by
  obtain ⟨bytes, v, -, rfl⟩ := State.enqueue_some h
  cases r <;> exact ⟨rfl, rfl, rfl, rfl⟩

/-- RB_DEQ's pseudocode writes its ring, memory and RESULT only (40 rule R206). -/
theorem State.dequeue_frame {r : RingSel} {a n : Word} (h : s.dequeue r a n = some t) :
    t.commandFixed = s.commandFixed ∧ t.port.busy = s.port.busy ∧ t.port.heldOp = s.port.heldOp := by
  obtain ⟨k, bytes, v, -, rfl⟩ := State.dequeue_some h
  cases r <;> exact ⟨rfl, rfl, rfl⟩

/-- The frame of every command: the fixed part always, memory but for RB_DEQ, BUSY and HELD_OP but for the two commands
that are held. -/
theorem exec_frame {i : Instr} (h : exec i s = .next t) :
    t.commandFixed = s.commandFixed ∧ ((∀ r, i ≠ .rbDeq r) → t.mem = s.mem) ∧
      (i ≠ .serWrite → i ≠ .serReadByte → t.port.busy = s.port.busy ∧ t.port.heldOp = s.port.heldOp) := by
  obtain ⟨-, rfl⟩ | ⟨-, hrule⟩ := exec_next h
  · exact ⟨rfl, fun _ => rfl, fun _ _ => ⟨rfl, rfl⟩⟩
  cases i <;> dsimp only at hrule
  case rbInit r =>
    subst hrule
    cases r <;> exact ⟨rfl, fun _ => rfl, fun _ _ => ⟨rfl, rfl⟩⟩
  case rbEnq r =>
    obtain ⟨hfixed, hmem, hheld⟩ := State.enqueue_frame hrule
    exact ⟨hfixed, fun _ => hmem, fun _ _ => hheld⟩
  case rbDeq r =>
    obtain ⟨hfixed, hheld⟩ := State.dequeue_frame hrule
    exact ⟨hfixed, fun hne => absurd rfl (hne r), fun _ _ => hheld⟩
  case serWrite => exact hrule ▸ ⟨rfl, fun _ => rfl, fun hne => absurd rfl hne⟩
  case serReadByte => exact hrule ▸ ⟨rfl, fun _ => rfl, fun _ hne => absurd rfl hne⟩
  case pbLoad | pbStart | seqPlay => split at hrule <;> exact hrule ▸ ⟨rfl, fun _ => rfl, fun _ _ => ⟨rfl, rfl⟩⟩
  all_goals exact hrule ▸ ⟨rfl, fun _ => rfl, fun _ _ => ⟨rfl, rfl⟩⟩

/-- No agent's step changes the build (00 rule R6). -/
theorem State.agentStep_build {a : Turn} (ha : s.agentStep a = some t) : t.build = s.build := by
  have hstep := State.agentStep_some ha
  cases a <;> dsimp only at hstep
  case rx =>
    obtain ⟨-, x, rest, -, rfl⟩ := hstep
    obtain ⟨p, q, v, hx⟩ := State.receive_eq { s with env := { s.env with uartHeld := rest } } x
    rw [hx]
  case txReady => obtain ⟨-, ⟨-, rfl⟩ | ⟨-, rfl⟩⟩ := hstep <;> rfl
  case complete =>
    obtain ⟨-, -, u, hu, rfl⟩ | ⟨-, -, rfl⟩ := hstep
    · exact congrArg CommandFixed.build (State.enqueue_frame hu).1
    · rfl
  case trig => exact hstep.2.2.2 ▸ rfl
  case seqAdvance => obtain ⟨-, ⟨-, rfl⟩ | ⟨-, rfl⟩⟩ := hstep <;> rfl
  case tick | reload | seqEnd => exact hstep.2 ▸ rfl
  case arrive | reset => exact hstep ▸ rfl

/-- No step changes the build (00 rule R6). -/
theorem step_build (hs : step s = .next t) : t.build = s.build := by
  by_cases ha : s.nextTurn = .host
  · obtain ⟨e, rfl | ⟨c, rfl⟩ | ⟨r, w, hw⟩ | ⟨i, -, hx⟩ | ⟨a, n, v, _, -, rfl⟩⟩ := step_host hs ha
    · rfl
    · rfl
    · obtain ⟨_, _, _, _, _, _, _, _, _, rfl⟩ := State.writeReg_some hw
      rfl
    · exact congrArg CommandFixed.build (exec_frame hx).1
    · rfl
  · obtain ⟨e, -, rfl | hstep⟩ := step_agent hs ha
    · rfl
    · exact State.agentStep_build (s := { s with env := e }) hstep

end

/-- Settles O57: `exec_frame`, with the fixed part taken apart field by field. -/
theorem commandsLeaveTheRestAlone : Obligations.CommandsLeaveTheRestAlone := by
  intro i s t h
  obtain ⟨hfixed, hmem, hheld⟩ := exec_frame h
  obtain ⟨hbuild, huartTx, hdac, henv, hargAddr, hargN, hecho, hsrtEn, htick, hnoteTicks, hbudget, hdesc0, hdesc1,
    hdesc2⟩ := CommandFixed.mk.inj hfixed
  exact ⟨hbuild, huartTx, hdac, henv, hargAddr, hargN, hecho, hsrtEn, htick, hnoteTicks, hbudget, hdesc0, hdesc1,
    hdesc2, fun hne a => by rw [hmem hne], hheld⟩

end Sys2Proof.Machine

/-! ## Bus accesses (O11, O9, O10) -/

namespace Sys2Proof.Machine

section
variable {s t : State}

/-- Registers stand at aligned offsets below 0x80 (10 rule R50). -/
theorem Reg.offset_lt_and_aligned (r : Reg) : r.offset.toNat < 0x80 ∧ r.offset.toNat % 4 = 0 := by
  cases r <;> decide

/-- An access above the map, misaligned, or not 32 bits wide reaches no register (10 rule R82). -/
theorem reachedReg_eq_none {off : BitVec 8} {bits : Nat} (h : 0x80 ≤ off.toNat ∨ off.toNat % 4 ≠ 0 ∨ bits ≠ 32) :
    reachedReg off bits = none := by
  cases hr : reachedReg off bits with
  | none => rfl
  | some r =>
    obtain ⟨hbits, hoff⟩ : bits = 32 ∧ Reg.ofOffset off = some r := by simpa [reachedReg] using hr
    have hr' := r.offset_lt_and_aligned
    rw [Reg.offset_of_ofOffset hoff] at hr'
    omega

/-- An access at a register's offset reaches that register or, for another width, none. -/
theorem reachedReg_offset (r : Reg) (bits : Nat) : reachedReg r.offset bits = some r ∨ reachedReg r.offset bits = none := by
  simp only [reachedReg, Reg.ofOffset_offset]
  split
  · exact .inl rfl
  · exact .inr rfl

/-- A read that reaches no readable register returns 0 and raises BAD_REG (10 rule R82). -/
theorem State.busRead_bad {off : BitVec 8} {bits : Nat} (h : (reachedReg off bits).bind s.readReg = none) :
    s.busRead off bits = (0, s.raise .badReg) := by
  simp [State.busRead, h]

/-- A write that reaches no register raises BAD_REG (10 rule R82). -/
theorem State.busWrite_unreached {off : BitVec 8} {bits : Nat} (w : Word) (h : reachedReg off bits = none) :
    s.busWrite off bits w = .next (s.raise .badReg) := by
  simp [State.busWrite, h]

/-- A write that a register refuses raises BAD_REG, whatever its width (10 rule R82). -/
theorem State.busWrite_refused {r : Reg} {w : Word} (bits : Nat) (hr : r ≠ .cmd) (hw : s.writeReg r w = none) :
    s.busWrite r.offset bits w = .next (s.raise .badReg) := by
  by_cases hbits : bits = 32
  · rw [hbits, State.busWrite_reg hr, hw, Option.getD_none]
  · exact State.busWrite_unreached w (reachedReg_eq_none (.inr (.inr hbits)))

/-- A write that a register takes (10 rule R81). -/
theorem State.busWrite_taken {r : Reg} {w : Word} (hw : s.writeReg r w = some t) :
    s.busWrite r.offset 32 w = .next t := by
  have hr : r ≠ .cmd := by
    rintro rfl
    cases hw
  rw [State.busWrite_reg hr, hw, Option.getD_some]

/-- The registers a HOST can only read (10 rule R50). -/
def readOnlyRegs : List Reg :=
  [.result, .status, .err, .param, .rxLen, .rxWidx, .rxRidx, .txLen, .txWidx, .txRidx, .tick, .tickRef, .now, .elapsed,
   .pbSrc, .pbCnt, .dmaSar, .dmaDar, .dmaBcr, .seqT0]

/-- A read-only register is not CMD, and refuses every word. -/
theorem writeReg_readOnly {r : Reg} (hr : r ∈ readOnlyRegs) (w : Word) : r ≠ .cmd ∧ s.writeReg r w = none := by
  cases r
  case cmd | argAddr | argN | ctrl | seqNoteTicks | seqBudget | seqAddr0 | seqCnt0 | seqAddr1 | seqCnt1 | seqAddr2
      | seqCnt2 => exact absurd hr (by decide)
  all_goals exact ⟨by decide, rfl⟩

/-- A word has no bit set above CTRL's two iff it is below 4 (10 rule R55). -/
theorem extractLsb'_reserved_eq_zero_iff (w : Word) : w.extractLsb' 2 30 = 0 ↔ w.toNat < 4 := by
  rw [← BitVec.toNat_inj, BitVec.extractLsb'_toNat, Nat.shiftRight_eq_div_pow]
  have hlt := w.isLt
  simp only [BitVec.ofNat_eq_ofNat, BitVec.toNat_ofNat]
  omega

end

/-- Settles O11: an access of the first three classes reaches no register, CMD is not readable, and the read-only
registers and CTRL refuse the write. -/
theorem badAccessesRaiseBadReg : Obligations.BadAccessesRaiseBadReg := by
  intro s off bits w
  refine ⟨fun hbad => ?_, fun hro => ?_, ?_, fun hres => ?_⟩
  · have hnone := reachedReg_eq_none hbad
    exact ⟨State.busRead_bad (by rw [hnone]; rfl), State.busWrite_unreached w hnone⟩
  · obtain ⟨r, hr, rfl⟩ : ∃ r ∈ readOnlyRegs, r.offset = off := List.mem_map.mp hro
    obtain ⟨hcmd, hw⟩ := writeReg_readOnly hr w
    exact State.busWrite_refused bits hcmd hw
  · refine State.busRead_bad (off := Reg.cmd.offset) ?_
    obtain h | h := reachedReg_offset .cmd bits <;> rw [h] <;> rfl
  · exact State.busWrite_refused (r := .ctrl) bits (by decide) (if_neg hres)

/-- Settles O9: each register's own offset, and what it reads as. -/
theorem registerReads : Obligations.RegisterReads := by
  intro s
  have hread : ∀ {r : Reg} {v : Word}, s.readReg r = some v → s.busRead r.offset 32 = (v, s) :=
    State.busRead_readable
  exact ⟨hread (r := .argAddr) rfl, hread (r := .argN) rfl, hread (r := .result) rfl, hread (r := .rxLen) rfl,
    hread (r := .rxWidx) rfl, hread (r := .rxRidx) rfl, hread (r := .txLen) rfl, hread (r := .txWidx) rfl,
    hread (r := .txRidx) rfl, hread (r := .tick) rfl, hread (r := .tickRef) rfl, hread (r := .now) rfl,
    hread (r := .elapsed) rfl, hread (r := .pbSrc) rfl, hread (r := .pbCnt) rfl, hread (r := .dmaSar) rfl,
    hread (r := .dmaDar) rfl, hread (r := .dmaBcr) rfl, hread (r := .seqNoteTicks) rfl, hread (r := .seqBudget) rfl,
    hread (r := .seqT0) rfl, hread (r := .seqAddr0) rfl, hread (r := .seqCnt0) rfl, hread (r := .seqAddr1) rfl,
    hread (r := .seqCnt1) rfl, hread (r := .seqAddr2) rfl, hread (r := .seqCnt2) rfl⟩

/-- Settles O10: CTRL takes a word exactly where its reserved bits are 0, every other writable register takes any. -/
theorem registerWrites : Obligations.RegisterWrites := by
  intro s w
  have hwrite : ∀ {r : Reg} {t : State}, s.writeReg r w = some t → s.busWrite r.offset 32 w = .next t :=
    State.busWrite_taken
  have hctrl := extractLsb'_reserved_eq_zero_iff w
  exact ⟨s.busWrite_cmd w, hwrite (r := .argAddr) rfl, hwrite (r := .argN) rfl,
    fun hlt => hwrite (r := .ctrl) (if_pos (hctrl.mpr hlt)),
    fun hle => State.busWrite_refused (r := .ctrl) 32 (by decide) (if_neg (mt hctrl.mp (Nat.not_lt.mpr hle))),
    hwrite (r := .seqNoteTicks) rfl, hwrite (r := .seqBudget) rfl, hwrite (r := .seqAddr0) rfl,
    hwrite (r := .seqCnt0) rfl, hwrite (r := .seqAddr1) rfl, hwrite (r := .seqCnt1) rfl,
    hwrite (r := .seqAddr2) rfl, hwrite (r := .seqCnt2) rfl⟩

end Sys2Proof.Machine

/-! ## The computed register images, bit by bit (O12, O13, O14) -/

namespace Sys2Proof.Machine

section
variable {n : Nat} (v : BitVec n)

/-- The bits of a field placed at `lo`. -/
theorem getLsbD_field (lo i : Nat) :
    (field v lo).getLsbD i = (decide (i < 32) && (decide (lo ≤ i) && v.getLsbD (i - lo))) := by
  by_cases hi : i < 32 <;> by_cases hlo : lo ≤ i <;>
    simp [field, hi, hlo]

/-- A field read back at its own place. -/
theorem extractLsb'_field_self {lo : Nat} (h : lo + n ≤ 32) : (field v lo).extractLsb' lo n = v := by
  apply BitVec.eq_of_getLsbD_eq
  intro i hi
  have hlt : lo + i < 32 := by omega
  simp only [BitVec.getLsbD_extractLsb', getLsbD_field]
  simp [hi, hlt]

/-- A field holds zeros outside its own place. -/
theorem extractLsb'_field_outside {lo start len : Nat} (h : start + len ≤ lo ∨ lo + n ≤ start) :
    (field v lo).extractLsb' start len = 0 := by
  apply BitVec.eq_of_getLsbD_eq
  intro i hi
  obtain hle | hge : start + i < lo ∨ n ≤ start + i - lo := by omega
  · simp [getLsbD_field, Nat.not_le.mpr hle]
  · simp [getLsbD_field, BitVec.getLsbD_of_ge v _ hge]

end

/-- A one-bit field is set at its own bit only. -/
theorem getLsbD_flag (b : Bool) (lo i : Nat) : (flag b lo).getLsbD i = (decide (i < 32) && (decide (i = lo) && b)) := by
  rw [flag, getLsbD_field]
  obtain hlt | rfl | hgt := Nat.lt_trichotomy i lo
  · simp [Nat.not_le.mpr hlt, Nat.ne_of_lt hlt]
  · simp
  · have hne : i - lo ≠ 0 := by omega
    simp [Nat.ne_of_gt hgt, BitVec.getLsbD_ofBool, hne]

/-- A one-bit field holds zeros outside its own bit. -/
theorem extractLsb'_flag_outside (b : Bool) {lo start len : Nat} (h : start + len ≤ lo ∨ lo + 1 ≤ start) :
    (flag b lo).extractLsb' start len = 0 :=
  extractLsb'_field_outside (BitVec.ofBool b) h

section
variable (s : State)

/-- The bits of STATUS that are flags (10 rule R54). -/
theorem State.status_flags :
    s.status.getLsbD 0 = s.port.busy ∧
    s.status.getLsbD 1 = s.empty .rx ∧ s.status.getLsbD 2 = s.full .rx ∧
    s.status.getLsbD 3 = s.empty .tx ∧ s.status.getLsbD 4 = s.full .tx ∧
    s.status.getLsbD 5 = s.ser.txie ∧ s.status.getLsbD 6 = s.ser.serEn ∧ s.status.getLsbD 7 = s.tmr.tickEn ∧
    s.status.getLsbD 10 = s.pb.chEn ∧ s.status.getLsbD 11 = s.pb.done ∧ s.status.getLsbD 12 = s.seq.active ∧
    s.status.getLsbD 15 = s.err.fault := by
  simp only [State.status, BitVec.getLsbD_or, getLsbD_flag, getLsbD_field]
  simp

/-- The two-bit fields of STATUS, and the bits it leaves reserved (10 rule R54). -/
theorem State.status_fields :
    s.status.extractLsb' 8 2 = s.pb.pbst.code ∧
    s.status.extractLsb' 13 2 = BitVec.ofNat 2 s.seq.idx.val ∧ s.status.extractLsb' 16 16 = 0 := by
  simp [State.status, BitVec.extractLsb'_or, extractLsb'_flag_outside, extractLsb'_field_outside,
    extractLsb'_field_self]

/-- The bits of CTRL (10 rule R55). -/
theorem State.ctrl_bits :
    s.ctrl.getLsbD 0 = s.ser.echo ∧ s.ctrl.getLsbD 1 = s.pb.srtEn ∧ s.ctrl.extractLsb' 2 30 = 0 := by
  simp only [State.ctrl, BitVec.getLsbD_or, getLsbD_flag]
  simp [BitVec.extractLsb'_or, extractLsb'_flag_outside]

/-- The bits of ERR (10 rule R56). -/
theorem State.errWord_bits :
    s.errWord.getLsbD 0 = s.err.fault ∧ s.errWord.extractLsb' 1 7 = 0 ∧ s.errWord.extractLsb' 8 8 = s.err.cause ∧
      s.errWord.extractLsb' 16 16 = 0 := by
  simp only [State.errWord, BitVec.getLsbD_or, getLsbD_flag, getLsbD_field]
  simp [BitVec.extractLsb'_or, extractLsb'_flag_outside, extractLsb'_field_outside, extractLsb'_field_self]

/-- ERR reads 0 while no fault has been taken (10 rule R56). -/
theorem State.Inv.errWord_unfaulted {s : State} (h : s.Inv) (hf : s.err.fault = false) : s.errWord = 0 := by
  have hcause : s.err.cause = 0 := h.err.1 hf
  simp [State.errWord, hf, hcause, flag, field]

/-- The fields of PARAM (10 rule R58). -/
theorem paramWord_fields (b : Build) :
    (paramWord b).extractLsb' 0 5 = BitVec.ofNat 5 b.kRx.val ∧ (paramWord b).extractLsb' 5 3 = 0 ∧
    (paramWord b).extractLsb' 8 5 = BitVec.ofNat 5 b.kTx.val ∧ (paramWord b).extractLsb' 13 3 = 0 ∧
    (paramWord b).extractLsb' 16 3 = BitVec.ofNat 3 b.bps.toNat ∧ (paramWord b).extractLsb' 19 5 = 0 ∧
    (paramWord b).extractLsb' 24 8 = version := by
  simp [paramWord, BitVec.extractLsb'_or, extractLsb'_field_outside, extractLsb'_field_self]

/-- A ring has room for at least one byte (00 rule R6). -/
theorem State.cap_pos (r : RingSel) : 0 < s.cap r := (s.isCap r).pos

/-- STATUS right after reset (10 rule R54): both rings empty, neither full, no other bit set. -/
theorem State.status_resetWith (b : Build) (m : Memory) (e : Env) : (State.resetWith b m e).status = 0x0000000A := by
  have hempty : ∀ r, (State.resetWith b m e).empty r = true := fun r => by cases r <;> rfl
  have hfull : ∀ r, (State.resetWith b m e).full r = false := fun r =>
    decide_eq_false (by cases r <;> exact Nat.ne_of_lt (State.cap_pos _ _))
  rw [State.status, hempty, hempty, hfull, hfull]
  simp only [State.resetWith]
  decide

end

/-- Settles O12: STATUS is an OR of fields at disjoint places, and no capacity is 0. -/
theorem statusShowsLiveState : Obligations.StatusShowsLiveState := by
  refine ⟨fun s => ?_, State.status_resetWith, fun s r _ ⟨hempty, hfull⟩ => ?_⟩
  · obtain ⟨h0, h1, h2, h3, h4, h5, h6, h7, h10, h11, h12, h15⟩ := s.status_flags
    obtain ⟨h8, h13, h16⟩ := s.status_fields
    refine ⟨s.status, State.busRead_readable (r := .status) rfl, h0, h1, h2, h3, h4, h5, h6, h7, ?_, h10, h11, h12, h13,
      h15, h16⟩
    rw [h8]
    cases s.pb.pbst <;> rfl
  · have hpos := s.cap_pos r
    omega

/-- Settles O13: CTRL and ERR are ORs of fields at disjoint places, and the invariant has CAUSE = 0 while
FAULT = 0. -/
theorem ctrlAndErrShowTheirFields : Obligations.CtrlAndErrShowTheirFields := by
  intro s
  obtain ⟨hecho, hsrt, hctrl⟩ := s.ctrl_bits
  obtain ⟨hfault, hlow, hcause, hhigh⟩ := s.errWord_bits
  exact ⟨s.ctrl, s.errWord, State.busRead_readable (r := .ctrl) rfl, State.busRead_readable (r := .err) rfl,
    hecho, hsrt, hctrl, hfault, hlow, hcause, hhigh, State.Inv.errWord_unfaulted⟩

/-- Settles O14: PARAM reads `paramWord` of the build, and no step changes the build. -/
theorem paramShowsTheBuild : Obligations.ParamShowsTheBuild := by
  have hread : ∀ s : State, s.busRead 0x1C 32 = (paramWord s.build, s) := fun s =>
    State.busRead_readable (r := .param) rfl
  refine ⟨fun s => ?_, fun s hrx htx hbps => ?_, fun s t => step_build⟩
  · obtain ⟨hrx, h5, htx, h13, hbps, h19, hversion⟩ := paramWord_fields s.build
    have hk : ∀ k : Fin 17, (BitVec.ofNat 5 k.val).toNat = k.val := fun k => Nat.mod_eq_of_lt (by omega)
    have hb : (BitVec.ofNat 3 s.build.bps.toNat).toNat = s.build.bps.toNat :=
      Nat.mod_eq_of_lt (Nat.lt_of_le_of_lt (bps_le _) (by decide))
    refine ⟨paramWord s.build, hread s, ?_, h5, ?_, h13, ?_, h19, hversion, fun t ht => ?_⟩
    · rw [hrx, hk]
    · rw [htx, hk]
    · rw [hbps, hb]
    · rw [hread t, ht]
  · rw [hread s, paramWord, hrx, htx, hbps]
    rfl

end Sys2Proof.Machine

/-! ## Whose turn it is, and the reset turn (O7, O59) -/

namespace Sys2Proof.Machine

section
variable {s : State}

/-- What the HOST's turn answers for an access's outcome: a stuck access changes nothing (20 rule R104). -/
def State.orStay (s : State) : Host.Outcome State Fault Refusal → Host.Outcome State Fault Refusal
  | .next t => .next t
  | .fault _ => .next s
  | .refused r => .refused r

/-- The HOST's turn when its program has an access left: the access is made in the state past it. -/
theorem State.hostTurn_cons {op : HostOp} {ops : List HostOp} (h : s.env.host = op :: ops) :
    s.hostTurn = s.orStay (State.hostAccess (s.setHost ops) op) := by
  simp only [State.hostTurn, h]
  cases State.hostAccess (s.setHost ops) op <;> rfl

/-- The step when it is the HOST's turn and its program has an access left. -/
theorem step_host_cons {op : HostOp} {ops : List HostOp} (ha : s.nextTurn = .host) (h : s.env.host = op :: ops) :
    step s = s.afterChoice.orStay (State.hostAccess (s.afterChoice.setHost ops) op) := by
  rw [step, ha, State.takeTurn_host, State.hostTurn_cons (s.afterChoice_host.trans h)]

/-- A HOST bus read in the block's window (20 rule R100). -/
theorem State.hostRead_window {target : BusTarget} {off : BitVec 8} (bits : Nat)
    (h : windowOffset s.build target = some off) :
    s.hostRead target bits = (s.busRead off bits).2.recordRead (s.busRead off bits).1 := by
  simp [State.hostRead, h]

/-- A HOST bus write in the block's window (20 rule R100). -/
theorem State.hostWrite_window {target : BusTarget} {off : BitVec 8} (bits : Nat) (w : Word)
    (h : windowOffset s.build target = some off) : s.hostWrite target bits w = s.busWrite off bits w := by
  simp [State.hostWrite, h]

/-- Choosing who moves leaves the build alone. -/
theorem State.afterChoice_setHost_build (ops : List HostOp) : (s.afterChoice.setHost ops).build = s.build := by
  obtain ⟨e, he⟩ := State.afterChoice_setHost (s := s) ops
  rw [he]

end

/-- Settles O7: the HOST's clauses are `step_host_cons` with the access inside the window. -/
theorem stepTakesOneTurn : Obligations.StepTakesOneTurn := by
  intro s
  refine ⟨fun a turns h => ?_, fun h => ?_, fun ha => ?_, fun ha h => ?_, fun target off bits ops ha h hoff => ?_,
    fun target off bits w ops ha h hoff => ?_⟩
  · simp [State.nextTurn, State.afterChoice, h]
  · simp [State.nextTurn, State.afterChoice, State.countDraw, h]
  · exact State.takeTurn_agent _ ha
  · rw [step, ha, State.takeTurn_host, State.hostTurn, s.afterChoice_host, h]
  · rw [step_host_cons ha h, State.hostAccess, State.hostRead_window bits (by rwa [State.afterChoice_setHost_build])]
    rfl
  · rw [step_host_cons ha h, State.hostAccess,
      State.hostWrite_window bits w (by rwa [State.afterChoice_setHost_build])]
    cases (s.afterChoice.setHost ops).busWrite off bits w <;> rfl

/-- Settles O59: the reset turn answers `State.resetStep`, whose rings are the fresh ones of the build. -/
theorem resetPutsEveryElementBack : Obligations.ResetPutsEveryElementBack := fun s =>
  s.takeTurn_agent (a := .reset) (by decide)

end Sys2Proof.Machine

/-! ## Accesses to system memory (O8, O22, O58) -/

namespace Sys2Proof.Machine

@[simp] theorem leBytes_length (n v : Nat) : (leBytes n v).length = n := by
  induction n generalizing v with
  | zero => rfl
  | succ n ih => rw [leBytes, List.length_cons, ih]

/-- Byte `j` of the little-endian bytes of a value (20 rule R101). -/
theorem leBytes_getElem (n v j : Nat) (h : j < (leBytes n v).length) :
    (leBytes n v)[j] = BitVec.ofNat 8 (v / 2 ^ (8 * j)) := by
  induction n generalizing v j with
  | zero => simp at h
  | succ n ih =>
    cases j with
    | zero => simp [leBytes]
    | succ j =>
      simp only [leBytes, List.getElem_cons_succ, ih]
      rw [Nat.div_div_eq_div_mul, Nat.mul_succ, Nat.pow_add, Nat.mul_comm (2 ^ (8 * j))]

/-- Byte `j` that `MemWrite(a, n, v)` writes, for at most 2^32 bytes (20 rule R101). -/
theorem Memory.read_memWrite_inside {m : Memory} (a : Word) {n : Nat} (v : Word) (hm : m.wf = true) (hn : n ≤ 2 ^ 32)
    {j : Nat} (hj : j < n) :
    Memory.read (Memory.memWrite m a n v) (a + BitVec.ofNat 32 j) = v.extractLsb' (8 * j) 8 := by
  rw [Memory.memWrite, Memory.read_writeSpan_inside a _ hm (by simpa using hn) j (by simpa using hj), leBytes_getElem,
    BitVec.extractLsb', Nat.shiftRight_eq_div_pow]

/-- `MemWrite(a, n, v)` writes no byte but `a` to `a + n - 1`, modulo 2^32 (20 rule R101). -/
theorem Memory.read_memWrite_outside (m : Memory) (a : Word) (n : Nat) (v : Word) {x : Word}
    (hx : ∀ j, j < n → x ≠ a + BitVec.ofNat 32 j) : Memory.read (Memory.memWrite m a n v) x = Memory.read m x :=
  Memory.read_writeSpan_outside m a _ (by simpa using hx)

/-- `MemRead(a, n)` of at most a word is the sum of its bytes (20 rule R101). -/
theorem Memory.memRead_toNat (m : Memory) (a : Word) {n : Nat} (hn : n ≤ 4) :
    (Memory.memRead m a n).toNat =
      (Finset.range n).sum fun j => (Memory.read m (a + BitVec.ofNat 32 j)).toNat * 2 ^ (8 * j) := by
  have hlt : leValue (Memory.readSpan m a n) < 2 ^ 32 :=
    calc leValue (Memory.readSpan m a n) < 256 ^ n := by simpa using leValue_lt (Memory.readSpan m a n)
      _ ≤ 256 ^ 4 := Nat.pow_le_pow_right (by decide) hn
      _ = 2 ^ 32 := by decide
  rw [Memory.memRead, BitVec.toNat_ofNat, Nat.mod_eq_of_lt hlt, Memory.readSpan_eq_map, leValue_map_range]

section
variable {s t : State}

/-- A transfer needs every one of its bytes admitted (20 rule R104). -/
theorem State.not_admitsSpan {a : Word} {j k : Nat} (hj : j < k)
    (hadm : memAdmits s.build (a + BitVec.ofNat 32 j) = false) : ¬ s.admitsSpan a k = true := by
  rw [State.admitsSpan_iff]
  exact fun hall => Bool.false_ne_true (hadm.symm.trans (hall j hj))

/-- RB_ENQ has no step when a byte it accepts is not admitted (20 rule R104). -/
theorem exec_rbEnq_stuck {r : RingSel} {j : Nat} (hb : s.port.busy = false) (ha : s.port.argAddr ≠ 0)
    (hj : j < s.port.argN.toNat) (hfits : (s.ring r).len + j < s.cap r)
    (hadm : memAdmits s.build (s.port.argAddr + BitVec.ofNat 32 j) = false) :
    exec (.rbEnq r) s = .fault .memNotAdmitted := by
  have hn : s.port.argN ≠ 0 := fun h => by simp [h] at hj
  have hroom : (s.latch.ring r).len ≠ s.latch.cap r := by
    rw [State.latch_cap, State.latch_ring]
    omega
  have hneeded : j < s.latch.acceptCount r s.port.argN := by
    rw [State.acceptCount, State.latch_cap, State.latch_ring]
    omega
  rw [exec, execRbEnq, State.issue_idle hb, State.latch_opA, State.latch_opN,
    State.enqueue_stuck ha hn hroom (State.not_admitsSpan hneeded hadm), orStuck]

/-- RB_DEQ has no step when a byte it would write is not admitted (20 rule R104). -/
theorem exec_rbDeq_stuck {r : RingSel} {j : Nat} (hb : s.port.busy = false) (ha : s.port.argAddr ≠ 0)
    (hj : j < s.port.argN.toNat) (hheld : j < (s.ring r).len)
    (hadm : memAdmits s.build (s.port.argAddr + BitVec.ofNat 32 j) = false) :
    exec (.rbDeq r) s = .fault .memNotAdmitted := by
  have hn : s.port.argN ≠ 0 := fun h => by simp [h] at hj
  have hsome : (s.latch.ring r).len ≠ 0 := by
    rw [State.latch_ring]
    omega
  have hneeded : j < s.latch.removeCount r s.port.argN := by
    rw [State.removeCount, State.latch_ring]
    omega
  rw [exec, execRbDeq, State.issue_idle hb, State.latch_opA, State.latch_opN,
    State.dequeue_stuck hsome ha hn (State.not_admitsSpan hneeded hadm), orStuck]

/-- No step of an agent other than HOST writes system memory (20 rule R105). -/
theorem State.agentStep_mem {a : Turn} (ha : s.agentStep a = some t) : t.mem = s.mem := by
  have hstep := State.agentStep_some ha
  cases a <;> dsimp only at hstep
  case rx =>
    obtain ⟨-, x, rest, -, rfl⟩ := hstep
    obtain ⟨p, q, v, hx⟩ := State.receive_eq { s with env := { s.env with uartHeld := rest } } x
    rw [hx]
  case txReady => obtain ⟨-, ⟨-, rfl⟩ | ⟨-, rfl⟩⟩ := hstep <;> rfl
  case complete =>
    obtain ⟨-, -, u, hu, rfl⟩ | ⟨-, -, rfl⟩ := hstep
    · exact (State.enqueue_frame hu).2.1
    · rfl
  case trig => exact hstep.2.2.2 ▸ rfl
  case seqAdvance => obtain ⟨-, ⟨-, rfl⟩ | ⟨-, rfl⟩⟩ := hstep <;> rfl
  case tick | reload | seqEnd => exact hstep.2 ▸ rfl
  case arrive | reset => exact hstep ▸ rfl

/-- No step writes system memory, but the HOST's own write and an issue of RB_DEQ (20 rule R105). -/
theorem step_mem (hs : step s = .next t)
    (hhost : s.nextTurn = .host → (∀ r, ¬ s.Issues (.rbDeq r)) ∧ ∀ a n v rest, s.env.host ≠ .memWrite a n v :: rest) :
    t.mem = s.mem := by
  by_cases ha : s.nextTurn = .host
  · obtain ⟨hdeq, hwrite⟩ := hhost ha
    obtain ⟨e, rfl | ⟨c, rfl⟩ | ⟨r, w, hw⟩ | ⟨i, hi, hx⟩ | ⟨a, n, v, rest, hop, -⟩⟩ := step_host hs ha
    · rfl
    · rfl
    · obtain ⟨_, _, _, _, _, _, _, _, _, rfl⟩ := State.writeReg_some hw
      rfl
    · obtain ⟨-, hmem, -⟩ := exec_frame hx
      exact hmem fun r hr => hdeq r (hr ▸ hi)
    · exact absurd hop (hwrite a n v rest)
  · obtain ⟨e, -, rfl | hstep⟩ := step_agent hs ha
    · rfl
    · exact State.agentStep_mem (s := { s with env := e }) hstep

end

/-- Settles O8: the HOST's access is `MemWrite` or `MemRead`, whose bytes are those of `leBytes` and `leValue`. -/
theorem hostMemoryAccesses : Obligations.HostMemoryAccesses := by
  intro s a n ops ha hn
  have hmem : (s.afterChoice.setHost ops).mem = s.mem := s.afterChoice_mem
  refine ⟨fun v hop hm => ?_, fun hop => ?_⟩
  · have hstep : step s = .next { s.afterChoice.setHost ops with mem := Memory.memWrite s.mem a n v } := by
      rw [step_host_cons ha hop, State.hostAccess, hmem, State.orStay]
    exact ⟨_, hstep, Memory.memWrite_wf a n v hm, fun j hj => Memory.read_memWrite_inside a v hm (by omega) hj,
      fun x hx => Memory.read_memWrite_outside s.mem a n v hx⟩
  · have hstep : step s = .next ((s.afterChoice.setHost ops).recordRead (Memory.memRead s.mem a n)) := by
      rw [step_host_cons ha hop, State.hostAccess, hmem, State.orStay]
    exact ⟨_, hstep, Memory.memRead_toNat s.mem a hn⟩

/-- Settles O22: byte `j` is among the bytes the transfer needs, so `admitsSpan` fails on them. -/
theorem transfersStuckOnUnadmittedBytes : Obligations.TransfersStuckOnUnadmittedBytes :=
  fun _ _ _ hb ha hj hadm =>
    ⟨fun hfits => exec_rbEnq_stuck hb ha hj hfits hadm, fun hheld => exec_rbDeq_stuck hb ha hj hheld hadm⟩

/-- Settles O58: such a step leaves the whole memory alone. -/
theorem onlyRbDeqAndTheHostWriteMemory : Obligations.OnlyRbDeqAndTheHostWriteMemory :=
  fun _ _ hs hhost a => by rw [step_mem hs hhost]

end Sys2Proof.Machine

/-! ## The two units read and write nothing of each other's (O55)

Each meaning commutes with a substitution of the other unit's state. `apply_ite` moves the substitution into the
branches of the meaning; what is left holds by `rfl`: its guards read only fields that the substitution keeps, and its
branches write only those. -/

namespace Sys2Proof.Machine

/-- The state with another playback engine and sequencer put in place of its own. -/
def State.withPlayback (p : Playback) (q : Sequencer) (s : State) : State := { s with pb := p, seq := q }

/-- The state with other rings and another serial adapter put in place of its own. -/
def State.withSerial (x y : Ring) (z : Serial) (s : State) : State := { s with rx := x, tx := y, ser := z }

/-! ### Issuing a command -/

/-- A substitution of state that the busy check, the latches and taking a fault do not see. -/
structure IssueBlind (f : State → State) : Prop where
  busy : ∀ s, (f s).port.busy = s.port.busy
  raise : ∀ s c, (f s).raise c = f (s.raise c)
  latch : ∀ s, (f s).latch = f s.latch

/-- Issuing a command does not see playback and the sequencer (30 rule R140). -/
theorem issueBlind_withPlayback (p : Playback) (q : Sequencer) : IssueBlind (State.withPlayback p q) :=
  ⟨fun _ => rfl, fun _ _ => rfl, fun _ => rfl⟩

/-- Issuing a command does not see the rings and the serial adapter (30 rule R140). -/
theorem issueBlind_withSerial (x y : Ring) (z : Serial) : IssueBlind (State.withSerial x y z) :=
  ⟨fun _ => rfl, fun _ _ => rfl, fun _ => rfl⟩

/-- Issuing a command commutes with a substitution that its own rule commutes with. -/
theorem IssueBlind.issue {f : State → State} (hf : IssueBlind f)
    {body : State → Host.Outcome State Fault Refusal} (hbody : ∀ s, body (f s) = mapNext f (body s)) (s : State) :
    (f s).issue body = mapNext f (s.issue body) := by
  cases hb : s.port.busy with
  | true => rw [State.issue_busy hb, State.issue_busy ((hf.busy s).trans hb), hf.raise, mapNext]
  | false => rw [State.issue_idle hb, State.issue_idle ((hf.busy s).trans hb), hf.latch, hbody]

/-- An operation that may have no step (20 rule R104), with the state it leaves changed. -/
theorem orStuck_map (f : State → State) (o : Option State) : orStuck (o.map f) = mapNext f (orStuck o) := by
  cases o <;> rfl

/-! ### The serial and ring side -/

section
variable (p : Playback) (q : Sequencer) (s : State)

/-- The rings are not playback state (20 rule R118). -/
theorem State.withPlayback_ring (r : RingSel) : (s.withPlayback p q).ring r = s.ring r := by cases r <;> rfl

/-- Replacing a ring commutes with replacing playback. -/
theorem State.withPlayback_setRing (r : RingSel) (x : Ring) :
    (s.withPlayback p q).setRing r x = (s.setRing r x).withPlayback p q := by cases r <;> rfl

/-- RB_ENQ's pseudocode commutes with replacing playback (40 rule R205). -/
theorem State.withPlayback_enqueue (r : RingSel) (a n : Word) :
    (s.withPlayback p q).enqueue r a n = (s.enqueue r a n).map (State.withPlayback p q) := by
  have hcount : (s.withPlayback p q).acceptCount r n = s.acceptCount r n := by cases r <;> rfl
  simp only [State.enqueue, hcount, State.withPlayback_ring, State.withPlayback_setRing,
    apply_ite (Option.map (State.withPlayback p q))]
  rfl

/-- RB_DEQ's pseudocode commutes with replacing playback (40 rule R206). -/
theorem State.withPlayback_dequeue (r : RingSel) (a n : Word) :
    (s.withPlayback p q).dequeue r a n = (s.dequeue r a n).map (State.withPlayback p q) := by
  have hcount : (s.withPlayback p q).removeCount r n = s.removeCount r n := by cases r <;> rfl
  have hstore (bytes : List Byte) :
      (s.withPlayback p q).storeBytes a bytes = (s.storeBytes a bytes).withPlayback p q := rfl
  simp only [State.dequeue, hcount, hstore, State.withPlayback_ring, State.withPlayback_setRing,
    apply_ite (Option.map (State.withPlayback p q))]
  rfl

/-- Offering a byte to a ring commutes with replacing playback (41 rule R251). -/
theorem State.withPlayback_pushOrDrop (r : RingSel) (b : Byte) :
    (s.withPlayback p q).pushOrDrop r b = (s.pushOrDrop r b).withPlayback p q := by
  simp only [State.pushOrDrop, State.withPlayback_ring, State.withPlayback_setRing, apply_ite (State.withPlayback p q)]
  rfl

/-- Receiving a byte, its echo included, commutes with replacing playback (41 rules R250, R251). -/
theorem State.withPlayback_receive (b : RxByte) :
    (s.withPlayback p q).receive b = (s.receive b).withPlayback p q := by
  have hecho : (s.withPlayback p q).echoByte b.byte = (s.echoByte b.byte).withPlayback p q := by
    simp only [State.echoByte, State.withPlayback_pushOrDrop, apply_ite (State.withPlayback p q)]
    rfl
  simp only [State.receive, hecho, State.withPlayback_pushOrDrop, apply_ite (State.withPlayback p q)]

/-- The rx event (41 rules R250, R251). -/
theorem State.withPlayback_rxStep :
    (s.withPlayback p q).rxStep = s.rxStep.map (State.withPlayback p q) := by
  have hser : (s.withPlayback p q).ser.serEn = s.ser.serEn := rfl
  have henv : (s.withPlayback p q).env.uartHeld = s.env.uartHeld := rfl
  simp only [State.rxStep, hser, henv]
  split
  · exact congrArg some (State.withPlayback_receive p q { s with env := { s.env with uartHeld := _ } } _)
  · rfl

/-- The tx_ready event (41 rule R252). -/
theorem State.withPlayback_txReadyStep :
    (s.withPlayback p q).txReadyStep = s.txReadyStep.map (State.withPlayback p q) := by
  simp only [State.txReadyStep, apply_ite (Option.map (State.withPlayback p q))]
  rfl

/-- The completion of SER_WRITE, which enqueues (41 rule R242). -/
theorem State.withPlayback_completeWrite :
    (s.withPlayback p q).completeWrite = s.completeWrite.map (State.withPlayback p q) := by
  simp only [State.completeWrite, State.withPlayback_enqueue,
    apply_ite (Option.map (State.withPlayback p q)), Option.map_map]
  rfl

/-- The completion of SER_READ_BYTE (41 rule R244). -/
theorem State.withPlayback_completeRead :
    (s.withPlayback p q).completeRead = s.completeRead.map (State.withPlayback p q) := by
  simp only [State.completeRead, apply_ite (Option.map (State.withPlayback p q))]
  rfl

/-- The completion of whichever command is held (30 rule R144). -/
theorem State.withPlayback_completeStep :
    (s.withPlayback p q).completeStep = s.completeStep.map (State.withPlayback p q) := by
  have hop : (s.withPlayback p q).port.heldOp = s.port.heldOp := rfl
  cases h : s.port.heldOp <;> simp only [State.completeStep, hop, h]
  case none => rfl
  case serWrite => exact s.withPlayback_completeWrite p q
  case serReadByte => exact s.withPlayback_completeRead p q

/-- The serial commands neither read nor write playback and the sequencer (20 rule R118). -/
theorem exec_serial_withPlayback {i : Instr} (hi : i ∈ [Instr.serInit, .serWrite, .serReadByte]) :
    exec i (s.withPlayback p q) = mapNext (State.withPlayback p q) (exec i s) := by
  have hf := issueBlind_withPlayback p q
  simp only [List.mem_cons, List.not_mem_nil, or_false] at hi
  obtain rfl | rfl | rfl := hi <;> simp only [exec, execSerInit, execSerWrite, execSerReadByte]
  all_goals exact hf.issue (fun _ => rfl) s

/-- The ring commands neither read nor write playback and the sequencer (20 rule R118). -/
theorem exec_ring_withPlayback (r : RingSel) {i : Instr}
    (hi : i ∈ [Instr.rbInit r, .rbEnq r, .rbDeq r, .rbLen r, .rbEmpty r]) :
    exec i (s.withPlayback p q) = mapNext (State.withPlayback p q) (exec i s) := by
  have hf := issueBlind_withPlayback p q
  simp only [List.mem_cons, List.not_mem_nil, or_false] at hi
  obtain rfl | rfl | rfl | rfl | rfl := hi <;>
    simp only [exec, execRbInit, execRbEnq, execRbDeq, execRbLen, execRbEmpty] <;> refine hf.issue (fun u => ?_) s
  · exact congrArg Host.Outcome.next (u.withPlayback_setRing p q r _)
  · rw [← orStuck_map, ← State.withPlayback_enqueue]
    rfl
  · rw [← orStuck_map, ← State.withPlayback_dequeue]
    rfl
  · rw [State.withPlayback_ring]
    rfl
  · cases r <;> rfl

end

/-! ### The playback and sequencer side -/

section
variable (x y : Ring) (z : Serial) (s : State)

/-- The trigger event: a sample comes from memory, not from a ring (43 rule R320). -/
theorem State.withSerial_trigStep :
    (s.withSerial x y z).trigStep = s.trigStep.map (State.withSerial x y z) := by
  simp only [State.trigStep, apply_ite (Option.map (State.withSerial x y z))]
  rfl

/-- The completion handler (43 rule R322). -/
theorem State.withSerial_reloadStep :
    (s.withSerial x y z).reloadStep = s.reloadStep.map (State.withSerial x y z) := by
  simp only [State.reloadStep, apply_ite (Option.map (State.withSerial x y z))]
  rfl

/-- seq_advance (44 rule R362). -/
theorem State.withSerial_seqAdvanceStep :
    (s.withSerial x y z).seqAdvanceStep = s.seqAdvanceStep.map (State.withSerial x y z) := by
  simp only [State.seqAdvanceStep, apply_ite (Option.map (State.withSerial x y z)), Option.map_some,
    apply_ite (State.withSerial x y z)]
  rfl

/-- seq_end (44 rule R363). -/
theorem State.withSerial_seqEndStep :
    (s.withSerial x y z).seqEndStep = s.seqEndStep.map (State.withSerial x y z) := by
  simp only [State.seqEndStep, apply_ite (Option.map (State.withSerial x y z))]
  rfl

/-- The playback and sequencer commands neither read nor write the rings and the serial adapter (20 rule R118). -/
theorem exec_playback_withSerial {i : Instr} (hi : i ∈ [Instr.pbLoad, .pbStart, .pbStop, .seqPlay]) :
    exec i (s.withSerial x y z) = mapNext (State.withSerial x y z) (exec i s) := by
  have hf := issueBlind_withSerial x y z
  simp only [List.mem_cons, List.not_mem_nil, or_false] at hi
  obtain rfl | rfl | rfl | rfl := hi <;>
    simp only [exec, execPbLoad, execPbStart, execPbStop, execSeqPlay] <;> refine hf.issue (fun u => ?_) s
  case inr.inr.inl => rfl
  all_goals
    simp only [mapNext, apply_ite (State.withSerial x y z)]
    rfl

end

/-- Settles O55: every step and command named commutes with putting the other unit's state in place. -/
theorem serialAndPlaybackAreIndependent : Obligations.SerialAndPlaybackAreIndependent := by
  intro s p q x y z
  refine ⟨fun a ha => ?_, fun _ hi => exec_serial_withPlayback p q s hi,
    fun r _ hi => exec_ring_withPlayback p q s r hi, fun a ha => ?_, fun _ hi => exec_playback_withSerial x y z s hi⟩
  · simp only [List.mem_cons, List.not_mem_nil, or_false] at ha
    obtain rfl | rfl | rfl := ha
    · exact s.withPlayback_rxStep p q
    · exact s.withPlayback_txReadyStep p q
    · exact s.withPlayback_completeStep p q
  · simp only [List.mem_cons, List.not_mem_nil, or_false] at ha
    obtain rfl | rfl | rfl | rfl := ha
    · exact s.withSerial_trigStep x y z
    · exact s.withSerial_reloadStep x y z
    · exact s.withSerial_seqAdvanceStep x y z
    · exact s.withSerial_seqEndStep x y z

end Sys2Proof.Machine

/-! ## The decoder and the encoder (O1, O2, O3) -/

namespace Sys2Proof

section
variable {f : F1} {i j : Instr} {w : Word}

/-- Fields are those of a command when OPC and RSEL are its own and RSV is 0 (30 rule R141). -/
theorem F1.eq_fields (hopc : f.opc.toNat = i.opc.toNat) (hrsel : f.rsel = i.rsel) (hrsv : f.rsv = 0) :
    f = i.fields := by
  obtain ⟨opc, rsel, rsv⟩ := f
  rw [Instr.fields, F1.mk.injEq]
  exact ⟨BitVec.eq_of_toNat_eq hopc, hrsel, hrsv⟩

/-- A command without a ring operand is read only where RSEL = 0 (30 rule R141). -/
theorem decodePlain_eq_ok {rsel : Bool} (h : decodePlain rsel i = .ok j) : rsel = false ∧ i = j := by
  cases rsel with
  | true => cases h
  | false => exact ⟨rfl, Except.ok.inj h⟩

/-- Fields that are read as a command are that command's own (30 rule R146). -/
theorem eq_fields_of_decodeFields (h : decodeFields f = .ok i) : f = i.fields := by
  rw [decodeFields] at h
  split at h
  next => cases h
  next hrsv =>
    have hrsv : f.rsv = 0 := not_not.mp hrsv
    split at h
    case h_1 hopc | h_2 hopc | h_3 hopc | h_4 hopc | h_5 hopc =>
      cases h
      exact F1.eq_fields hopc (RingSel.toBit_ofBit f.rsel).symm hrsv
    case h_17 => cases h
    all_goals
      next hopc =>
        obtain ⟨hrsel, rfl⟩ := decodePlain_eq_ok h
        exact F1.eq_fields hopc hrsel hrsv

/-- A word's fields are a command's exactly when the word is the command's encoding. -/
theorem F1.ofWord_eq_fields_iff : F1.ofWord w = i.fields ↔ w = encode i := by
  constructor
  · intro h
    rw [encode, ← h, F1.toWord_ofWord]
  · rintro rfl
    exact F1.ofWord_toWord _

/-- Decoding inverts encoding, and accepts nothing else (30 rules R143, R146). -/
theorem decode_eq_ok_iff : decode w = .ok i ↔ w = encode i := by
  rw [← F1.ofWord_eq_fields_iff]
  exact ⟨eq_fields_of_decodeFields, fun h => by rw [decode, h, decodeFields_fields]⟩

/-- The RB_* command of an opcode, on either ring (30 rule R146). -/
theorem exists_instr_of_ringOpcode {opc : BitVec 8} (h : opc ∈ ringOpcodes) (rsel : Bool) :
    ∃ i : Instr, opc = i.opc ∧ rsel = i.rsel := by
  have hrsel : rsel = (RingSel.ofBit rsel).toBit := (RingSel.toBit_ofBit rsel).symm
  simp only [ringOpcodes, List.mem_cons, List.not_mem_nil, or_false] at h
  obtain h | h | h | h | h := h
  · exact ⟨.rbInit (.ofBit rsel), h, hrsel⟩
  · exact ⟨.rbEnq (.ofBit rsel), h, hrsel⟩
  · exact ⟨.rbDeq (.ofBit rsel), h, hrsel⟩
  · exact ⟨.rbLen (.ofBit rsel), h, hrsel⟩
  · exact ⟨.rbEmpty (.ofBit rsel), h, hrsel⟩

/-- The command of an opcode outside RB_* (30 rule R146). -/
theorem exists_instr_of_plainOpcode {opc : BitVec 8} (h : opc ∈ plainOpcodes) :
    ∃ i : Instr, opc = i.opc ∧ i.rsel = false := by
  simp only [plainOpcodes, List.mem_cons, List.not_mem_nil, or_false] at h
  obtain h | h | h | h | h | h | h | h | h | h | h := h
  exacts [⟨.serInit, h, rfl⟩, ⟨.serWrite, h, rfl⟩, ⟨.serReadByte, h, rfl⟩, ⟨.tmrInit, h, rfl⟩, ⟨.tmrNow, h, rfl⟩,
    ⟨.tmrMark, h, rfl⟩, ⟨.tmrElapsed, h, rfl⟩, ⟨.pbLoad, h, rfl⟩, ⟨.pbStart, h, rfl⟩, ⟨.pbStop, h, rfl⟩,
    ⟨.seqPlay, h, rfl⟩]

end

end Sys2Proof

namespace Sys2Proof.Machine

section
variable {w : Word}

/-- Every command's encoding is legal (30 rule R146). -/
theorem legalWord_encode (i : Instr) : LegalWord (encode i) := by
  cases i with
  | rbInit r | rbEnq r | rbDeq r | rbLen r | rbEmpty r => cases r <;> decide
  | _ => decide

/-- A legal word encodes some command (30 rule R146). -/
theorem LegalWord.exists_encode (h : LegalWord w) : ∃ i, w = encode i := by
  simp only [← F1.ofWord_eq_fields_iff]
  obtain ⟨hrsv, hring | ⟨hplain, hrsel⟩⟩ := h
  · obtain ⟨i, hopc, hrsel⟩ := exists_instr_of_ringOpcode hring (w.getLsbD 8)
    exact ⟨i, F1.eq_fields (congrArg BitVec.toNat hopc) hrsel hrsv⟩
  · obtain ⟨i, hopc, hi⟩ := exists_instr_of_plainOpcode hplain
    exact ⟨i, F1.eq_fields (congrArg BitVec.toNat hopc) (hrsel.trans hi.symm) hrsv⟩

/-- The legal words are those that decode to some command (30 rule R146). -/
theorem exists_decode_iff_legalWord : (∃ i, decode w = .ok i) ↔ LegalWord w := by
  simp only [decode_eq_ok_iff]
  constructor
  · rintro ⟨i, rfl⟩
    exact legalWord_encode i
  · exact LegalWord.exists_encode

end

/-- Settles O1: a word is read by its fields, and fields read as a command are that command's own. -/
theorem decodeAcceptsExactlyEncodings : Obligations.DecodeAcceptsExactlyEncodings :=
  fun _ _ => decode_eq_ok_iff

/-- Settles O2: each opcode of rule R146 has its command, and each command's encoding is legal. -/
theorem legalWordsAreThoseOfRuleR146 : Obligations.LegalWordsAreThoseOfRuleR146 :=
  fun _ => exists_decode_iff_legalWord

/-- Settles O3: the legal words are the encodings computed, the others are decoded. -/
theorem encodingExamples : Obligations.EncodingExamples := by
  have henq : encode (.rbEnq .tx) = 0x00000111 := by decide
  have hdeq : encode (.rbDeq .rx) = 0x00000012 := by decide
  have hwrite : encode .serWrite = 0x00000021 := by decide
  exact ⟨henq, decode_eq_ok_iff.mpr henq.symm, hdeq, decode_eq_ok_iff.mpr hdeq.symm, hwrite,
    decode_eq_ok_iff.mpr hwrite.symm, by decide, by decide, by decide⟩

end Sys2Proof.Machine

/-! ## Writes to CMD (O4, O5, O6) -/

namespace Sys2Proof.Machine

section
variable {s : State} {w : Word}

/-- Writing a legal word to CMD runs its command (30 rule R140). -/
theorem State.writeCmd_legal {i : Instr} (h : decode w = .ok i) : s.writeCmd w = exec i s := by
  simp [State.writeCmd, h]

/-- Writing an illegal word to CMD while BUSY = 0 raises ILLEGAL_CMD (30 rule R147). -/
theorem State.writeCmd_illegal (hw : ¬ LegalWord w) (hb : s.port.busy = false) :
    s.writeCmd w = .next (s.raise .illegalCmd) := by
  cases hd : decode w with
  | ok i => exact absurd (exists_decode_iff_legalWord.mp ⟨i, hd⟩) hw
  | error e => simp [State.writeCmd, hd, hb]

/-- Writing any word to CMD while BUSY = 1 raises CMD_WHILE_BUSY (30 rule R140, 60 rule R409). -/
theorem State.writeCmd_busy (hb : s.port.busy = true) (w : Word) : s.writeCmd w = .next (s.raise .cmdWhileBusy) := by
  cases hd : decode w with
  | ok i => rw [State.writeCmd_legal hd, exec_busy hb]
  | error e => simp [State.writeCmd, hd, hb]

end

/-- Settles O4: no command is decoded, and the busy check passes. -/
theorem illegalWordRaisesIllegalCmd : Obligations.IllegalWordRaisesIllegalCmd :=
  fun s w hw hb => (s.busWrite_cmd w).trans (State.writeCmd_illegal hw hb)

/-- Settles O5: the busy check comes before legality. -/
theorem commandWhileBusyFaults : Obligations.CommandWhileBusyFaults :=
  fun s w hb => (s.busWrite_cmd w).trans (State.writeCmd_busy hb w)

/-- Settles O6: the HOST's access is a bus write of CMD, in the state whose program has moved past it. -/
theorem stepRunsDecodedCommand : Obligations.StepRunsDecodedCommand := by
  intro s target w ops i ha hop hoff hd
  rw [step_host_cons ha hop, State.hostAccess, State.hostWrite_window 32 w (by rwa [State.afterChoice_setHost_build]),
    State.busWrite_cmd, State.writeCmd_legal hd]
  cases exec i (s.afterChoice.setHost ops) <;> rfl

end Sys2Proof.Machine

/-! ## What writes RESULT (O56) -/

namespace Sys2Proof.Machine

/-- The commands that write RESULT when they are issued (30 rule R145). -/
inductive WritesResult : Instr → Prop
  | rbEnq (r : RingSel) : WritesResult (.rbEnq r)
  | rbDeq (r : RingSel) : WritesResult (.rbDeq r)
  | rbLen (r : RingSel) : WritesResult (.rbLen r)
  | rbEmpty (r : RingSel) : WritesResult (.rbEmpty r)
  | tmrNow : WritesResult .tmrNow
  | tmrElapsed : WritesResult .tmrElapsed

section
variable {s t : State}

/-- RB_ENQ's pseudocode raises no fault (40 rule R205). -/
theorem State.enqueue_err {r : RingSel} {a n : Word} (h : s.enqueue r a n = some t) : t.err = s.err := by
  obtain ⟨bytes, v, -, rfl⟩ := State.enqueue_some h
  simp

/-- RB_DEQ's pseudocode raises no fault (40 rule R206). -/
theorem State.dequeue_err {r : RingSel} {a n : Word} (h : s.dequeue r a n = some t) : t.err = s.err := by
  obtain ⟨k, bytes, v, -, rfl⟩ := State.dequeue_some h
  simp

/-- A command leaves RESULT alone, or it is one of those that write it, let through by the busy check and not
faulting. -/
theorem exec_result {i : Instr} (h : exec i s = .next t) :
    t.port.result = s.port.result ∨ (s.port.busy = false ∧ t.err = s.err ∧ WritesResult i) := by
  obtain ⟨-, rfl⟩ | ⟨hb, hrule⟩ := exec_next h
  · exact .inl rfl
  cases i <;> dsimp only at hrule
  case rbEnq r => exact .inr ⟨hb, (State.enqueue_err hrule).trans s.latch_err, .rbEnq r⟩
  case rbDeq r => exact .inr ⟨hb, (State.dequeue_err hrule).trans s.latch_err, .rbDeq r⟩
  case rbLen r => exact .inr ⟨hb, hrule ▸ rfl, .rbLen r⟩
  case rbEmpty r => exact .inr ⟨hb, hrule ▸ rfl, .rbEmpty r⟩
  case tmrNow => exact .inr ⟨hb, hrule ▸ rfl, .tmrNow⟩
  case tmrElapsed => exact .inr ⟨hb, hrule ▸ rfl, .tmrElapsed⟩
  all_goals left
  case rbInit r => cases r <;> exact hrule ▸ rfl
  case pbLoad | pbStart | seqPlay => split at hrule <;> exact hrule ▸ rfl
  all_goals exact hrule ▸ rfl

/-- An agent's step leaves RESULT alone, or it is reset, or it completes a held command. -/
theorem State.agentStep_result {a : Turn} (ha : s.agentStep a = some t) :
    t.port.result = s.port.result ∨ a = .reset ∨ (a = .complete ∧ s.port.heldOp ≠ .none) := by
  have hstep := State.agentStep_some ha
  cases a <;> dsimp only at hstep
  case reset => exact .inr (.inl rfl)
  case complete =>
    refine .inr (.inr ⟨rfl, ?_⟩)
    obtain ⟨hop, -⟩ | ⟨hop, -⟩ := hstep <;> simp [hop]
  all_goals left
  case rx =>
    obtain ⟨-, x, rest, -, rfl⟩ := hstep
    obtain ⟨p, q, v, hx⟩ := State.receive_eq { s with env := { s.env with uartHeld := rest } } x
    rw [hx]
  case txReady => obtain ⟨-, ⟨-, rfl⟩ | ⟨-, rfl⟩⟩ := hstep <;> rfl
  case trig =>
    obtain ⟨-, -, -, rfl⟩ := hstep
    rfl
  case seqAdvance => obtain ⟨-, ⟨-, rfl⟩ | ⟨-, rfl⟩⟩ := hstep <;> rfl
  case tick | reload | seqEnd => exact hstep.2 ▸ rfl
  case arrive => exact hstep ▸ rfl

/-- A HOST step leaves RESULT alone, or it issues a command that writes it, let through by the busy check and not
faulting. -/
theorem step_host_result (hs : step s = .next t) (ha : s.nextTurn = .host) :
    t.port.result = s.port.result ∨
      (s.port.busy = false ∧ t.err = s.err ∧ ∃ i, s.Issues i ∧ WritesResult i) := by
  obtain ⟨e, rfl | ⟨c, rfl⟩ | ⟨r, w, hw⟩ | ⟨i, hi, hx⟩ | ⟨a, n, v, _, -, rfl⟩⟩ := step_host hs ha
  · exact .inl rfl
  · exact .inl rfl
  · obtain ⟨_, _, _, _, _, _, _, _, _, rfl⟩ := State.writeReg_some hw
    exact .inl rfl
  · exact (exec_result hx).imp_right fun ⟨hb, herr, hwrites⟩ => ⟨hb, herr, i, hi, hwrites⟩
  · exact .inl rfl

end

/-- Settles O56: the HOST's step changes RESULT only through `exec`, an agent's only as reset or a completion. -/
theorem onlyListedStepsWriteResult : Obligations.OnlyListedStepsWriteResult := by
  intro s t hs hne
  by_cases ha : s.nextTurn = .host
  · obtain ⟨hb, herr, i, hi, hwrites⟩ := (step_host_result hs ha).resolve_left hne
    refine .inr (.inr ⟨ha, hb, herr, ?_⟩)
    cases hwrites with
    | rbEnq r => exact .inl ⟨r, .inl hi⟩
    | rbDeq r => exact .inl ⟨r, .inr (.inl hi)⟩
    | rbLen r => exact .inl ⟨r, .inr (.inr (.inl hi))⟩
    | rbEmpty r => exact .inl ⟨r, .inr (.inr (.inr hi))⟩
    | tmrNow => exact .inr (.inl hi)
    | tmrElapsed => exact .inr (.inr hi)
  · obtain ⟨e, -, rfl | hstep⟩ := step_agent hs ha
    · exact absurd rfl hne
    · obtain hreset | hcomplete := (State.agentStep_result hstep).resolve_left hne
      · exact .inl hreset
      · exact .inr (.inl hcomplete)

end Sys2Proof.Machine

/-! ## The ring-buffer commands (O17 to O21, O23 to O25) -/

namespace Sys2Proof.Machine

section
variable {s : State} {r : RingSel}

/-- RB_ENQ let through by the busy check is its pseudocode on the operands just latched (30 rule R140). -/
theorem exec_rbEnq_idle (hb : s.port.busy = false) :
    exec (.rbEnq r) s = orStuck (s.latch.enqueue r s.port.argAddr s.port.argN) := by
  rw [exec, execRbEnq, State.issue_idle hb, State.latch_opA, State.latch_opN]

/-- RB_DEQ let through by the busy check is its pseudocode on the operands just latched (30 rule R140). -/
theorem exec_rbDeq_idle (hb : s.port.busy = false) :
    exec (.rbDeq r) s = orStuck (s.latch.dequeue r s.port.argAddr s.port.argN) := by
  rw [exec, execRbDeq, State.issue_idle hb, State.latch_opA, State.latch_opN]

/-- RB_ENQ's pseudocode with a source whose bytes are admitted: n = 0 and a full ring are the case of no byte
(40 rule R205). -/
theorem State.enqueue_admitted {a n : Word} (ha : a ≠ 0) (hadm : s.admitsSpan a (s.acceptCount r n) = true) :
    s.enqueue r a n = some ((s.setRing r (Ring.pushAll (s.cap r) (s.ring r)
      (Memory.readSpan s.mem a (s.acceptCount r n)))).setResult (BitVec.ofNat 32 (s.acceptCount r n))) := by
  by_cases hnothing : n = 0 ∨ (s.ring r).len = s.cap r
  · have hcount : s.acceptCount r n = 0 := by
      rw [State.acceptCount]
      obtain rfl | hfull := hnothing
      · simp
      · simp [hfull]
    rw [State.enqueue_nothing ha hnothing, hcount, Memory.readSpan, span, List.map_nil, Ring.pushAll,
      State.setRing_ring_self]
    rfl
  · obtain ⟨hn, hroom⟩ := not_or.mp hnothing
    exact State.enqueue_accept ha hn hroom hadm

/-- RB_DEQ's pseudocode with a destination whose bytes are admitted: n = 0 and an empty ring are the case of no byte
(40 rule R206). -/
theorem State.dequeue_admitted {a n : Word} (ha : a ≠ 0) (hadm : s.admitsSpan a (s.removeCount r n) = true) :
    s.dequeue r a n = some (((s.storeBytes a (Ring.takeN (s.cap r) (s.removeCount r n) (s.ring r))).setRing r
      (Ring.dropN (s.cap r) (s.removeCount r n) (s.ring r))).setResult (BitVec.ofNat 32 (s.removeCount r n))) := by
  by_cases hnothing : (s.ring r).len = 0 ∨ n = 0
  · have hcount : s.removeCount r n = 0 := by
      rw [State.removeCount]
      obtain hempty | rfl := hnothing
      · simp [hempty]
      · simp
    rw [State.dequeue_nothing (hnothing.imp_right .inr), hcount]
    cases r <;> rfl
  · obtain ⟨hsome, hn⟩ := not_or.mp hnothing
    exact State.dequeue_remove hsome ha hn hadm

/-- RB_ENQ when no byte it accepts is refused (40 rule R205; 20 rule R104). -/
theorem exec_rbEnq_admitted {k : Nat} (hb : s.port.busy = false) (ha : s.port.argAddr ≠ 0)
    (hk : k = min s.port.argN.toNat (s.cap r - (s.ring r).len))
    (hadm : ∀ j, j < k → memAdmits s.build (s.port.argAddr + BitVec.ofNat 32 j) = true) :
    exec (.rbEnq r) s = .next
      { s.setRing r (Ring.pushAll (s.cap r) (s.ring r) (Memory.readSpan s.mem s.port.argAddr k)) with
        port := { s.latchedPort with result := BitVec.ofNat 32 k } } := by
  have hcount : s.latch.acceptCount r s.port.argN = k := by
    rw [State.acceptCount, State.latch_cap, State.latch_ring, hk]
  rw [exec_rbEnq_idle hb, State.enqueue_admitted ha (by rwa [hcount, State.admitsSpan_iff]), hcount]
  cases r <;> rfl

/-- The parts of the state `exec_rbEnq_admitted` answers that a command issued next reads. -/
theorem exec_rbEnq_admitted_parts {k : Nat} (hb : s.port.busy = false) (ha : s.port.argAddr ≠ 0)
    (hk : k = min s.port.argN.toNat (s.cap r - (s.ring r).len))
    (hadm : ∀ j, j < k → memAdmits s.build (s.port.argAddr + BitVec.ofNat 32 j) = true) :
    ∃ t : State, exec (.rbEnq r) s = .next t ∧ t.build = s.build ∧ t.mem = s.mem ∧
      t.port = { s.latchedPort with result := BitVec.ofNat 32 k } ∧
      t.ring r = Ring.pushAll (s.cap r) (s.ring r) (Memory.readSpan s.mem s.port.argAddr k) :=
  ⟨_, exec_rbEnq_admitted hb ha hk hadm, State.setRing_build .., State.setRing_mem .., rfl,
    State.ring_setRing_self ..⟩

/-- RB_DEQ when no byte it removes is refused (40 rule R206; 20 rule R104). -/
theorem exec_rbDeq_admitted {k : Nat} (hb : s.port.busy = false) (ha : s.port.argAddr ≠ 0)
    (hk : k = min s.port.argN.toNat (s.ring r).len)
    (hadm : ∀ j, j < k → memAdmits s.build (s.port.argAddr + BitVec.ofNat 32 j) = true) :
    exec (.rbDeq r) s = .next
      { s.setRing r (Ring.dropN (s.cap r) k (s.ring r)) with
        port := { s.latchedPort with result := BitVec.ofNat 32 k }
        mem := Memory.writeSpan s.mem s.port.argAddr (Ring.takeN (s.cap r) k (s.ring r)) } := by
  have hcount : s.latch.removeCount r s.port.argN = k := by
    rw [State.removeCount, State.latch_ring, hk]
  rw [exec_rbDeq_idle hb, State.dequeue_admitted ha (by rwa [hcount, State.admitsSpan_iff]), hcount]
  cases r <;> rfl

/-- A ring holds no more bytes than memory has, so the addresses of a transfer from it are distinct (00 rule R6). -/
theorem State.len_le_memory (hwf : Ring.Wf (s.cap r) (s.ring r)) : (s.ring r).len ≤ 2 ^ 32 := by
  obtain ⟨-, -, hlen, -⟩ := hwf
  have hcap := (s.isCap r).le
  omega

end

/-- The bytes pushed into an empty ring are the ones that come out, in order (40 rules R202, R203). -/
theorem Ring.takeN_pushAll_empty {c : Nat} (hc : IsCap c) {r : Ring} (h : Ring.Wf c r) (hempty : r.len = 0)
    {bytes : List Byte} (hfits : bytes.length ≤ c) :
    Ring.takeN c bytes.length (Ring.pushAll c r bytes) = bytes := by
  obtain ⟨hwf, hcontents⟩ := Ring.pushAll_spec hc h bytes (by omega)
  obtain ⟨-, htake, -⟩ := Ring.dropN_spec hc hwf (k := bytes.length) (by rw [Ring.pushAll_len]; omega)
  rw [htake, hcontents, Ring.contents_empty hempty, List.nil_append, List.take_length]

/-- Byte `i` of a copy from `a` to `b`, read as one run and then written as one (20 rules R105, R108). -/
theorem Memory.read_writeSpan_readSpan {m : Memory} (hm : m.wf = true) (a b : Word) {n i : Nat} (hn : n ≤ 2 ^ 32)
    (hi : i < n) :
    Memory.read (Memory.writeSpan m b (Memory.readSpan m a n)) (b + BitVec.ofNat 32 i) =
      Memory.read m (a + BitVec.ofNat 32 i) := by
  rw [Memory.read_writeSpan_inside b _ hm (by simpa using hn) i (by simpa using hi)]
  simp [Memory.readSpan_eq_map]

/-- Settles O18: RB_ENQ pushes the bytes read, and pushing bytes that fit appends them. -/
theorem rbEnqAppendsWhatFits : Obligations.RbEnqAppendsWhatFits := by
  intro s r k hb hwf ha _ _ hk hadm
  have hlen : (Memory.readSpan s.mem s.port.argAddr k).length = k := Memory.readSpan_length ..
  have hfits : (s.ring r).len + (Memory.readSpan s.mem s.port.argAddr k).length ≤ s.cap r := by
    obtain ⟨-, -, hle, -⟩ := hwf
    omega
  obtain ⟨hwf', hcontents⟩ := Ring.pushAll_spec (s.isCap r) hwf _ hfits
  refine ⟨_, exec_rbEnq_admitted hb ha hk hadm, hwf', ?_, Ring.pushAll_ridx .., ?_, ?_⟩
  · rw [Ring.pushAll_len, hlen]
  · rw [Ring.pushAll_widx (s.isCap r) hwf _ hfits, hlen]
  · rw [hcontents, Memory.readSpan_eq_map]

/-- Settles O20: RB_DEQ writes the bytes that `k` Pops return, which are the first `k` of the contents. -/
theorem rbDeqDeliversTheOldest : Obligations.RbDeqDeliversTheOldest := by
  intro s r k hb hwf hm _ ha _ hk hadm
  have hheld : k ≤ (s.ring r).len := by omega
  obtain ⟨hwf', htake, hdrop⟩ := Ring.dropN_spec (s.isCap r) hwf hheld
  have hlen : (Ring.takeN (s.cap r) k (s.ring r)).length = k := Ring.takeN_length ..
  refine ⟨_, _, exec_rbDeq_admitted hb ha hk hadm, hwf', Ring.dropN_store .., Ring.dropN_len .., Ring.dropN_widx ..,
    Ring.dropN_ridx (s.isCap r) hwf hheld, hdrop, fun j hj => ?_, fun a hout => ?_, Memory.writeSpan_wf _ _ hm⟩
  · have hbound : (Ring.takeN (s.cap r) k (s.ring r)).length ≤ 2 ^ 32 :=
      hlen.le.trans (hheld.trans (State.len_le_memory hwf))
    have hj' : j < (Ring.takeN (s.cap r) k (s.ring r)).length := hlen.symm ▸ hj
    rw [Memory.read_writeSpan_inside _ _ hm hbound j hj', ← List.getElem?_eq_getElem, htake,
      List.getElem?_take_of_lt hj]
  · exact Memory.read_writeSpan_outside _ _ _ (by rwa [hlen])

/-- Settles O24: what an empty ring takes in is what it gives out, so the two transfers copy memory. -/
theorem ringRoundTrip : Obligations.RingRoundTrip := by
  intro s r dest hb hwf hm hempty hfits ha hd hadm
  have hread : (Memory.readSpan s.mem s.port.argAddr s.port.argN.toNat).length = s.port.argN.toNat :=
    Memory.readSpan_length ..
  obtain ⟨t, henq, hbuild, hmem, hport, hring⟩ :=
    exec_rbEnq_admitted_parts (r := r) (k := s.port.argN.toNat) hb ha (by omega) fun j hj => (hadm j hj).1
  have hcap : t.cap r = s.cap r := State.cap_congr s t r hbuild
  have hheld : (t.ring r).len = s.port.argN.toNat := by
    rw [hring, Ring.pushAll_len, hempty, hread, Nat.zero_add]
  have htaken : Ring.takeN (t.cap r) s.port.argN.toNat (t.ring r) =
      Memory.readSpan s.mem s.port.argAddr s.port.argN.toNat := by
    have hout := Ring.takeN_pushAll_empty (s.isCap r) hwf hempty (hread.le.trans hfits)
    rwa [hread, ← hring, ← hcap] at hout
  have hleft : (Ring.dropN (t.cap r) s.port.argN.toNat (t.ring r)).len = 0 := by
    rw [Ring.dropN_len, hheld, Nat.sub_self]
  have hidle : t.port.busy = false := by rwa [hport]
  have hall : s.port.argN.toNat = min t.port.argN.toNat (t.ring r).len := by
    rw [hheld, hport, Nat.min_self]
  have hdeq := exec_rbDeq_admitted (s := { t with port := { t.port with argAddr := dest } }) hidle hd hall
    fun j hj => hbuild ▸ (hadm j hj).2
  refine ⟨t, _, henq, hdeq, ?_, BitVec.ofNat_toNat .., ?_, fun j hj => ?_⟩
  · rw [hport]
    exact BitVec.ofNat_toNat ..
  · exact (congrArg Ring.len (State.ring_setRing_self ..)).trans hleft
  · change Memory.read (Memory.writeSpan t.mem dest (Ring.takeN (t.cap r) s.port.argN.toNat (t.ring r))) _ = _
    rw [htaken, hmem, Memory.read_writeSpan_readSpan hm _ _ s.port.argN.isLt.le hj]

/-- Settles O25: RB_ENQ with room for C bytes and at least that many offered. -/
theorem enqueueStopsAtCapacity : Obligations.EnqueueStopsAtCapacity := by
  intro s r hb hwf hempty ha hoffered hadm
  have hread : (Memory.readSpan s.mem s.port.argAddr (s.cap r)).length = s.cap r := Memory.readSpan_length ..
  obtain ⟨t, henq, hbuild, -, hport, hring⟩ :=
    exec_rbEnq_admitted_parts (r := r) (k := s.cap r) hb ha (by omega) hadm
  have hcap : t.cap r = s.cap r := State.cap_congr s t r hbuild
  refine ⟨t, henq, by rw [hport], ?_, ?_⟩
  · rw [State.full, decide_eq_true_eq, hring, hcap, Ring.pushAll_len, hempty, hread, Nat.zero_add]
  · have hcontents := (Ring.pushAll_spec (s.isCap r) hwf _ (by rw [hread, hempty, Nat.zero_add])).2
    rw [State.contents, hcap, hring, hcontents, Ring.contents_empty hempty, List.nil_append, Memory.readSpan_eq_map]

/-- Settles O17: the ring created is the one of 40 rule R200. -/
theorem rbInitCreatesItsRing : Obligations.RbInitCreatesItsRing := by
  intro s hb
  simp only [exec, execRbInit, State.issue_idle hb]
  exact ⟨rfl, rfl⟩

/-- Settles O19: the null check comes first, then the check that something is accepted. -/
theorem rbEnqWithNothingAccepted : Obligations.RbEnqWithNothingAccepted := by
  intro s r hb
  rw [exec_rbEnq_idle hb]
  refine ⟨fun ha => ?_, fun ha hnothing => ?_⟩
  · rw [ha, State.enqueue_null]
    rfl
  · rw [State.enqueue_nothing ha (by simpa using hnothing)]
    rfl

/-- Settles O21: each of the three is the check that something is removed. -/
theorem rbDeqWithNothingRemoved : Obligations.RbDeqWithNothingRemoved := by
  intro s r hb hnothing
  rw [exec_rbDeq_idle hb, State.dequeue_nothing (by simpa using hnothing)]
  rfl

/-- Settles O23: both commands read LEN, which the LEN register and the EMPTY bit show. -/
theorem rbLenAndRbEmptyReport : Obligations.RbLenAndRbEmptyReport := by
  intro s r hb
  obtain ⟨-, hemptyRx, -, hemptyTx, -⟩ := s.status_flags
  have hstatus : s.busRead 0x10 32 = (s.status, s) := State.busRead_readable (r := .status) rfl
  rw [exec, exec, execRbLen, execRbEmpty, State.issue_idle hb, State.issue_idle hb, hstatus]
  refine ⟨rfl, ?_, ?_, ?_⟩
  · simp only [State.empty, State.latch_ring, decide_eq_true_eq]
    rfl
  · cases r
    · exact (congrArg Prod.fst (State.busRead_readable (r := .rxLen) rfl)).symm
    · exact (congrArg Prod.fst (State.busRead_readable (r := .txLen) rfl)).symm
  · cases r
    · exact hemptyRx ▸ decide_eq_true_iff
    · exact hemptyTx ▸ decide_eq_true_iff

end Sys2Proof.Machine

/-! ## The serial adapter (O26 to O33, O36) -/

namespace Sys2Proof.Machine

/-! ### One byte offered to a ring, or taken from it -/

/-- What a received byte does to a ring: pushed where it fits, dropped where the ring is full (41 rule R251). -/
def Ring.offer (c : Nat) (r : Ring) (b : Byte) : Ring := if r.len < c then Ring.push c r b else r

section
variable {c : Nat} {r : Ring}

theorem Ring.offer_fits (h : r.len < c) (b : Byte) : Ring.offer c r b = Ring.push c r b := if_pos h

theorem Ring.offer_full (h : r.len = c) (b : Byte) : Ring.offer c r b = r := if_neg (by omega)

/-- Offering a byte keeps the invariant of a ring. -/
theorem Ring.offer_wf (hc : IsCap c) (h : Ring.Wf c r) (b : Byte) : Ring.Wf c (Ring.offer c r b) := by
  rw [Ring.offer]
  split
  next hfits => exact Ring.push_wf hc h hfits b
  next => exact h

/-- A byte offered joins the end of the contents where it fits. -/
theorem Ring.offer_contents (h : Ring.Wf c r) (b : Byte) :
    Ring.contents c (Ring.offer c r b) = if r.len < c then Ring.contents c r ++ [b] else Ring.contents c r := by
  rw [Ring.offer]
  split
  next hfits => exact Ring.push_contents h hfits b
  next => rfl

/-- The oldest byte of the contents is the one `Pop` returns, and the others are what it leaves (40 rule R203). -/
theorem Ring.pop_of_contents (hc : IsCap c) (h : Ring.Wf c r) {b : Byte} {rest : List Byte}
    (hcontents : Ring.contents c r = b :: rest) :
    0 < r.len ∧ r.head = b ∧ Ring.Wf c (Ring.drop c r) ∧ Ring.contents c (Ring.drop c r) = rest := by
  have hpos : 0 < r.len := by
    rw [← Ring.contents_length c r, hcontents]
    exact Nat.succ_pos _
  rw [Ring.contents_eq_head_cons hc h hpos] at hcontents
  obtain ⟨hhead, hrest⟩ := List.cons.inj hcontents
  exact ⟨hpos, hhead, Ring.drop_wf hc h hpos, hrest⟩

end

/-! ### The steps of the serial adapter, one equation per case -/

section
variable {s : State}

/-- Offering a byte to ring `r` of a state. -/
theorem State.pushOrDrop_eq (s : State) (r : RingSel) (b : Byte) :
    s.pushOrDrop r b = s.setRing r (Ring.offer (s.cap r) (s.ring r) b) := by
  rw [State.pushOrDrop, Ring.offer, apply_ite (s.setRing r), State.setRing_ring_self]

/-- The TX ring after a good byte: offered the byte only as an echo (41 rule R251). -/
def State.echoRing (s : State) (b : Byte) : Ring := if s.ser.echo then Ring.offer (s.cap .tx) s.tx b else s.tx

theorem State.echoRing_on (h : s.ser.echo = true) (b : Byte) : s.echoRing b = Ring.offer (s.cap .tx) s.tx b := if_pos h

theorem State.echoRing_off (h : s.ser.echo = false) (b : Byte) : s.echoRing b = s.tx :=
  if_neg (ne_true_of_eq_false h)

/-- The echo keeps the invariant of the TX ring. -/
theorem State.echoRing_wf (hwf : Ring.Wf (s.cap .tx) s.tx) (b : Byte) : Ring.Wf (s.cap .tx) (s.echoRing b) := by
  rw [State.echoRing]
  split
  next => exact Ring.offer_wf (s.isCap .tx) hwf b
  next => exact hwf

/-- An echo that fits joins the end of the TX ring's contents (41 rule R251). -/
theorem State.echoRing_contents (hwf : Ring.Wf (s.cap .tx) s.tx) (b : Byte) :
    Ring.contents (s.cap .tx) (s.echoRing b) =
      if s.ser.echo = true ∧ s.tx.len < s.cap .tx then Ring.contents (s.cap .tx) s.tx ++ [b]
      else Ring.contents (s.cap .tx) s.tx := by
  cases hecho : s.ser.echo with
  | true => simp [State.echoRing_on hecho, Ring.offer_contents hwf]
  | false => simp [State.echoRing_off hecho]

/-- A good byte is echoed, then offered to the RX ring (41 rule R251). -/
theorem State.receive_good (s : State) (b : Byte) :
    s.receive ⟨b, false⟩ = { s with
      rx := Ring.offer (s.cap .rx) s.rx b
      tx := s.echoRing b
      ser := { s.ser with txie := s.ser.txie || s.ser.echo } } := by
  rw [State.receive, if_neg Bool.false_ne_true, State.pushOrDrop_eq, State.echoByte, State.echoRing]
  cases hecho : s.ser.echo with
  | true =>
    rw [if_pos rfl, if_pos rfl, State.pushOrDrop_eq, Bool.or_true, ← hecho]
    rfl
  | false =>
    rw [if_neg Bool.false_ne_true, if_neg Bool.false_ne_true, Bool.or_false, ← hecho]
    rfl

/-- The state once the oldest byte of the TX ring has been sent (41 rule R252). -/
def State.sendOldest (s : State) : State :=
  { s with tx := Ring.drop (s.cap .tx) s.tx, uartTx := s.uartTx ++ [s.tx.head] }

/-- The rx event of the oldest byte the UART holds (41 rules R250, R251). -/
theorem State.agentStep_rx {x : RxByte} {held : List RxByte} (hen : s.ser.serEn = true)
    (hheld : s.env.uartHeld = x :: held) :
    s.agentStep .rx = some (State.receive { s with env := { s.env with uartHeld := held } } x) := by
  rw [State.agentStep, State.rxStep, hen, hheld]

/-- No rx event while SER_EN = 0 or the UART holds nothing (41 rules R250, R251). -/
theorem State.agentStep_rx_none (h : s.ser.serEn = false ∨ s.env.uartHeld = []) : s.agentStep .rx = none := by
  rw [State.agentStep, State.rxStep]
  obtain hoff | hnone := h
  · rw [hoff]
  · rw [hnone]
    cases s.ser.serEn <;> rfl

/-- tx_ready with a byte queued (41 rule R252). -/
theorem State.txReady_send (ht : s.ser.txie = true) (hl : 0 < s.tx.len) :
    s.agentStep .txReady = some s.sendOldest := by
  rw [State.agentStep, State.txReadyStep, if_pos ht, if_pos hl]
  rfl

/-- tx_ready with nothing queued (41 rule R252). -/
theorem State.txReady_idle (ht : s.ser.txie = true) (hl : s.tx.len = 0) :
    s.agentStep .txReady = some { s with ser := { s.ser with txie := false } } := by
  rw [State.agentStep, State.txReadyStep, if_pos ht, if_neg (by omega)]
  rfl

/-- `k` tx_ready events send the `k` oldest bytes queued (41 rule R252). -/
theorem State.takeTurns_txReady (ht : s.ser.txie = true) {k : Nat} (hk : k ≤ s.tx.len) :
    s.takeTurns (List.replicate k .txReady) =
      { s with tx := Ring.dropN (s.cap .tx) k s.tx, uartTx := s.uartTx ++ Ring.takeN (s.cap .tx) k s.tx } := by
  induction k generalizing s with
  | zero => simp [State.takeTurns, Ring.dropN, Ring.takeN]
  | succ k ih =>
    have hleft : k ≤ s.sendOldest.tx.len := by
      rw [State.sendOldest, Ring.drop_len]
      omega
    rw [List.replicate_succ, State.takeTurns, State.txReady_send ht (by omega), Option.getD_some,
      ih (s := s.sendOldest) ht hleft, State.sendOldest, Ring.dropN, Ring.takeN, List.append_assoc,
      List.singleton_append]
    rfl

/-- The completion step while SER_WRITE is held (30 rule R144). -/
theorem State.agentStep_complete_serWrite (h : s.port.heldOp = .serWrite) :
    s.agentStep .complete = s.completeWrite := by
  rw [State.agentStep, State.completeStep, h]

/-- The completion step while SER_READ_BYTE is held (30 rule R144). -/
theorem State.agentStep_complete_serReadByte (h : s.port.heldOp = .serReadByte) :
    s.agentStep .complete = s.completeRead := by
  rw [State.agentStep, State.completeStep, h]

/-- The completion of SER_WRITE with room for its bytes, n = 0 among them, and none refused (41 rule R242). -/
theorem State.completeWrite_admitted (ha : s.port.latchAddr ≠ 0)
    (hroom : s.port.latchN.toNat ≤ s.cap .tx - s.tx.len)
    (hadm : ∀ j, j < s.port.latchN.toNat → memAdmits s.build (s.port.latchAddr + BitVec.ofNat 32 j) = true) :
    s.completeWrite = some { s with
      tx := Ring.pushAll (s.cap .tx) s.tx (Memory.readSpan s.mem s.port.latchAddr s.port.latchN.toNat)
      ser := { s.ser with txie := true }
      port := { s.port with result := s.port.latchN, busy := false, heldOp := .none } } := by
  have hcount : s.acceptCount .tx s.port.latchN = s.port.latchN.toNat := min_eq_left hroom
  rw [State.completeWrite, State.opN, State.opA, if_pos hroom,
    State.enqueue_admitted ha (by rwa [hcount, State.admitsSpan_iff]), hcount, BitVec.ofNat_toNat, BitVec.setWidth_eq]
  rfl

/-- The completion of SER_WRITE waits for a byte that is not admitted (20 rule R104). -/
theorem State.completeWrite_stuck {j : Nat} (ha : s.port.latchAddr ≠ 0)
    (hroom : s.port.latchN.toNat ≤ s.cap .tx - s.tx.len) (hj : j < s.port.latchN.toNat)
    (hadm : memAdmits s.build (s.port.latchAddr + BitVec.ofNat 32 j) = false) : s.completeWrite = none := by
  have hn : s.port.latchN ≠ 0 := fun h => by simp [h] at hj
  have hfree : (s.ring .tx).len ≠ s.cap .tx := by
    rw [State.ring_tx]
    omega
  have hcount : s.acceptCount .tx s.port.latchN = s.port.latchN.toNat := min_eq_left hroom
  rw [State.completeWrite, State.opN, State.opA, if_pos hroom,
    State.enqueue_stuck ha hn hfree (State.not_admitsSpan (hcount ▸ hj) hadm), Option.map_none]

/-- The completion of SER_WRITE from a null source (41 rule R242; 40 rule R211). -/
theorem State.completeWrite_null (ha : s.port.latchAddr = 0)
    (hroom : s.port.latchN.toNat ≤ s.cap .tx - s.tx.len) :
    s.completeWrite = some { s with
      ser := { s.ser with txie := true }
      port := { s.port with result := errValue, busy := false, heldOp := .none } } := by
  rw [State.completeWrite, State.opN, State.opA, if_pos hroom, ha, State.enqueue_null]
  rfl

end

/-! ### The order of transmission -/

/-- What was sent followed by what is queued (41 rule R253). -/
def State.txStream (s : State) : List Byte := s.uartTx ++ s.contents .tx

section
variable {s t : State}

/-- The TX ring replaced by one whose contents begin as before. -/
theorem State.txStream_prefix_of_contents (hsent : t.uartTx = s.uartTx)
    (hqueued : s.contents .tx <+: t.contents .tx) : s.txStream <+: t.txStream := by
  rw [State.txStream, State.txStream, hsent]
  exact (List.prefix_append_right_inj _).mpr hqueued

/-- RB_ENQ's pseudocode appends to the TX ring or does not touch it (40 rule R205). -/
theorem State.enqueue_txStream {r : RingSel} {a n : Word} (hwf : Ring.Wf (s.cap .tx) s.tx)
    (h : s.enqueue r a n = some t) : s.txStream <+: t.txStream := by
  obtain ⟨bytes, v, hfits, rfl⟩ := State.enqueue_some h
  cases r with
  | rx => exact List.prefix_rfl
  | tx =>
    obtain ⟨-, hcontents⟩ := Ring.pushAll_spec (s.isCap .tx) hwf bytes (by
      obtain ⟨-, -, hle, -⟩ := hwf
      rw [State.ring_tx] at hfits
      omega)
    exact State.txStream_prefix_of_contents rfl ⟨bytes, hcontents.symm⟩

/-- RB_DEQ's pseudocode on the RX ring does not touch the TX ring (40 rule R206). -/
theorem State.dequeue_rx_txStream {a n : Word} (h : s.dequeue .rx a n = some t) : s.txStream <+: t.txStream := by
  obtain ⟨k, bytes, v, -, rfl⟩ := State.dequeue_some h
  exact List.prefix_rfl

/-- A command but RB_INIT.tx, SER_INIT and RB_DEQ.tx takes nothing away from the stream. -/
theorem exec_txStream {i : Instr} (hwf : Ring.Wf (s.cap .tx) s.tx) (hinit : i ≠ .rbInit .tx) (hser : i ≠ .serInit)
    (hdeq : i ≠ .rbDeq .tx) (h : exec i s = .next t) : s.txStream <+: t.txStream := by
  obtain ⟨-, rfl⟩ | ⟨-, hrule⟩ := exec_next h
  · exact List.prefix_rfl
  cases i <;> dsimp only at hrule
  case rbInit r =>
    cases r with
    | rx => exact hrule ▸ List.prefix_rfl
    | tx => exact absurd rfl hinit
  case rbEnq r => exact State.enqueue_txStream (s := s.latch) hwf hrule
  case rbDeq r =>
    cases r with
    | rx => exact State.dequeue_rx_txStream (s := s.latch) hrule
    | tx => exact absurd rfl hdeq
  case serInit => exact absurd rfl hser
  case pbLoad | pbStart | seqPlay => split at hrule <;> exact hrule ▸ List.prefix_rfl
  all_goals exact hrule ▸ List.prefix_rfl

/-- A received byte is echoed behind what is queued, if at all (41 rules R250, R251). -/
theorem State.receive_txStream (hwf : Ring.Wf (s.cap .tx) s.tx) (x : RxByte) :
    s.txStream <+: (s.receive x).txStream := by
  obtain ⟨b, err⟩ := x
  cases err with
  | true => exact List.prefix_rfl
  | false =>
    rw [State.receive_good]
    refine State.txStream_prefix_of_contents rfl ?_
    change Ring.contents (s.cap .tx) s.tx <+: Ring.contents (s.cap .tx) (s.echoRing b)
    rw [State.echoRing_contents hwf]
    split
    · exact List.prefix_append ..
    · exact List.prefix_rfl

/-- Sending the oldest byte moves it from the front of what is queued to the end of what was sent (41 rule R252). -/
theorem State.send_txStream (hwf : Ring.Wf (s.cap .tx) s.tx) (hl : 0 < s.tx.len) :
    s.sendOldest.txStream = s.txStream := by
  change (s.uartTx ++ [s.tx.head]) ++ Ring.contents (s.cap .tx) (Ring.drop (s.cap .tx) s.tx) =
    s.uartTx ++ Ring.contents (s.cap .tx) s.tx
  rw [Ring.contents_eq_head_cons (s.isCap .tx) hwf hl, List.append_assoc, List.singleton_append]

/-- No agent's step but reset takes anything away from the stream. -/
theorem State.agentStep_txStream {a : Turn} (hwf : Ring.Wf (s.cap .tx) s.tx) (hreset : a ≠ .reset)
    (ha : s.agentStep a = some t) : s.txStream <+: t.txStream := by
  have hstep := State.agentStep_some ha
  cases a <;> dsimp only at hstep
  case rx =>
    obtain ⟨-, x, rest, -, rfl⟩ := hstep
    exact State.receive_txStream (s := { s with env := { s.env with uartHeld := rest } }) hwf x
  case txReady =>
    obtain ⟨-, ⟨hl, rfl⟩ | ⟨-, rfl⟩⟩ := hstep
    · exact (State.send_txStream hwf hl).symm ▸ List.prefix_rfl
    · exact List.prefix_rfl
  case complete =>
    obtain ⟨-, -, u, hu, rfl⟩ | ⟨-, -, rfl⟩ := hstep
    · exact State.enqueue_txStream (t := u) hwf hu
    · exact List.prefix_rfl
  case trig => exact hstep.2.2.2 ▸ List.prefix_rfl
  case seqAdvance => obtain ⟨-, ⟨-, rfl⟩ | ⟨-, rfl⟩⟩ := hstep <;> exact List.prefix_rfl
  case tick | reload | seqEnd => exact hstep.2 ▸ List.prefix_rfl
  case arrive => exact hstep ▸ List.prefix_rfl
  case reset => exact absurd rfl hreset

end

/-- Settles O36: each step but those excluded only adds to the end of the stream of sent and queued bytes
(`exec_txStream`, `State.agentStep_txStream`). -/
theorem transmitOrderIsPreserved : Obligations.TransmitOrderIsPreserved := by
  intro s t hinv hs hreset hhost
  suffices hprefix : s.txStream <+: t.txStream by
    obtain ⟨added, hadded⟩ := hprefix
    exact ⟨added, hadded.symm⟩
  by_cases ha : s.nextTurn = .host
  · obtain ⟨hinit, hser, hdeq⟩ := hhost ha
    obtain ⟨e, rfl | ⟨c, rfl⟩ | ⟨r, w, hw⟩ | ⟨i, hi, hx⟩ | ⟨a, n, v, _, -, rfl⟩⟩ := step_host hs ha
    · exact List.prefix_rfl
    · exact List.prefix_rfl
    · obtain ⟨_, _, _, _, _, _, _, _, _, rfl⟩ := State.writeReg_some hw
      exact List.prefix_rfl
    · exact exec_txStream (s := { s with env := e }) hinv.tx (fun h => hinit (h ▸ hi)) (fun h => hser (h ▸ hi))
        (fun h => hdeq (h ▸ hi)) hx
    · exact List.prefix_rfl
  · obtain ⟨e, -, rfl | hstep⟩ := step_agent hs ha
    · exact List.prefix_rfl
    · exact State.agentStep_txStream (s := { s with env := e }) hinv.tx hreset hstep

/-- Settles O28: RB_ENQ on the TX ring with room for all n bytes, and pushing bytes that fit appends them. -/
theorem serWriteCompletes : Obligations.SerWriteCompletes := by
  intro s hop hwf ha _ hroom hadm
  have hlen : (Memory.readSpan s.mem s.port.latchAddr s.port.latchN.toNat).length = s.port.latchN.toNat :=
    Memory.readSpan_length ..
  have hfits : s.tx.len + (Memory.readSpan s.mem s.port.latchAddr s.port.latchN.toNat).length ≤ s.cap .tx := by
    obtain ⟨-, -, hle, -⟩ := hwf
    omega
  obtain ⟨hwf', hcontents⟩ := Ring.pushAll_spec (s.isCap .tx) hwf _ hfits
  refine ⟨_, (State.agentStep_complete_serWrite hop).trans (State.completeWrite_admitted ha hroom hadm), hwf', ?_,
    Ring.pushAll_ridx .., ?_, ?_⟩
  · rw [Ring.pushAll_len, hlen]
  · rw [Ring.pushAll_widx (s.isCap .tx) hwf _ hfits, hlen]
  · rw [hcontents, Memory.readSpan_eq_map]

/-- Settles O29: the completion's guard, its stop on an unadmitted byte, and its two cases without a byte. -/
theorem serWriteCompletionCorners : Obligations.SerWriteCompletionCorners := by
  intro s hop
  rw [State.enabled_eq (by decide), State.agentStep_complete_serWrite hop]
  refine ⟨fun hfull => ?_, fun ha hroom ⟨j, hj, hadm⟩ => ?_, fun ha hn => ?_, fun ha hroom => ?_⟩
  · rw [State.completeWrite, State.opN, if_neg (by omega), Option.isSome_none]
  · rw [State.completeWrite_stuck ha hroom hj hadm, Option.isSome_none]
  · have hzero : s.port.latchN.toNat = 0 := congrArg BitVec.toNat hn
    rw [State.completeWrite_admitted ha (by omega) (fun j hj => by omega), hzero, hn]
    rfl
  · exact State.completeWrite_null ha hroom

/-- Settles O30: the completion is a Pop of the RX ring. -/
theorem serReadByteCompletes : Obligations.SerReadByteCompletes := by
  intro s hop hwf
  rw [State.enabled_eq (by decide), State.agentStep_complete_serReadByte hop, State.completeRead]
  refine ⟨fun hempty => ?_, fun b rest hcontents => ?_⟩
  · rw [if_neg (by omega), Option.isSome_none]
  · obtain ⟨hpos, hhead, hwf', hrest⟩ := Ring.pop_of_contents (s.isCap .rx) hwf hcontents
    rw [if_pos hpos, hhead]
    exact ⟨_, rfl, hwf', hrest, Ring.drop_eq (s.isCap .rx) s.rx⟩

/-- Settles O31: a good byte is offered to the RX ring, and to the TX ring as an echo (`State.receive_good`). -/
theorem receiveEvents : Obligations.ReceiveEvents := by
  intro s hrx htx
  refine ⟨fun hoff => ?_, fun b held hen => ⟨fun hheld => State.agentStep_rx hen hheld, fun hheld => ?_⟩⟩
  · rw [State.enabled_eq (by decide), State.agentStep_rx_none hoff, Option.isSome_none]
  · have hstep := State.agentStep_rx hen hheld
    rw [State.receive_good] at hstep
    refine ⟨_, _, hstep, Ring.offer_contents hrx b, State.echoRing_contents htx b, Ring.offer_wf (s.isCap .rx) hrx b,
      State.echoRing_wf htx b, fun hfits => ?_, fun hfull => Ring.offer_full hfull b, fun hecho hfits => ?_, ?_⟩
    · exact (Ring.offer_fits hfits b).trans (Ring.push_eq (s.isCap .rx) s.rx b)
    · exact ((State.echoRing_on hecho b).trans (Ring.offer_fits hfits b)).trans (Ring.push_eq (s.isCap .tx) s.tx b)
    · rintro (hquiet | hfull)
      · exact State.echoRing_off hquiet b
      · change s.echoRing b = s.tx
        rw [State.echoRing, Ring.offer_full hfull, ite_self]

/-- Settles O32: tx_ready is a Pop of the TX ring, or clears TXIE on an empty one. -/
theorem transmitReadyEvent : Obligations.TransmitReadyEvent := by
  intro s hwf
  refine ⟨fun ht => ?_, fun ht hempty => State.txReady_idle ht hempty, fun b rest ht hcontents => ?_⟩
  · rw [State.enabled_eq (by decide), State.agentStep, State.txReadyStep, ht]
    rfl
  · obtain ⟨hpos, hhead, hwf', hrest⟩ := Ring.pop_of_contents (s.isCap .tx) hwf hcontents
    rw [State.txReady_send ht hpos, State.sendOldest, hhead]
    exact ⟨_, rfl, hwf', hrest, Ring.drop_eq (s.isCap .tx) s.tx⟩

/-- Settles O33: the completion pushes the bytes into an empty ring, and n tx_ready events take them all out again. -/
theorem writeThenDrain : Obligations.WriteThenDrain := by
  intro s hwf hempty _ hop ha hn hfits hadm
  obtain ⟨x, hcomplete, hwf', hlen, -, -, hcontents⟩ := serWriteCompletes s hop hwf ha hn (by omega) hadm
  have hheld : s.port.latchN.toNat ≤ x.len := by omega
  have hdrained : (Ring.dropN (s.cap .tx) s.port.latchN.toNat x).len = 0 := by
    rw [Ring.dropN_len]
    omega
  obtain ⟨-, htaken, -⟩ := Ring.dropN_spec (s.isCap .tx) hwf' hheld
  refine ⟨_, by rw [State.takeTurns, hcomplete, Option.getD_some, State.takeTurns_txReady rfl hheld], ?_, hdrained,
    rfl, ?_⟩
  · refine congrArg (s.uartTx ++ ·) (htaken.trans ?_)
    rw [hcontents, Ring.contents_empty hempty, List.nil_append, List.take_of_length_le (by simp)]
  · rw [State.takeTurns, State.txReady_idle rfl hdrained]
    rfl

/-- Settles O26: the rings created are those of 40 rule R200. -/
theorem serInitStartsTheTransport : Obligations.SerInitStartsTheTransport := by
  intro s hb
  rw [exec, execSerInit, State.issue_idle hb]
  rfl

/-- Settles O27: the busy check passes, and each rule only holds its command. -/
theorem heldCommandsAreIssued : Obligations.HeldCommandsAreIssued := by
  intro s hb
  rw [exec, exec, execSerWrite, execSerReadByte, State.issue_idle hb, State.issue_idle hb]
  exact ⟨rfl, rfl⟩

end Sys2Proof.Machine

/-! ## The tick timer (O37, O38, O39) -/

namespace Sys2Proof.Machine

/-! ### What one step does to the timer -/

section
variable {s t : State}

/-- The tick event while TICK_EN = 1 (42 rule R284). -/
theorem State.agentStep_tick (h : s.tmr.tickEn = true) :
    s.agentStep .tick = some { s with tmr := { s.tmr with tick := s.tmr.tick + 1 } } := if_pos h

/-- No tick is taken while TICK_EN = 0 (42 rule R284). -/
theorem State.agentStep_tick_none (h : s.tmr.tickEn = false) : s.agentStep .tick = none :=
  if_neg (Bool.eq_false_iff.mp h)

/-- seq_advance is enabled under the advance condition (44 rule R361). -/
theorem State.enabled_seqAdvance : s.enabled .seqAdvance = s.advanceEnabled := by
  rw [State.enabled_eq (by decide), State.agentStep, State.seqAdvanceStep]
  cases s.advanceEnabled <;> rfl

/-- A step in which a tick is taken raises TICK by 1 and leaves the rest of the timer alone (42 rule R284). -/
theorem step_tick_tmr (hs : step s = .next t) (ha : s.nextTurn = .tick) (hen : s.tmr.tickEn = true) :
    t.tmr = { s.tmr with tick := s.tmr.tick + 1 } := by
  rw [step, ha, State.takeTurn_agent _ (by decide), State.agentStep_tick (by rwa [State.afterChoice_tmr]),
    Option.getD_some] at hs
  rw [← Host.Outcome.next.inj hs, State.afterChoice_tmr]

/-- A command keeps TICK, TICK_REF and a set TICK_EN, or it is TMR_MARK or SEQ_PLAY, let through by the busy check
(42 rules R280, R282; 44 rule R360). -/
theorem exec_tmr {i : Instr} (h : exec i s = .next t) :
    (∃ en, t.tmr = { s.tmr with tickEn := en || s.tmr.tickEn }) ∨
      (s.port.busy = false ∧ (i = .tmrMark ∨ i = .seqPlay) ∧ t.tmr = s.markTick.tmr) := by
  obtain ⟨-, rfl⟩ | ⟨hb, hrule⟩ := exec_next h
  · exact .inl ⟨false, rfl⟩
  cases i <;> dsimp only at hrule
  case tmrInit => exact .inl ⟨true, hrule ▸ rfl⟩
  case tmrMark => exact .inr ⟨hb, .inl rfl, hrule ▸ rfl⟩
  case seqPlay =>
    split at hrule
    · exact .inr ⟨hb, .inr rfl, hrule ▸ rfl⟩
    · exact .inl ⟨false, hrule ▸ rfl⟩
  all_goals refine .inl ⟨false, ?_⟩
  case rbInit r => cases r <;> exact hrule ▸ rfl
  case rbEnq r =>
    obtain ⟨bytes, v, -, rfl⟩ := State.enqueue_some hrule
    cases r <;> rfl
  case rbDeq r =>
    obtain ⟨k, bytes, v, -, rfl⟩ := State.dequeue_some hrule
    cases r <;> rfl
  case pbLoad | pbStart => split at hrule <;> exact hrule ▸ rfl
  all_goals exact hrule ▸ rfl

/-- An agent's step leaves the timer alone, or it is reset, a tick or an advance (42 rule R285). -/
theorem State.agentStep_tmr {a : Turn} (ha : s.agentStep a = some t) :
    t.tmr = s.tmr ∨ (a = .reset ∧ t.tmr.tickRef = 0) ∨
      (a = .tick ∧ t.tmr = { s.tmr with tick := s.tmr.tick + 1 }) ∨
      (a = .seqAdvance ∧ s.advanceEnabled = true ∧ t.tmr = s.markTick.tmr) := by
  have hstep := State.agentStep_some ha
  cases a <;> dsimp only at hstep
  case reset => exact .inr (.inl ⟨rfl, hstep ▸ rfl⟩)
  case tick => exact .inr (.inr (.inl ⟨rfl, hstep.2 ▸ rfl⟩))
  case seqAdvance =>
    obtain ⟨hen, ⟨-, rfl⟩ | ⟨-, rfl⟩⟩ := hstep
    · exact .inr (.inr (.inr ⟨rfl, hen, rfl⟩))
    · exact .inl rfl
  all_goals left
  case rx =>
    obtain ⟨-, x, rest, -, rfl⟩ := hstep
    obtain ⟨p, q, v, hx⟩ := State.receive_eq { s with env := { s.env with uartHeld := rest } } x
    rw [hx]
  case txReady => obtain ⟨-, ⟨-, rfl⟩ | ⟨-, rfl⟩⟩ := hstep <;> rfl
  case complete =>
    obtain ⟨-, -, u, hu, rfl⟩ | ⟨-, -, rfl⟩ := hstep
    · obtain ⟨bytes, v, -, rfl⟩ := State.enqueue_some hu
      rfl
    · rfl
  case trig => exact hstep.2.2.2 ▸ rfl
  case reload | seqEnd => exact hstep.2 ▸ rfl
  case arrive => exact hstep ▸ rfl

/-- A HOST step keeps TICK, TICK_REF and a set TICK_EN, or it issues TMR_MARK or SEQ_PLAY, let through by the busy
check. -/
theorem step_host_tmr (hs : step s = .next t) (ha : s.nextTurn = .host) :
    (∃ en, t.tmr = { s.tmr with tickEn := en || s.tmr.tickEn }) ∨ (s.Marks ∧ t.tmr = s.markTick.tmr) := by
  obtain ⟨e, rfl | ⟨c, rfl⟩ | ⟨r, w, hw⟩ | ⟨i, hi, hx⟩ | ⟨a, n, v, _, -, rfl⟩⟩ := step_host hs ha
  · exact .inl ⟨false, rfl⟩
  · exact .inl ⟨false, rfl⟩
  · obtain ⟨_, _, _, _, _, _, _, _, _, rfl⟩ := State.writeReg_some hw
    exact .inl ⟨false, rfl⟩
  · refine (exec_tmr hx).imp_right fun ⟨hb, hmark, htmr⟩ => ⟨.inr (.inr ⟨ha, hb, ?_⟩), htmr⟩
    obtain rfl | rfl := hmark
    · exact .inl hi
    · exact .inr hi
  · exact .inl ⟨false, rfl⟩

/-- What one step does to the timer (42 rule R285): it keeps TICK, TICK_REF and a set TICK_EN, or it is reset, or a
tick, or it captures TICK in TICK_REF. -/
theorem step_tmr (hs : step s = .next t) :
    (∃ en, t.tmr = { s.tmr with tickEn := en || s.tmr.tickEn }) ∨
      (s.nextTurn = .reset ∧ t.tmr.tickRef = 0) ∨
      (s.nextTurn = .tick ∧ t.tmr = { s.tmr with tick := s.tmr.tick + 1 }) ∨
      (s.Marks ∧ s.nextTurn ≠ .reset ∧ t.tmr = s.markTick.tmr) := by
  by_cases ha : s.nextTurn = .host
  · exact (step_host_tmr hs ha).imp_right fun ⟨hm, htmr⟩ => .inr (.inr ⟨hm, by simp [ha], htmr⟩)
  · obtain ⟨e, -, rfl | hstep⟩ := step_agent hs ha
    · exact .inl ⟨false, rfl⟩
    · obtain htmr | hreset | htick | ⟨hadv, hen, htmr⟩ := State.agentStep_tmr hstep
      · exact .inl ⟨false, htmr⟩
      · exact .inr (.inl hreset)
      · exact .inr (.inr (.inl htick))
      · exact .inr (.inr (.inr ⟨.inr (.inl ⟨hadv, State.enabled_seqAdvance.trans hen⟩), by simp [hadv], htmr⟩))

/-! ### Counting ticks over a run -/

/-- A step that marks nothing, while TICK_EN = 1: TICK_EN stays set, and ELAPSED grows by 1 exactly when the step is a
tick (42 rules R283, R284). -/
theorem step_elapsed_of_not_marks (hs : step s = .next t) (hen : s.tmr.tickEn = true) (hm : ¬ s.Marks) :
    t.tmr.tickEn = true ∧ t.elapsed = s.elapsed + BitVec.ofNat 32 ([s.nextTurn].count .tick) := by
  by_cases ha : s.nextTurn = .tick
  · have htmr := step_tick_tmr hs ha hen
    refine ⟨htmr ▸ hen, ?_⟩
    rw [State.elapsed, State.elapsed, htmr, ha, List.count_singleton_self]
    exact add_sub_right_comm s.tmr.tick 1 s.tmr.tickRef
  · obtain ⟨en, htmr⟩ | ⟨hreset, -⟩ | ⟨htick, -⟩ | ⟨hmark, -⟩ := step_tmr hs
    · refine ⟨by simp [htmr, hen], ?_⟩
      rw [State.elapsed, State.elapsed, htmr, List.count_singleton, if_neg (by simpa using ha)]
      exact (BitVec.add_zero _).symm
    · exact absurd (.inl hreset) hm
    · exact absurd htick ha
    · exact absurd hmark hm

/-- Over a run that starts with TICK_EN = 1 and marks nothing, TICK_EN stays set and ELAPSED grows by the number of
ticks. -/
theorem run_elapsed_of_not_marks {run : Nat → State} {n : Nat}
    (hrun : ∀ k, k < n → step (run k) = .next (run (k + 1))) (hen : (run 0).tmr.tickEn = true)
    (hm : ∀ k, k < n → ¬ (run k).Marks) :
    (run n).tmr.tickEn = true ∧ (run n).elapsed =
      (run 0).elapsed + BitVec.ofNat 32 (((List.range n).map fun k => (run k).nextTurn).count .tick) := by
  induction n with
  | zero => exact ⟨hen, (BitVec.add_zero _).symm⟩
  | succ n ih =>
    obtain ⟨hen', helapsed⟩ := ih (fun k hk => hrun k (by omega)) (fun k hk => hm k (by omega))
    obtain ⟨henNext, hnext⟩ := step_elapsed_of_not_marks (hrun n (by omega)) hen' (hm n (by omega))
    refine ⟨henNext, ?_⟩
    rw [hnext, helapsed, List.range_succ, List.map_append, List.count_append, BitVec.ofNat_add, BitVec.add_assoc]
    rfl

end

/-- Settles O38: the tick event's two cases, and of the four things a step does to the timer (`step_tmr`) only reset and
a tick write TICK. -/
theorem onlyTicksMoveTick : Obligations.OnlyTicksMoveTick := by
  refine ⟨fun _ => State.agentStep_tick, fun _ => State.agentStep_tick_none, fun s t hs htick hreset => ?_⟩
  obtain ⟨en, htmr⟩ | ⟨ha, -⟩ | ⟨ha, -⟩ | ⟨-, -, htmr⟩ := step_tmr hs
  · rw [htmr]
  · exact absurd ha hreset
  · exact absurd ha htick
  · rw [htmr, State.markTick_tmr]

/-- Settles O39: of the four things a step does to the timer (`step_tmr`) reset and a mark write TICK_REF; and from a
mark ELAPSED grows from 0 by each tick. -/
theorem elapsedCountsTicks : Obligations.ElapsedCountsTicks := by
  refine ⟨fun s t hs hne => ?_, fun run n hrun hen hmark hm => ?_⟩
  · obtain ⟨en, htmr⟩ | ⟨ha, href⟩ | ⟨-, htmr⟩ | ⟨hmarks, ha, htmr⟩ := step_tmr hs
    · exact absurd (by rw [htmr]) hne
    · exact ⟨.inl ha, by rw [href, if_pos ha]⟩
    · exact absurd (by rw [htmr]) hne
    · exact ⟨hmarks, by rw [htmr, if_neg ha, State.markTick_tmr]⟩
  · have hzero : (run 0).elapsed = 0#32 := by rw [State.elapsed, hmark, BitVec.sub_self]
    have hread : (run n).busRead 0x44 32 = ((run n).elapsed, run n) := State.busRead_readable (r := .elapsed) rfl
    rw [hread, (run_elapsed_of_not_marks hrun hen hm).2, hzero, BitVec.zero_add]

/-- Settles O37: the busy check passes, each rule writes its one register, and NOW and ELAPSED are read at their own
offsets. -/
theorem timerCommands : Obligations.TimerCommands := by
  intro s hb
  simp only [exec, execTmrInit, execTmrNow, execTmrMark, execTmrElapsed, State.issue_idle hb]
  exact ⟨rfl, rfl, rfl, rfl, congrArg Prod.fst (State.busRead_readable (r := .now) rfl),
    congrArg Prod.fst (State.busRead_readable (r := .elapsed) rfl)⟩

end Sys2Proof.Machine

/-! ## Playback (O40 to O46) -/

namespace Sys2Proof.Machine

/-! ### The trigger and the completion handler, one equation per case -/

section
variable {s : State}

/-- The state after a trigger: one sample sent to the DAC, and the channel moved on (43 rule R320). -/
def State.triggered (s : State) : State :=
  { s with dac := s.dac ++ [s.sample], pb := Playback.advance s.build s.pb }

/-- The trigger event in an enabled channel whose sample is admitted (43 rule R320). -/
theorem State.agentStep_trig (hsrt : s.pb.srtEn = true) (hch : s.pb.chEn = true)
    (hadm : s.admitsSpan s.pb.sar s.build.bps.toNat = true) : s.agentStep .trig = some s.triggered :=
  if_pos (by rw [hsrt, hch, hadm]; rfl)

/-- No trigger is taken without its three conditions (43 rule R320, 20 rule R104). -/
theorem State.agentStep_trig_none
    (h : s.pb.srtEn = false ∨ s.pb.chEn = false ∨ ¬ s.admitsSpan s.pb.sar s.build.bps.toNat = true) :
    s.agentStep .trig = none := by
  cases ht : s.agentStep .trig with
  | none => rfl
  | some t =>
    obtain ⟨hsrt, hch, hadm, -⟩ := State.agentStep_some ht
    simp [hsrt, hch, hadm] at h

/-- The completion handler in Reload (43 rule R322). -/
theorem State.agentStep_reload (h : s.pb.pbst = .reload) : s.agentStep .reload = some s.start := if_pos h

/-- The completion handler is enabled in Reload only (43 rule R322). -/
theorem State.agentStep_reload_none (h : s.pb.pbst ≠ .reload) : s.agentStep .reload = none := if_neg h

/-- An enabled channel after a trigger, with both ways the transfer can go on (43 rule R320). -/
theorem Playback.advance_eq (b : Build) {p : Playback} (hch : p.chEn = true) :
    Playback.advance b p = { p with
      sar := p.sar + BitVec.ofNat 32 b.bps.toNat
      bcr := p.bcr - BitVec.ofNat 32 b.bps.toNat
      chEn := decide (p.bcr - BitVec.ofNat 32 b.bps.toNat ≠ 0)
      done := p.done || decide (p.bcr - BitVec.ofNat 32 b.bps.toNat = 0)
      pbst := if p.bcr - BitVec.ofNat 32 b.bps.toNat = 0 then .reload else .streaming } := by
  by_cases hz : p.bcr - BitVec.ofNat 32 b.bps.toNat = 0
  · simp [Playback.advance_last hz, hz]
  · rw [Playback.advance_more hz, decide_eq_true hz, decide_eq_false hz, if_neg hz, Bool.or_false, hch]

end

/-- Settles O43: the step exists under the three conditions of `State.trigStep`, and then sends the sample and moves the
channel on as `Playback.advance_eq` says. -/
theorem triggerMovesOneSample : Obligations.TriggerMovesOneSample := by
  refine fun s => ⟨fun h => ?_, fun hsrt hch hadm => ?_⟩
  · have hnone : s.agentStep .trig = none :=
      State.agentStep_trig_none (h.imp_right (Or.imp_right fun ⟨_, hj, hbad⟩ => State.not_admitsSpan hj hbad))
    rw [State.enabled_eq (by decide), hnone, Option.isSome_none]
  · refine ⟨s.sample, _, Memory.memRead_toNat s.mem s.pb.sar (bps_le _), rfl, ?_⟩
    rw [State.agentStep_trig hsrt hch ((s.admitsSpan_iff _ _).mpr hadm), State.triggered, Playback.advance_eq _ hch]

/-! ### Playing a loaded buffer round and round -/

/-- The `n` samples of `w` bytes from address `a` up, in address order. -/
def Memory.samples (m : Memory) (w : Nat) (a : Word) (n : Nat) : List Word :=
  (List.range n).map fun k => Memory.memRead m (a + BitVec.ofNat 32 (k * w)) w

/-- The first sample, and the samples after it. -/
theorem Memory.samples_succ (m : Memory) (w : Nat) (a : Word) (n : Nat) :
    Memory.samples m w a (n + 1) = Memory.memRead m a w :: Memory.samples m w (a + BitVec.ofNat 32 w) n := by
  have hnext : ∀ k, a + BitVec.ofNat 32 ((k + 1) * w) = a + BitVec.ofNat 32 w + BitVec.ofNat 32 (k * w) := fun k => by
    rw [Nat.succ_mul, Nat.add_comm, BitVec.ofNat_add, BitVec.add_assoc]
  simp [Memory.samples, List.range_succ_eq_map, Function.comp_def, hnext]

/-- What `Start()` programs does not depend on how far the channel has come (43 rules R312, R320). -/
theorem Playback.start_advance (b : Build) (p : Playback) :
    Playback.start b (Playback.advance b p) = Playback.start b p := by
  obtain ⟨hsrc, hcnt, -, hsrt, -, -⟩ := Playback.advance_fields b p
  simp [Playback.start, hsrc, hcnt, hsrt]

/-- The channel has `n` admitted samples left to play, and the sample-rate timer drives it; with none left, the transfer
has completed. -/
structure State.SamplesLeft (s : State) (n : Nat) : Prop where
  srtEn : s.pb.srtEn = true
  bytes : s.pb.bcr.toNat = n * s.build.bps.toNat
  channel : if n = 0 then s.pb.pbst = .reload else s.pb.chEn = true
  admitted : ∀ j, j < n * s.build.bps.toNat → memAdmits s.build (s.pb.sar + BitVec.ofNat 32 j) = true

section
variable {s : State} {n : Nat}

/-- With a sample left the trigger is taken. -/
theorem State.SamplesLeft.agentStep_trig (h : s.SamplesLeft (n + 1)) : s.agentStep .trig = some s.triggered :=
  State.agentStep_trig h.srtEn h.channel
    ((s.admitsSpan_iff _ _).mpr fun j hj => h.admitted j (by rw [Nat.succ_mul]; omega))

/-- A trigger leaves one sample less. -/
theorem State.SamplesLeft.triggered (h : s.SamplesLeft (n + 1)) : s.triggered.SamplesLeft n := by
  have hch : s.pb.chEn = true := h.channel
  have hbytes := h.bytes
  rw [Nat.succ_mul] at hbytes
  have hle := bps_le s.build.bps
  have hpos := bps_pos s.build.bps
  have hw : (BitVec.ofNat 32 s.build.bps.toNat).toNat = s.build.bps.toNat := Nat.mod_eq_of_lt (by omega)
  have hleft : (s.pb.bcr - BitVec.ofNat 32 s.build.bps.toNat).toNat = n * s.build.bps.toNat := by
    rw [BitVec.toNat_sub_of_le (by rw [BitVec.le_def, hw]; omega), hw]
    omega
  have hzero : s.pb.bcr - BitVec.ofNat 32 s.build.bps.toNat = 0 ↔ n = 0 := by
    rw [← BitVec.toNat_inj, hleft, BitVec.ofNat_eq_ofNat, BitVec.toNat_ofNat, Nat.zero_mod, Nat.mul_eq_zero]
    omega
  have hpb := Playback.advance_eq s.build hch
  refine ⟨?_, ?_, ?_, fun j (hj : j < n * s.build.bps.toNat) => ?_⟩
  · exact (congrArg Playback.srtEn hpb).trans h.srtEn
  · exact (congrArg (·.bcr.toNat) hpb).trans hleft
  · by_cases hn : n = 0
    · rw [if_pos hn]
      exact (congrArg Playback.pbst hpb).trans (if_pos (hzero.mpr hn))
    · rw [if_neg hn]
      exact (congrArg Playback.chEn hpb).trans (decide_eq_true (mt hzero.mp hn))
  · have hnext : s.triggered.pb.sar + BitVec.ofNat 32 j = s.pb.sar + BitVec.ofNat 32 (s.build.bps.toNat + j) := by
      rw [BitVec.ofNat_add, ← BitVec.add_assoc]
      exact congrArg (·.sar + BitVec.ofNat 32 j) hpb
    rw [hnext]
    exact h.admitted _ (by rw [Nat.succ_mul]; omega)

/-- As many triggers as there are samples left play them in address order and complete the transfer (43 rule R325). -/
theorem State.SamplesLeft.takeTurns_trig (h : s.SamplesLeft n) :
    ∃ q : Playback, q.pbst = .reload ∧ Playback.start s.build q = Playback.start s.build s.pb ∧
      s.takeTurns (List.replicate n .trig) =
        { s with dac := s.dac ++ Memory.samples s.mem s.build.bps.toNat s.pb.sar n, pb := q } := by
  induction n generalizing s with
  | zero => exact ⟨s.pb, h.channel, rfl, by simp [Memory.samples, State.takeTurns]⟩
  | succ n ih =>
    obtain ⟨q, hq, hstart, hturns⟩ := ih h.triggered
    have hsar : s.triggered.pb.sar = s.pb.sar + BitVec.ofNat 32 s.build.bps.toNat :=
      congrArg Playback.sar (Playback.advance_eq s.build h.channel)
    refine ⟨q, hq, hstart.trans (Playback.start_advance _ _), ?_⟩
    rw [List.replicate_succ, State.takeTurns, h.agentStep_trig, Option.getD_some, hturns, hsar, Memory.samples_succ,
      List.append_cons]
    rfl

/-- One round of a started buffer: its samples, and the channel as it was (43 rules R322, R325). -/
theorem State.takeTurns_round (hstarted : s.pb = Playback.start s.build s.pb) (h : s.SamplesLeft n) :
    s.takeTurns (List.replicate n .trig ++ [.reload]) =
      { s with dac := s.dac ++ Memory.samples s.mem s.build.bps.toNat s.pb.sar n } := by
  obtain ⟨q, hq, hstart, hturns⟩ := h.takeTurns_trig
  rw [State.takeTurns_append, hturns, State.takeTurns, State.agentStep_reload hq, Option.getD_some, State.takeTurns,
    State.start, hstart, ← hstarted]

/-- `m` rounds of a started buffer (43 rule R325). -/
theorem State.takeTurns_rounds (m : Nat) (hstarted : s.pb = Playback.start s.build s.pb) (h : s.SamplesLeft n) :
    s.takeTurns (List.replicate m (List.replicate n .trig ++ [.reload])).flatten =
      { s with dac := s.dac ++ (List.replicate m (Memory.samples s.mem s.build.bps.toNat s.pb.sar n)).flatten } := by
  induction m generalizing s with
  | zero => simp [State.takeTurns]
  | succ m ih =>
    have hrest := ih (s := { s with dac := s.dac ++ Memory.samples s.mem s.build.bps.toNat s.pb.sar n }) hstarted
      ⟨h.srtEn, h.bytes, h.channel, h.admitted⟩
    rw [List.replicate_succ, List.flatten_cons, State.takeTurns_append, State.takeTurns_round hstarted h, hrest,
      List.replicate_succ, List.flatten_cons, List.append_assoc]

/-- A started valid buffer has all its samples left (43 rules R310, R312). -/
theorem State.samplesLeft_of_started (hstarted : s.pb = Playback.start s.build s.pb) (hsrt : s.pb.srtEn = true)
    (hvalid : validBuffer s.build s.pb.pbSrc s.pb.pbCnt = true)
    (hadm : ∀ j, j < s.pb.pbCnt.toNat * s.build.bps.toNat →
      memAdmits s.build (s.pb.pbSrc + BitVec.ofNat 32 j) = true) : s.SamplesLeft s.pb.pbCnt.toNat := by
  have hcnt : s.pb.pbCnt.toNat ≠ 0 := fun h0 =>
    ((validBuffer_iff _ _ _).mp hvalid).1 (BitVec.eq_of_toNat_eq h0)
  have hsar : s.pb.sar = s.pb.pbSrc := congrArg Playback.sar hstarted
  have hbcr : s.pb.bcr = s.pb.pbCnt * BitVec.ofNat 32 s.build.bps.toNat := congrArg Playback.bcr hstarted
  have hch : s.pb.chEn = true := congrArg Playback.chEn hstarted
  exact ⟨hsrt, by rw [hbcr, startBytes_toNat hvalid], by rwa [if_neg hcnt], by rwa [hsar]⟩

end

/-- Settles O45: a started buffer has all its samples left, and each of the m rounds plays them and restarts it. -/
theorem loadedBufferLoops : Obligations.LoadedBufferLoops := by
  intro s m hsrt hvalid hstarted hadm
  have hsar : s.pb.sar = s.pb.pbSrc := congrArg Playback.sar hstarted
  rw [State.takeTurns_rounds m hstarted (State.samplesLeft_of_started hstarted hsrt hvalid hadm), hsar]
  rfl

/-! ### The changes of PBST -/

section
variable {s t : State}

/-- A trigger in an enabled channel: PBST goes to Streaming while samples are left, and to Reload at the last one
(43 rules R320, R324). -/
theorem State.Inv.advance_pbst (h : s.Inv) (hch : s.pb.chEn = true) :
    (s.pb.pbst = .armed ∨ s.pb.pbst = .streaming) ∧
      ((s.build.bps.toNat < s.pb.bcr.toNat ∧ (Playback.advance s.build s.pb).pbst = .streaming) ∨
        (s.pb.bcr.toNat = s.build.bps.toNat ∧ (Playback.advance s.build s.pb).pbst = .reload)) := by
  constructor
  · obtain ⟨hidle, -, -, hreload⟩ := h.pbState
    cases hp : s.pb.pbst with
    | idle => simp [(hidle hp).1] at hch
    | armed => exact .inl rfl
    | streaming => exact .inr rfl
    | reload => simp [(hreload hp).1] at hch
  · obtain ⟨hle, hsub⟩ := h.bcr_sub hch
    by_cases hz : s.pb.bcr - BitVec.ofNat 32 s.build.bps.toNat = 0
    · have hnone : s.pb.bcr.toNat - s.build.bps.toNat = 0 := hsub.symm.trans (congrArg BitVec.toNat hz)
      exact .inr ⟨by omega, by rw [Playback.advance_last hz]⟩
    · have hne : s.pb.bcr.toNat - s.build.bps.toNat ≠ 0 := fun h0 => hz (BitVec.eq_of_toNat_eq (hsub.trans h0))
      exact .inl ⟨by omega, by rw [Playback.advance_more hz]⟩

/-- A command leaves PBST alone, or it is PB_START with a pending buffer, SEQ_PLAY or PB_STOP (43 rule R324). -/
theorem exec_pbst {i : Instr} (h : exec i s = .next t) :
    t.pb.pbst = s.pb.pbst ∨ (i = .pbStart ∧ s.pb.pbCnt ≠ 0 ∧ t.pb.pbst = .armed) ∨
      (i = .seqPlay ∧ t.pb.pbst = .armed) ∨ (i = .pbStop ∧ t.pb.pbst = .idle) := by
  obtain ⟨-, rfl⟩ | ⟨-, hrule⟩ := exec_next h
  · exact .inl rfl
  cases i <;> dsimp only at hrule
  case pbStart =>
    split at hrule
    next => exact .inl (hrule ▸ rfl)
    next hn => exact .inr (.inl ⟨rfl, hn, hrule ▸ rfl⟩)
  case seqPlay =>
    split at hrule
    · exact .inr (.inr (.inl ⟨rfl, hrule ▸ rfl⟩))
    · exact .inl (hrule ▸ rfl)
  case pbStop => exact .inr (.inr (.inr ⟨rfl, hrule ▸ rfl⟩))
  all_goals left
  case rbInit r => cases r <;> exact hrule ▸ rfl
  case rbEnq r =>
    obtain ⟨bytes, v, -, rfl⟩ := State.enqueue_some hrule
    cases r <;> rfl
  case rbDeq r =>
    obtain ⟨k, bytes, v, -, rfl⟩ := State.dequeue_some hrule
    cases r <;> rfl
  case pbLoad => split at hrule <;> exact hrule ▸ rfl
  all_goals exact hrule ▸ rfl

/-- An agent's step leaves PBST alone, or it is reset, an advance, a trigger or a reload (43 rule R324). -/
theorem State.agentStep_pbst {a : Turn} (ha : s.agentStep a = some t) :
    t.pb.pbst = s.pb.pbst ∨ (a = .reset ∧ t.pb.pbst = .idle) ∨ (a = .seqAdvance ∧ t.pb.pbst = .armed) ∨
      (a = .trig ∧ s.pb.chEn = true ∧ t.pb = Playback.advance s.build s.pb) ∨
      (a = .reload ∧ s.pb.pbst = .reload ∧ t.pb.pbst = .armed) := by
  have hstep := State.agentStep_some ha
  cases a <;> dsimp only at hstep
  case reset => exact .inr (.inl ⟨rfl, hstep ▸ rfl⟩)
  case seqAdvance =>
    obtain ⟨-, ⟨-, rfl⟩ | ⟨-, rfl⟩⟩ := hstep
    · exact .inr (.inr (.inl ⟨rfl, rfl⟩))
    · exact .inl rfl
  case trig =>
    obtain ⟨-, hch, -, rfl⟩ := hstep
    exact .inr (.inr (.inr (.inl ⟨rfl, hch, rfl⟩)))
  case reload =>
    obtain ⟨hr, rfl⟩ := hstep
    exact .inr (.inr (.inr (.inr ⟨rfl, hr, rfl⟩)))
  all_goals left
  case rx =>
    obtain ⟨-, x, rest, -, rfl⟩ := hstep
    obtain ⟨p, q, v, hx⟩ := State.receive_eq { s with env := { s.env with uartHeld := rest } } x
    rw [hx]
  case txReady => obtain ⟨-, ⟨-, rfl⟩ | ⟨-, rfl⟩⟩ := hstep <;> rfl
  case complete =>
    obtain ⟨-, -, u, hu, rfl⟩ | ⟨-, -, rfl⟩ := hstep
    · obtain ⟨bytes, v, -, rfl⟩ := State.enqueue_some hu
      rfl
    · rfl
  case tick | seqEnd => exact hstep.2 ▸ rfl
  case arrive => exact hstep ▸ rfl

/-- A HOST step leaves PBST alone, or it issues PB_START with a pending buffer, SEQ_PLAY or PB_STOP (43 rule R324). -/
theorem step_host_pbst (hs : step s = .next t) (ha : s.nextTurn = .host) :
    t.pb.pbst = s.pb.pbst ∨ (s.Issues .pbStart ∧ s.pb.pbCnt ≠ 0 ∧ t.pb.pbst = .armed) ∨
      (s.Issues .seqPlay ∧ t.pb.pbst = .armed) ∨ (s.Issues .pbStop ∧ t.pb.pbst = .idle) := by
  obtain ⟨e, rfl | ⟨c, rfl⟩ | ⟨r, w, hw⟩ | ⟨i, hi, hx⟩ | ⟨a, n, v, _, -, rfl⟩⟩ := step_host hs ha
  · exact .inl rfl
  · exact .inl rfl
  · obtain ⟨_, _, _, _, _, _, _, _, _, rfl⟩ := State.writeReg_some hw
    exact .inl rfl
  · obtain hkept | ⟨rfl, hcnt, harmed⟩ | ⟨rfl, harmed⟩ | ⟨rfl, hidle⟩ := exec_pbst hx
    · exact .inl hkept
    · exact .inr (.inl ⟨hi, hcnt, harmed⟩)
    · exact .inr (.inr (.inl ⟨hi, harmed⟩))
    · exact .inr (.inr (.inr ⟨hi, hidle⟩))
  · exact .inl rfl

/-- What one step does to PBST, with the trigger's two rows as one (43 rule R324). -/
theorem step_pbst (hs : step s = .next t) :
    t.pb.pbst = s.pb.pbst ∨
      (s.nextTurn = .host ∧ ((s.Issues .pbStart ∧ s.pb.pbCnt ≠ 0 ∧ t.pb.pbst = .armed) ∨
        (s.Issues .seqPlay ∧ t.pb.pbst = .armed) ∨ (s.Issues .pbStop ∧ t.pb.pbst = .idle))) ∨
      (s.nextTurn = .reset ∧ t.pb.pbst = .idle) ∨ (s.nextTurn = .seqAdvance ∧ t.pb.pbst = .armed) ∨
      (s.nextTurn = .trig ∧ s.pb.chEn = true ∧ t.pb = Playback.advance s.build s.pb) ∨
      (s.nextTurn = .reload ∧ s.pb.pbst = .reload ∧ t.pb.pbst = .armed) := by
  by_cases ha : s.nextTurn = .host
  · exact (step_host_pbst hs ha).imp_right fun hrow => .inl ⟨ha, hrow⟩
  · obtain ⟨e, -, rfl | hstep⟩ := step_agent hs ha
    · exact .inl rfl
    · exact (State.agentStep_pbst hstep).imp_right .inr

end

/-- Settles O46: the rows of `step_pbst`, where the invariant tells the trigger's two rows apart by BCR. -/
theorem playbackStateTransitions : Obligations.PlaybackStateTransitions := by
  intro s t hinv hs hne
  obtain ⟨ha, hstart | hplay | hstop⟩ | hreset | hadvance | ⟨ha, hch, hpb⟩ | hreload := (step_pbst hs).resolve_left hne
  · exact .inr (.inl ⟨ha, hstart⟩)
  · exact .inr (.inr (.inl ⟨ha, hplay⟩))
  · exact .inr (.inr (.inr (.inr (.inr (.inr (.inr ⟨ha, hstop⟩))))))
  · exact .inl hreset
  · exact .inr (.inr (.inr (.inl hadvance)))
  · obtain ⟨hfrom, ⟨hbcr, hto⟩ | ⟨hbcr, hto⟩⟩ := hinv.advance_pbst hch
    · exact .inr (.inr (.inr (.inr (.inl ⟨ha, hfrom, hbcr, hpb ▸ hto⟩))))
    · exact .inr (.inr (.inr (.inr (.inr (.inl ⟨ha, hfrom, hbcr, hpb ▸ hto⟩)))))
  · exact .inr (.inr (.inr (.inr (.inr (.inr (.inl hreload))))))

/-! ### The playback commands and the reload step -/

/-- Settles O40: the busy check passes, and `valid(a, n)` is the four conditions of R310. -/
theorem pbLoadRecordsValidBuffers : Obligations.PbLoadRecordsValidBuffers := by
  intro s hb
  rw [exec, execPbLoad, State.issue_idle hb]
  exact congrArg _ (if_congr (validBuffer_iff _ _ _) rfl rfl)

/-- Settles O41: the busy check passes, and PB_CNT decides between `Start()` and the fault. -/
theorem pbStartArmsTheChannel : Obligations.PbStartArmsTheChannel := by
  intro s hb
  rw [exec, execPbStart, State.issue_idle hb]
  exact ⟨fun hcnt => congrArg _ (if_neg hcnt), fun hcnt => congrArg _ (if_pos hcnt)⟩

/-- Settles O42: the busy check passes, and the command's own rule writes just these fields. -/
theorem pbStopGoesIdle : Obligations.PbStopGoesIdle := by
  intro s hb
  rw [exec, execPbStop, State.issue_idle hb]
  rfl

/-- Settles O44: the completion handler exists in Reload only, and there it is `Start()`. -/
theorem reloadRestartsTheLoadedBuffer : Obligations.ReloadRestartsTheLoadedBuffer := by
  refine fun s => ⟨fun hne => ?_, State.agentStep_reload⟩
  rw [State.enabled_eq (by decide), State.agentStep_reload_none hne, Option.isSome_none]

end Sys2Proof.Machine

/-! ## The note sequencer (O47 to O51) -/

namespace Sys2Proof.Machine

/-! ### The next note and its descriptor -/

/-- SEQ_IDX counts modulo 3 (44 rule R362). -/
theorem nextNote_val (k : Fin 3) : (nextNote k).val = (k.val + 1) % 3 := by
  match k with
  | 0 | 1 | 2 => rfl

/-- The descriptors as a table (10 rule R40). -/
theorem Sequencer.desc_eq_getD (q : Sequencer) (k : Fin 3) :
    q.desc k = [q.desc0, q.desc1, q.desc2].getD k.val ⟨0, 0⟩ := by
  match k with
  | 0 | 1 | 2 => rfl

section
variable {s t : State}

/-- SEQ_PLAY's check is the buffer check of each descriptor (44 rule R360). -/
theorem State.descsValid_iff :
    s.descsValid = true ↔ validBuffer s.build s.seq.desc0.addr s.seq.desc0.cnt = true ∧
      validBuffer s.build s.seq.desc1.addr s.seq.desc1.cnt = true ∧
      validBuffer s.build s.seq.desc2.addr s.seq.desc2.cnt = true := by
  rw [State.descsValid, Bool.and_eq_true, Bool.and_eq_true, and_assoc]
  exact Iff.rfl

/-! ### When the sequencer's two steps are enabled, and what they do -/

/-- seq_advance under the advance condition (44 rule R362). -/
theorem State.agentStep_seqAdvance (h : s.advanceEnabled = true) :
    s.agentStep .seqAdvance = some
      (if validDesc s.build (s.seq.desc (nextNote s.seq.idx)) then s.playNote (nextNote s.seq.idx)
        else State.raise { s with seq := { s.seq with active := false } } .seqBadDesc) := if_pos h

/-- seq_advance is enabled in an active session with budget left, past the note's threshold (44 rule R361). -/
theorem State.enabled_seqAdvance_iff :
    s.enabled .seqAdvance = true ↔ s.seq.active = true ∧ (s.tmr.tick - s.seq.t0).toNat < s.seq.budget.toNat ∧
      s.seq.noteTicks.toNat < (s.tmr.tick - s.tmr.tickRef).toNat := by
  rw [State.enabled_seqAdvance, State.advanceEnabled_iff]

/-- seq_end is enabled in an active session whose budget is used up (44 rule R363). -/
theorem State.enabled_seqEnd_iff :
    s.enabled .seqEnd = true ↔ s.seq.active = true ∧ s.seq.budget.toNat ≤ (s.tmr.tick - s.seq.t0).toNat := by
  rw [State.enabled_eq (by decide), State.agentStep, Option.isSome_iff_exists]
  simp only [State.seqEndStep_some, exists_eq_right]

/-! ### The changes of SEQ_IDX -/

/-- An agent's step that commutes with replacing the sequencer leaves it alone. -/
theorem State.agentStep_seq_of_withPlayback {a : Turn}
    (hblind : (s.withPlayback s.pb s.seq).agentStep a = (s.agentStep a).map (State.withPlayback s.pb s.seq))
    (ha : s.agentStep a = some t) : t.seq = s.seq := by
  have hself : some t = some (t.withPlayback s.pb s.seq) := ha.symm.trans (hblind.trans (congrArg _ ha))
  exact (congrArg State.seq (Option.some.inj hself) :)

/-- A command that commutes with replacing the sequencer leaves it alone. -/
theorem exec_seq_of_withPlayback {i : Instr}
    (hblind : exec i (s.withPlayback s.pb s.seq) = mapNext (State.withPlayback s.pb s.seq) (exec i s))
    (h : exec i s = .next t) : t.seq = s.seq := by
  have hself : .next t = mapNext (State.withPlayback s.pb s.seq) (.next t) :=
    h.symm.trans (hblind.trans (congrArg _ h))
  exact (congrArg State.seq (Host.Outcome.next.inj hself) :)

/-- A command leaves SEQ_IDX alone, or it is SEQ_PLAY, which sets it to 0 (44 rules R360, R365). -/
theorem exec_seq_idx {i : Instr} (h : exec i s = .next t) :
    t.seq.idx = s.seq.idx ∨ (i = .seqPlay ∧ t.seq.idx = 0) := by
  obtain ⟨-, rfl⟩ | ⟨-, hrule⟩ := exec_next h
  · exact .inl rfl
  cases i <;> dsimp only at hrule
  case seqPlay =>
    split at hrule
    · exact .inr ⟨rfl, hrule ▸ rfl⟩
    · exact .inl (hrule ▸ rfl)
  all_goals left
  case rbInit r | rbEnq r | rbDeq r =>
    rw [exec_seq_of_withPlayback (exec_ring_withPlayback _ _ s r (by simp)) h]
  case pbLoad | pbStart => split at hrule <;> exact hrule ▸ rfl
  all_goals exact hrule ▸ rfl

/-- An agent's step leaves SEQ_IDX alone, or it is an advance to the next note, or reset (44 rules R362, R365). -/
theorem State.agentStep_seq_idx {a : Turn} (ha : s.agentStep a = some t) :
    t.seq.idx = s.seq.idx ∨ (a = .seqAdvance ∧ t.seq.idx = nextNote s.seq.idx) ∨ (a = .reset ∧ t.seq.idx = 0) := by
  have hstep := State.agentStep_some ha
  cases a <;> dsimp only at hstep
  case seqAdvance =>
    obtain ⟨-, ⟨-, rfl⟩ | ⟨-, rfl⟩⟩ := hstep
    · exact .inr (.inl ⟨rfl, rfl⟩)
    · exact .inl rfl
  case reset => exact .inr (.inr ⟨rfl, hstep ▸ rfl⟩)
  all_goals left
  case rx => rw [State.agentStep_seq_of_withPlayback (a := .rx) (s.withPlayback_rxStep _ _) ha]
  case txReady => rw [State.agentStep_seq_of_withPlayback (a := .txReady) (s.withPlayback_txReadyStep _ _) ha]
  case complete => rw [State.agentStep_seq_of_withPlayback (a := .complete) (s.withPlayback_completeStep _ _) ha]
  case trig => exact hstep.2.2.2 ▸ rfl
  case tick | reload | seqEnd => exact hstep.2 ▸ rfl
  case arrive => exact hstep ▸ rfl

/-- A HOST step leaves SEQ_IDX alone, or it issues SEQ_PLAY, which sets it to 0 (44 rule R365). -/
theorem step_host_seq_idx (hs : step s = .next t) (ha : s.nextTurn = .host) :
    t.seq.idx = s.seq.idx ∨ (s.Issues .seqPlay ∧ t.seq.idx = 0) := by
  obtain ⟨e, rfl | ⟨c, rfl⟩ | ⟨r, w, hw⟩ | ⟨i, hi, hx⟩ | ⟨a, n, v, _, -, rfl⟩⟩ := step_host hs ha
  · exact .inl rfl
  · exact .inl rfl
  · obtain ⟨_, _, _, _, _, _, _, _, _, rfl⟩ := State.writeReg_some hw
    exact .inl rfl
  · obtain hkept | ⟨rfl, hzero⟩ := exec_seq_idx hx
    · exact .inl hkept
    · exact .inr ⟨hi, hzero⟩
  · exact .inl rfl

end

/-- Settles O48: the advance condition, and `playNote` of the next descriptor in the table. -/
theorem seqAdvancePlaysTheNextNote : Obligations.SeqAdvancePlaysTheNextNote := by
  refine fun s => ⟨State.enabled_seqAdvance_iff, fun hen j d hj hd => ?_⟩
  obtain rfl : j = nextNote s.seq.idx := Fin.ext (hj.trans (nextNote_val _).symm)
  obtain rfl : d = s.seq.desc (nextNote s.seq.idx) := hd.trans (Sequencer.desc_eq_getD _ _).symm
  exact State.agentStep_seqAdvance (State.enabled_seqAdvance.symm.trans hen)

/-- Settles O51: the HOST's step changes SEQ_IDX only through SEQ_PLAY, an agent's only as an advance or reset. -/
theorem notesFollowCyclically : Obligations.NotesFollowCyclically := by
  intro s t hs hne
  by_cases ha : s.nextTurn = .host
  · exact .inr (.inl ⟨ha, (step_host_seq_idx hs ha).resolve_left hne⟩)
  · obtain ⟨e, -, rfl | hstep⟩ := step_agent hs ha
    · exact absurd rfl hne
    · obtain ⟨hadvance, hidx⟩ | hreset := (State.agentStep_seq_idx hstep).resolve_left hne
      · exact .inl ⟨hadvance, hidx ▸ nextNote_val _⟩
      · exact .inr (.inr hreset)

/-- Settles O47: the busy check passes, and the three buffer checks decide between the session and the fault. -/
theorem seqPlayStartsASession : Obligations.SeqPlayStartsASession := by
  intro s hb
  rw [exec, execSeqPlay, State.issue_idle hb]
  exact congrArg _ (if_congr State.descsValid_iff rfl rfl)

/-- Settles O49: the end condition, and the one flag the step clears. -/
theorem seqEndClosesTheSession : Obligations.SeqEndClosesTheSession := fun _ =>
  ⟨State.enabled_seqEnd_iff, fun hen => State.seqEndStep_some.mpr ⟨State.enabled_seqEnd_iff.mp hen, rfl⟩⟩

/-- Settles O50: one step needs budget left, the other needs it used up. -/
theorem advanceAndEndExcludeEachOther : Obligations.AdvanceAndEndExcludeEachOther := by
  intro s
  have hleft (h : s.enabled .seqAdvance = true) := (State.enabled_seqAdvance_iff.mp h).2.1
  have hspent (h : s.enabled .seqEnd = true) := (State.enabled_seqEnd_iff.mp h).2
  exact ⟨fun ⟨hadvance, hend⟩ => Nat.not_lt.mpr (hspent hend) (hleft hadvance), hleft, hspent⟩

end Sys2Proof.Machine

/-! ## Faults and progress (O15, O16, O35, O54) -/

namespace Sys2Proof.Machine

/-! ### What writes ERR -/

section
variable {s t : State}

/-- A fault already recorded keeps its cause (60 rule R403). -/
theorem State.raise_err_of_faulted (hf : s.err.fault = true) (c : Cause) : (s.raise c).err = s.err := by
  rw [State.raise_err, if_pos hf, ← hf]

/-- A command leaves ERR alone, or it raises a fault and does nothing else: before it takes the latches when the port
is busy, after them otherwise (30 rule R140; 60 rule R404). -/
theorem exec_err {i : Instr} (h : exec i s = .next t) :
    t.err = s.err ∨ ∃ c, t = s.raise c ∨ t = s.latch.raise c := by
  obtain ⟨-, hfault⟩ | ⟨-, hrule⟩ := exec_next h
  · exact .inr ⟨_, .inl hfault⟩
  cases i <;> dsimp only at hrule
  case rbInit r => exact .inl (hrule ▸ s.latch.setRing_err r _)
  case rbEnq r => exact .inl ((State.enqueue_err hrule).trans s.latch_err)
  case rbDeq r => exact .inl ((State.dequeue_err hrule).trans s.latch_err)
  case pbLoad | seqPlay =>
    split at hrule
    · exact .inl (hrule ▸ rfl)
    · exact .inr ⟨_, .inr hrule⟩
  case pbStart =>
    split at hrule
    · exact .inr ⟨_, .inr hrule⟩
    · exact .inl (hrule ▸ rfl)
  all_goals exact .inl (hrule ▸ rfl)

/-- An agent's step leaves ERR alone, or it is reset, or an advance to an invalid descriptor, which closes the session
and raises SEQ_BAD_DESC (44 rule R362). -/
theorem State.agentStep_err {a : Turn} (ha : s.agentStep a = some t) :
    t.err = s.err ∨ a = .reset ∨
      (a = .seqAdvance ∧ t = State.raise { s with seq := { s.seq with active := false } } .seqBadDesc) := by
  have hstep := State.agentStep_some ha
  cases a <;> dsimp only at hstep
  case reset => exact .inr (.inl rfl)
  case seqAdvance =>
    obtain ⟨-, ⟨-, rfl⟩ | ⟨-, hfault⟩⟩ := hstep
    · exact .inl rfl
    · exact .inr (.inr ⟨rfl, hfault⟩)
  all_goals left
  case rx =>
    obtain ⟨-, x, rest, -, rfl⟩ := hstep
    obtain ⟨p, q, v, hx⟩ := State.receive_eq { s with env := { s.env with uartHeld := rest } } x
    rw [hx]
  case txReady => obtain ⟨-, ⟨-, rfl⟩ | ⟨-, rfl⟩⟩ := hstep <;> rfl
  case complete =>
    obtain ⟨-, -, u, hu, rfl⟩ | ⟨-, -, rfl⟩ := hstep
    · exact (State.enqueue_err hu :)
    · rfl
  case trig => exact hstep.2.2.2 ▸ rfl
  case tick | reload | seqEnd => exact hstep.2 ▸ rfl
  case arrive => exact hstep ▸ rfl

/-- A step other than reset leaves ERR alone, or records one fault in it (60 rule R403). -/
theorem step_err (hs : step s = .next t) (hreset : s.nextTurn ≠ .reset) :
    t.err = s.err ∨ ∃ c, t.err = (s.raise c).err := by
  by_cases ha : s.nextTurn = .host
  · obtain ⟨e, rfl | ⟨c, rfl⟩ | ⟨r, w, hw⟩ | ⟨i, -, hx⟩ | ⟨a, n, v, _, -, rfl⟩⟩ := step_host hs ha
    · exact .inl rfl
    · exact .inr ⟨c, rfl⟩
    · obtain ⟨_, _, _, _, _, _, _, _, _, rfl⟩ := State.writeReg_some hw
      exact .inl rfl
    · obtain herr | ⟨c, rfl | rfl⟩ := exec_err hx
      · exact .inl herr
      all_goals exact .inr ⟨c, rfl⟩
    · exact .inl rfl
  · obtain ⟨e, -, rfl | hstep⟩ := step_agent hs ha
    · exact .inl rfl
    · obtain herr | hturn | ⟨-, rfl⟩ := State.agentStep_err hstep
      · exact .inl herr
      · exact absurd hturn hreset
      · exact .inr ⟨.seqBadDesc, rfl⟩

/-- Only reset changes ERR once a fault is recorded (60 rules R403, R405). -/
theorem step_err_of_faulted (hs : step s = .next t) (hreset : s.nextTurn ≠ .reset) (hf : s.err.fault = true) :
    t.err = s.err := by
  obtain herr | ⟨c, herr⟩ := step_err hs hreset
  · exact herr
  · exact herr.trans (State.raise_err_of_faulted hf c)

/-- A step other than reset that ends unfaulted began unfaulted (60 rule R405). -/
theorem unfaulted_of_step (hs : step s = .next t) (hreset : s.nextTurn ≠ .reset) (ht : t.Unfaulted) : s.Unfaulted := by
  refine Bool.eq_false_iff.mpr fun hf => Bool.eq_false_iff.mp ht ?_
  rwa [step_err_of_faulted hs hreset hf]

/-! ### BLOCK's steps disable themselves -/

/-- No completion is enabled while no command is held (30 rule R144). -/
theorem State.enabled_complete_of_not_held (h : s.port.heldOp = .none) : s.enabled .complete = false := by
  rw [State.enabled_eq (by decide), State.agentStep, State.completeStep, h]
  rfl

/-- seq_advance is not enabled right after a note has started: ELAPSED is 0 (44 rules R361, R362). -/
theorem State.enabled_seqAdvance_playNote (s : State) (k : Fin 3) : (s.playNote k).enabled .seqAdvance = false := by
  refine Bool.eq_false_iff.mpr fun hen => ?_
  have hlt : s.seq.noteTicks.toNat < (s.tmr.tick - s.tmr.tick).toNat := (State.enabled_seqAdvance_iff.mp hen).2.2
  simp at hlt

/-- A BLOCK step is not enabled in the state it leaves (41 rules R242, R244; 43 rule R322; 44 rules R362, R363). -/
theorem State.agentStep_disables_block {a : Turn} (hblock : IsBlockTurn a) (ha : s.agentStep a = some t) :
    t.enabled a = false := by
  have hstep := State.agentStep_some ha
  obtain rfl | rfl | rfl | rfl := hblock <;> dsimp only at hstep
  · obtain ⟨-, -, u, -, rfl⟩ | ⟨-, -, rfl⟩ := hstep <;> exact State.enabled_complete_of_not_held rfl
  · obtain ⟨-, rfl⟩ := hstep
    have harmed : s.start.pb.pbst ≠ .reload := by simp [Playback.start]
    rw [State.enabled_eq (by decide), State.agentStep_reload_none harmed, Option.isSome_none]
  · obtain ⟨-, ⟨-, rfl⟩ | ⟨-, rfl⟩⟩ := hstep
    · exact s.enabled_seqAdvance_playNote _
    · exact Bool.eq_false_iff.mpr fun hen => Bool.false_ne_true (State.enabled_seqAdvance_iff.mp hen).1
  · obtain ⟨-, rfl⟩ := hstep
    exact Bool.eq_false_iff.mpr fun hen => Bool.false_ne_true (State.enabled_seqEnd_iff.mp hen).1

/-- After a turn of BLOCK its step is not enabled: it has just been taken, or it was not enabled. -/
theorem step_disables_block (hs : step s = .next t) (hblock : IsBlockTurn s.nextTurn) :
    t.enabled s.nextTurn = false := by
  have hhost : s.nextTurn ≠ .host := by
    obtain ha | ha | ha | ha := hblock <;> simp [ha]
  rw [step, State.takeTurn_agent _ hhost] at hs
  obtain rfl := Host.Outcome.next.inj hs
  cases ha : s.afterChoice.agentStep s.nextTurn with
  | none => rw [Option.getD_none, State.enabled_eq hhost, ha, Option.isSome_none]
  | some u => exact State.agentStep_disables_block hblock ha

/-! ### Every step answers a next state -/

/-- A bus write is never refused: every command has a meaning (30 rule R146). -/
theorem State.busWrite_ne_refused (off : BitVec 8) (bits : Nat) (w : Word) (r : Refusal) :
    s.busWrite off bits w ≠ .refused r := by
  obtain ⟨c, hw⟩ | ⟨_, u, -, -, hw⟩ | ⟨-, -, i, -, hw⟩ :=
    State.busWrite_cases (s := s) (off := off) (bits := bits) (w := w)
  · simp [hw]
  · simp [hw]
  · obtain ⟨u, hx⟩ | hx := exec_cases i s <;> simp [hw, hx]

/-- No access of the HOST is refused. -/
theorem State.hostAccess_ne_refused (op : HostOp) (r : Refusal) : s.hostAccess op ≠ .refused r := by
  cases op
  case write target bits w =>
    rw [State.hostAccess, State.hostWrite]
    split
    · exact State.busWrite_ne_refused _ bits w r
    · simp
  all_goals simp [State.hostAccess]

/-- An access that is not refused leaves a next state, the same one where it is stuck (20 rule R104). -/
theorem State.orStay_next {o : Host.Outcome State Fault Refusal} (h : ∀ r, o ≠ .refused r) :
    ∃ t, s.orStay o = .next t := by
  cases o with
  | next u => exact ⟨u, rfl⟩
  | fault f => exact ⟨s, rfl⟩
  | refused r => exact absurd rfl (h r)

/-- The HOST's turn answers a next state: its program is at its end, or its next access is not refused. -/
theorem State.hostTurn_total (s : State) : ∃ t, s.hostTurn = .next t := by
  cases hop : s.env.host with
  | nil => exact ⟨s, by rw [State.hostTurn, hop]⟩
  | cons op ops =>
    rw [State.hostTurn_cons hop]
    exact State.orStay_next (State.hostAccess_ne_refused op)

end

/-- Settles O54: the HOST's turn is total (`State.hostTurn_total`), and another agent's turn is its step or nothing. -/
theorem everyStepAnswersANextState : Obligations.EveryStepAnswersANextState := by
  intro s
  by_cases ha : s.nextTurn = .host
  · rw [step, ha, State.takeTurn_host]
    exact s.afterChoice.hostTurn_total
  · exact ⟨_, s.afterChoice.takeTurn_agent ha⟩

/-- Settles O15: a step other than reset keeps a recorded fault (`step_err_of_faulted`), so going back along the run
from an unfaulted state finds unfaulted states only. -/
theorem firstFaultIsKeptUntilReset : Obligations.FirstFaultIsKeptUntilReset := by
  refine ⟨fun s t => step_err_of_faulted, fun run n hrun hn k hk => ?_⟩
  refine Nat.decreasingInduction' (P := fun j => (run j).Unfaulted) (fun j hj _ hnext => ?_) hk hn
  obtain ⟨hs, hreset⟩ := hrun j hj
  exact unfaulted_of_step hs hreset hnext

/-- Settles O16: from an unfaulted state FAULT = 1 shows that the command or the advance raised a fault, and then
`exec_err` and `State.agentStep_err` name the whole next state. -/
theorem faultsArePrecise : Obligations.FaultsArePrecise := by
  intro s t hs ht
  have herr : t.err ≠ s.err := fun h => Bool.false_ne_true (hs.symm.trans (h ▸ ht))
  refine ⟨fun i h => ?_, fun h => ?_⟩
  · obtain ⟨c, rfl | rfl⟩ := (exec_err h).resolve_left herr <;> rfl
  · obtain hreset | ⟨-, rfl⟩ := (State.agentStep_err h).resolve_left herr
    · exact absurd hreset (by decide)
    · rw [State.raise, if_neg (Bool.eq_false_iff.mp hs)]
      rfl

/-- Settles O35: fairness gives a step that stays enabled its turn, and after that turn it is not enabled
(`step_disables_block`). -/
theorem fairRunsTakeBlockSteps : Obligations.FairRunsTakeBlockSteps := by
  intro run hrun hfair a hblock k
  by_contra hnever
  have halways : ∀ m, k ≤ m → (run m).enabled a = true := fun m hm =>
    eq_true_of_ne_false fun hoff => hnever ⟨m, hm, hoff⟩
  obtain ⟨m, hm, rfl⟩ := hfair a hblock k halways
  have hoff := step_disables_block (hrun m) hblock
  exact Bool.false_ne_true (hoff.symm.trans (halways (m + 1) (by omega)))

end Sys2Proof.Machine

/-! ## An oversized SER_WRITE, and the block after reset (O34, O60) -/

namespace Sys2Proof.Machine

section
variable {s t : State}

/-! ### What a held command's port goes through -/

/-- The completion of SER_WRITE is never enabled for more bytes than the TX ring can hold (70 rule R464). -/
theorem State.agentStep_complete_oversized (hop : s.port.heldOp = .serWrite)
    (hbig : s.cap .tx < s.port.latchN.toNat) : s.agentStep .complete = none := by
  rw [State.agentStep_complete_serWrite hop, State.completeWrite, State.opN, if_neg (by omega)]

/-- An agent's step leaves the command port alone, or it is reset or a completion (10 rule R30; 30 rule R144). -/
theorem State.agentStep_port {a : Turn} (hreset : a ≠ .reset) (hcomplete : a ≠ .complete)
    (ha : s.agentStep a = some t) : t.port = s.port := by
  have hstep := State.agentStep_some ha
  cases a <;> dsimp only at hstep
  case rx =>
    obtain ⟨-, x, rest, -, rfl⟩ := hstep
    obtain ⟨p, q, v, hx⟩ := State.receive_eq { s with env := { s.env with uartHeld := rest } } x
    rw [hx]
  case txReady => obtain ⟨-, ⟨-, rfl⟩ | ⟨-, rfl⟩⟩ := hstep <;> rfl
  case trig => exact hstep.2.2.2 ▸ rfl
  case seqAdvance => obtain ⟨-, ⟨-, rfl⟩ | ⟨-, rfl⟩⟩ := hstep <;> rfl
  case tick | reload | seqEnd => exact hstep.2 ▸ rfl
  case arrive => exact hstep ▸ rfl
  case complete => exact absurd rfl hcomplete
  case reset => exact absurd rfl hreset

/-- While BUSY = 1 the HOST changes ARG_ADDR and ARG_N in the command port and nothing else: a command it issues is
shut out (30 rule R140). -/
theorem step_host_port_of_busy (hs : step s = .next t) (ha : s.nextTurn = .host) (hb : s.port.busy = true) :
    ∃ a n, t.port = { s.port with argAddr := a, argN := n } := by
  obtain ⟨e, rfl | ⟨c, rfl⟩ | ⟨r, w, hw⟩ | ⟨i, -, hx⟩ | ⟨_, _, _, _, -, rfl⟩⟩ := step_host hs ha
  · exact ⟨_, _, rfl⟩
  · exact ⟨_, _, rfl⟩
  · obtain ⟨a, n, _, _, _, _, _, _, _, rfl⟩ := State.writeReg_some hw
    exact ⟨a, n, rfl⟩
  · obtain rfl := Host.Outcome.next.inj ((exec_busy (s := { s with env := e }) hb i).symm.trans hx)
    exact ⟨_, _, rfl⟩
  · exact ⟨_, _, rfl⟩

/-- A step other than reset leaves the port of a held SER_WRITE as it is, but for ARG_ADDR and ARG_N, when its bytes can
never fit (70 rule R464). -/
theorem step_port_of_oversized (hs : step s = .next t) (hreset : s.nextTurn ≠ .reset) (hb : s.port.busy = true)
    (hop : s.port.heldOp = .serWrite) (hbig : s.cap .tx < s.port.latchN.toNat) :
    ∃ a n, t.port = { s.port with argAddr := a, argN := n } := by
  by_cases ha : s.nextTurn = .host
  · exact step_host_port_of_busy hs ha hb
  obtain ⟨e, -, rfl | hstep⟩ := step_agent hs ha
  · exact ⟨_, _, rfl⟩
  by_cases hcomplete : s.nextTurn = .complete
  · rw [hcomplete, State.agentStep_complete_oversized (s := { s with env := e }) hop hbig] at hstep
    cases hstep
  · exact ⟨_, _, State.agentStep_port (s := { s with env := e }) hreset hcomplete hstep⟩

/-! ### What is not enabled -/

/-- An agent's step that does not exist is not enabled. -/
theorem State.enabled_of_agentStep_none {a : Turn} (ha : a ≠ .host) (h : s.agentStep a = none) :
    s.enabled a = false := by
  rw [State.enabled_eq ha, h, Option.isSome_none]

/-- No tx_ready event while TXIE = 0 (41 rule R252). -/
theorem State.agentStep_txReady_none (h : s.ser.txie = false) : s.agentStep .txReady = none :=
  if_neg (ne_true_of_eq_false h)

/-- Outside a session seq_advance is not enabled (44 rule R361). -/
theorem State.enabled_seqAdvance_of_inactive (h : s.seq.active = false) : s.enabled .seqAdvance = false :=
  Bool.eq_false_iff.mpr fun hen => ne_true_of_eq_false h (State.enabled_seqAdvance_iff.mp hen).1

/-- Outside a session seq_end is not enabled (44 rule R363). -/
theorem State.enabled_seqEnd_of_inactive (h : s.seq.active = false) : s.enabled .seqEnd = false :=
  Bool.eq_false_iff.mpr fun hen => ne_true_of_eq_false h (State.enabled_seqEnd_iff.mp hen).1

end

/-- After reset no event and no BLOCK step is enabled: each lacks its enable (70 rule R451). -/
theorem State.resetWith_quiescent (b : Build) (m : Memory) (e : Env) {a : Turn}
    (ha : a ∈ [Turn.rx, Turn.txReady, Turn.tick, Turn.trig, Turn.complete, Turn.reload, Turn.seqAdvance,
      Turn.seqEnd]) :
    (State.resetWith b m e).enabled a = false := by
  cases a
  case rx => exact State.enabled_of_agentStep_none (by decide) (State.agentStep_rx_none (.inl rfl))
  case txReady => exact State.enabled_of_agentStep_none (by decide) (State.agentStep_txReady_none rfl)
  case tick => exact State.enabled_of_agentStep_none (by decide) (State.agentStep_tick_none rfl)
  case trig => exact State.enabled_of_agentStep_none (by decide) (State.agentStep_trig_none (.inl rfl))
  case complete => exact State.enabled_complete_of_not_held rfl
  case reload => exact State.enabled_of_agentStep_none (by decide) (State.agentStep_reload_none nofun)
  case seqAdvance => exact State.enabled_seqAdvance_of_inactive rfl
  case seqEnd => exact State.enabled_seqEnd_of_inactive rfl
  case host | arrive | reset => simp at ha

/-- Settles O34: the port keeps BUSY, HELD_OP and LATCH_N (`step_port_of_oversized`), and no step changes the build. -/
theorem oversizedWriteIsHeldForEver : Obligations.OversizedWriteIsHeldForEver := by
  intro s t hb hop hbig hs hreset
  obtain ⟨a, n, hport⟩ := step_port_of_oversized hs hreset hb hop hbig
  rw [hport, State.cap, step_build hs]
  exact ⟨hb, hop, rfl, rfl⟩

/-- Settles O60: every step lacks its enable (`State.resetWith_quiescent`), and PB_START finds PB_CNT = 0, where the
latches it takes are the zeros already there. -/
theorem theBlockIsQuiescentAfterReset : Obligations.TheBlockIsQuiescentAfterReset := by
  rintro b m e s rfl
  refine ⟨rfl, rfl, rfl, rfl, rfl, rfl, rfl, rfl, rfl, rfl, rfl, fun a => State.resetWith_quiescent b m e, ?_⟩
  exact (pbStartArmsTheChannel _ rfl).2 rfl

end Sys2Proof.Machine
